-- ==== Sys2Proof/Word.lean ====
section
/-! DEFINITION. The value types of the block (R9): unsigned integers of stated widths, and byte strings. -/

namespace Sys2Proof

/-- `u8` (R9). -/
abbrev Byte := BitVec 8

/-- `Bytes`, a finite sequence of `u8` (R9). -/
abbrev Bytes := List Byte

/-- `u16` (R9). -/
abbrev Half := BitVec 16

/-- `u32` (R9): a command word, a CSR, a CRC. -/
abbrev Word := BitVec 32

/-- A MAC address: a `u48` whose first wire byte is bits 47:40 (R11). -/
abbrev Mac := BitVec 48

/-- An IPv4 address: a `u32` whose first wire byte is bits 31:24 (R11). -/
abbrev IpAddr := BitVec 32

/-- `zeros(n)` (R10). -/
def zeros (n : Nat) : Bytes := List.replicate n 0

end Sys2Proof
end

