-- ==== Sys2Proof/Syntax.lean ====
section
/-! DEFINITION. The command set (R116): one constructor per row of spec/opcode_table.json, with the command-word fields
the operation uses (R111). The operand record is no part of the word: it stands on the command port (State.ops). -/

namespace Sys2Proof

/-- A command, by its word. `n` is the CSR number, `q` the queue number, `t` the ARP tag. -/
inductive Instr where
  /-- 0x01 CSRR n (R355). -/
  | csrr (n : BitVec 8)
  /-- 0x02 CSRW n (R356). -/
  | csrw (n : BitVec 8)
  /-- 0x03 START (R357). -/
  | start
  /-- 0x08 CRC32 (R162). -/
  | crc32
  /-- 0x09 CRCCHK (R163). -/
  | crcchk
  /-- 0x10 QADD q (R182). -/
  | qadd (q : BitVec 4)
  /-- 0x11 QPOP q (R183). -/
  | qpop (q : BitVec 4)
  /-- 0x12 QEMPTY q (R184). -/
  | qempty (q : BitVec 4)
  /-- 0x20 FENC (R200). -/
  | fenc
  /-- 0x21 FDEC (R203). -/
  | fdec
  /-- 0x30 ARPFIND (R236). -/
  | arpfind
  /-- 0x31 ARPINS tag (R237). -/
  | arpins (t : BitVec 2)
  /-- 0x32 ARPUPD tag (R238). -/
  | arpupd (t : BitVec 2)
  /-- 0x33 ARPRX (R239). -/
  | arprx
  /-- 0x34 ARPREQ (R241). -/
  | arpreq
  /-- 0x40 IPCSUM (R270). -/
  | ipcsum
  /-- 0x41 IPFRAG (R280). -/
  | ipfrag
  /-- 0x42 IPREASM (R290). -/
  | ipreasm
  deriving DecidableEq, Repr

end Sys2Proof
end

