-- ==== Sys2Proof/WellFormed.lean ====
section
/-! DEFINITION. Which commands a legal word stands for: the range checks 4 to 6 of R115. -/

namespace Sys2Proof

/-- The fields are in range: Q ≤ 6, T ≠ 3, N ≤ 0x0A (R115.4, R115.5, R115.6). -/
def Instr.wellFormed : Instr → Bool
  | .csrr n | .csrw n => decide (n ≤ 0x0A#8)
  | .qadd q | .qpop q | .qempty q => decide (q ≤ 6#4)
  | .arpins t | .arpupd t => decide (t ≠ 3#2)
  | .start | .crc32 | .crcchk | .fenc | .fdec | .arpfind | .arprx | .arpreq | .ipcsum | .ipfrag | .ipreasm => true

end Sys2Proof
end

