-- ==== Sys2Proof/Decode.lean ====
section
/-! DEFINITION. The decoder of command words (R111, R115, R116), total on 32-bit words, and the encoder. -/

namespace Sys2Proof

/-- Why a word is illegal: the six conditions of R115, in its order. -/
inductive Illegal where
  /-- R115.1: OPC is not one of the eighteen values of R116. -/
  | unknownOpcode
  /-- R115.2: a reserved bit (15:14 or 31:24) is non-zero. -/
  | reservedBits
  /-- R115.3: a field the operation does not use is non-zero. -/
  | unusedField
  /-- R115.4: Q > 6. -/
  | queueRange
  /-- R115.5: T = 3. -/
  | tagRange
  /-- R115.6: N > 0x0A. -/
  | csrRange
  deriving DecidableEq, Repr

/-! ## Fields of a command word (R111) -/

/-- OPC, bits 7:0. -/
def opcField (w : Word) : BitVec 8 := w.extractLsb' 0 8
/-- Q, bits 11:8. -/
def queueField (w : Word) : BitVec 4 := w.extractLsb' 8 4
/-- T, bits 13:12. -/
def tagField (w : Word) : BitVec 2 := w.extractLsb' 12 2
/-- Reserved bits 15:14. -/
def reservedLow (w : Word) : BitVec 2 := w.extractLsb' 14 2
/-- N, bits 23:16. -/
def csrField (w : Word) : BitVec 8 := w.extractLsb' 16 8
/-- Reserved bits 31:24. -/
def reservedHigh (w : Word) : BitVec 8 := w.extractLsb' 24 8

/-! ## Decoding -/

/-- The operation OPC selects (R116), with the fields it uses taken from the word; `none` for any other OPC. -/
def operationOf (w : Word) : Option Instr :=
  match opcField w with
  | 0x01#8 => some (.csrr (csrField w))
  | 0x02#8 => some (.csrw (csrField w))
  | 0x03#8 => some .start
  | 0x08#8 => some .crc32
  | 0x09#8 => some .crcchk
  | 0x10#8 => some (.qadd (queueField w))
  | 0x11#8 => some (.qpop (queueField w))
  | 0x12#8 => some (.qempty (queueField w))
  | 0x20#8 => some .fenc
  | 0x21#8 => some .fdec
  | 0x30#8 => some .arpfind
  | 0x31#8 => some (.arpins (tagField w))
  | 0x32#8 => some (.arpupd (tagField w))
  | 0x33#8 => some .arprx
  | 0x34#8 => some .arpreq
  | 0x40#8 => some .ipcsum
  | 0x41#8 => some .ipfrag
  | 0x42#8 => some .ipreasm
  | _ => none

/-- The operation uses the Q field (R111). -/
def usesQueue : Instr → Bool
  | .qadd _ | .qpop _ | .qempty _ => true
  | .csrr _ | .csrw _ | .start | .crc32 | .crcchk | .fenc | .fdec | .arpfind | .arpins _ | .arpupd _ | .arprx | .arpreq
  | .ipcsum | .ipfrag | .ipreasm => false

/-- The operation uses the T field (R111). -/
def usesTag : Instr → Bool
  | .arpins _ | .arpupd _ => true
  | .csrr _ | .csrw _ | .start | .crc32 | .crcchk | .qadd _ | .qpop _ | .qempty _ | .fenc | .fdec | .arpfind | .arprx
  | .arpreq | .ipcsum | .ipfrag | .ipreasm => false

/-- The operation uses the N field (R111). -/
def usesCsr : Instr → Bool
  | .csrr _ | .csrw _ => true
  | .start | .crc32 | .crcchk | .qadd _ | .qpop _ | .qempty _ | .fenc | .fdec | .arpfind | .arpins _ | .arpupd _ | .arprx
  | .arpreq | .ipcsum | .ipfrag | .ipreasm => false

/-- A field the operation does not use is non-zero (R115.3). -/
def unusedFieldSet (i : Instr) (w : Word) : Bool :=
  (!usesQueue i && queueField w != 0) || (!usesTag i && tagField w != 0) || (!usesCsr i && csrField w != 0)

/-- The range checks of R115.4 to R115.6. -/
def rangeCheck (i : Instr) : Except Illegal Instr :=
  match i with
  | .qadd q | .qpop q | .qempty q => if 6#4 < q then .error .queueRange else .ok i
  | .arpins t | .arpupd t => if t = 3#2 then .error .tagRange else .ok i
  | .csrr n | .csrw n => if 0x0A#8 < n then .error .csrRange else .ok i
  | .start | .crc32 | .crcchk | .fenc | .fdec | .arpfind | .arprx | .arpreq | .ipcsum | .ipfrag | .ipreasm => .ok i

/-- Decode a command word: the conditions of R115 in its order, the first that holds naming the refusal. -/
def decode (w : Word) : Except Illegal Instr :=
  match operationOf w with
  | none => .error .unknownOpcode
  | some i =>
    if reservedLow w ≠ 0 ∨ reservedHigh w ≠ 0 then .error .reservedBits
    else if unusedFieldSet i w then .error .unusedField
    else rangeCheck i

/-- The instruction the decoder reads from a table row's bits: a command word is always 32 bits (R117). -/
def decodeTableWord (_nbits w : Nat) : Option Instr :=
  if w < 2 ^ 32 then (decode (BitVec.ofNat 32 w)).toOption else none

/-! ## Encoding -/

/-- A command word from its fields, reserved bits zero (R111). -/
def wordOf (opc : BitVec 8) (q : BitVec 4) (t : BitVec 2) (n : BitVec 8) : Word :=
  0#8 ++ n ++ 0#2 ++ t ++ q ++ opc

/-- The OPC of an operation (R116). -/
def opcodeOf : Instr → BitVec 8
  | .csrr _ => 0x01
  | .csrw _ => 0x02
  | .start => 0x03
  | .crc32 => 0x08
  | .crcchk => 0x09
  | .qadd _ => 0x10
  | .qpop _ => 0x11
  | .qempty _ => 0x12
  | .fenc => 0x20
  | .fdec => 0x21
  | .arpfind => 0x30
  | .arpins _ => 0x31
  | .arpupd _ => 0x32
  | .arprx => 0x33
  | .arpreq => 0x34
  | .ipcsum => 0x40
  | .ipfrag => 0x41
  | .ipreasm => 0x42

/-- Encode a command: its OPC, the field it uses, zeros elsewhere (R111, R116). -/
def encode (i : Instr) : Word :=
  match i with
  | .csrr n | .csrw n => wordOf (opcodeOf i) 0 0 n
  | .qadd q | .qpop q | .qempty q => wordOf (opcodeOf i) q 0 0
  | .arpins t | .arpupd t => wordOf (opcodeOf i) 0 t 0
  | .start | .crc32 | .crcchk | .fenc | .fdec | .arpfind | .arprx | .arpreq | .ipcsum | .ipfrag | .ipreasm =>
    wordOf (opcodeOf i) 0 0 0

end Sys2Proof
end

