-- ==== Sys2Proof/Config.lean ====
section
/-! DEFINITION. What an instance of the block fixes: the constants of R6, the parameters of R7, and the free values. -/

namespace Sys2Proof

/-- The seven queue instances (R48). -/
inductive QueueId where
  /-- Q_LSEND, Ethernet-send: IS to LS. -/
  | q0
  /-- Q_ASEND, ARP-send: AS and AR to LS. -/
  | q1
  /-- Q_IPSEND: host to IS. -/
  | q2
  /-- Q_IPRECV: LR to IR. -/
  | q3
  /-- Q_ARPRECV: LR to AR. -/
  | q4
  /-- Q_ARPREQ: ARPFIND to AS. -/
  | q5
  /-- Q_UPRECV: IR to the host. -/
  | q6
  deriving DecidableEq, Repr

/-- The six autonomous units (R54, 45_units.md). -/
inductive Agent where
  /-- LS. -/
  | linkSend
  /-- LR. -/
  | linkRecv
  /-- IS. -/
  | ipSend
  /-- IR. -/
  | ipRecv
  /-- AS. -/
  | arpSend
  /-- AR. -/
  | arpRecv
  deriving DecidableEq, Repr

namespace Config

/-! ## Constants (R6) -/

/-- PAYLOAD_MIN. -/
def payloadMin : Nat := 46
/-- PAYLOAD_MAX. -/
def payloadMax : Nat := 1500
/-- ARP_LEN. -/
def arpLen : Nat := 28
/-- IP_HDR_LEN. -/
def ipHdrLen : Nat := 60
/-- MAX_SLICE. -/
def maxSlice : Nat := 1400
/-- REASM_BUF_LEN. -/
def reasmBufLen : Nat := 65536
/-- CRC_POLY, reflected. -/
def crcPoly : Word := 0xEDB88320#32
/-- CRC_INIT. -/
def crcInit : Word := 0xFFFFFFFF#32
/-- CRC_XOROUT. -/
def crcXorOut : Word := 0xFFFFFFFF#32
/-- ETHERTYPE_IPV4. -/
def ethertypeIpv4 : Half := 0x0800#16
/-- ETHERTYPE_ARP. -/
def ethertypeArp : Half := 0x0806#16

/-! ## Parameters (R7): they stand in the state, so that a statement about every state holds for every instance. -/

/-- One value for each queue. -/
structure PerQueue (α : Type) where
  q0 : α
  q1 : α
  q2 : α
  q3 : α
  q4 : α
  q5 : α
  q6 : α
  deriving DecidableEq, Repr

/-- The value for one queue. -/
def PerQueue.get {α : Type} (p : PerQueue α) : QueueId → α
  | .q0 => p.q0
  | .q1 => p.q1
  | .q2 => p.q2
  | .q3 => p.q3
  | .q4 => p.q4
  | .q5 => p.q5
  | .q6 => p.q6

/-- The parameters R7 leaves to the implementation; `none` is infinity. -/
structure Params where
  /-- QDEPTH[q]. -/
  queueDepth : PerQueue (Option Nat)
  /-- LEN_CHECK[q]. -/
  lenCheck : PerQueue Bool
  /-- ARP_CAP. -/
  arpCap : Option Nat
  /-- REASM_SLOTS. -/
  reasmSlots : Option Nat
  deriving DecidableEq, Repr

/-- The reference values (R7, 92_eei_decisions.md D41). DESIGN CHOICE for the reset state, log 4. -/
def Params.reference : Params where
  queueDepth := ⟨none, none, none, none, none, none, none⟩
  lenCheck := ⟨false, false, false, true, false, false, false⟩
  arpCap := none
  reasmSlots := none

/-! ## Free values (R7, R92; logs 2 and 3) -/

/-- The free draws of one step (R7). -/
structure Draws where
  /-- `arp_redundant`: whether a miss for an IP already pending enqueues another request (R236). -/
  arpRedundant : Bool
  /-- LS arbitration: serve Q1 where both Q0 and Q1 hold an element (R311). -/
  serveArp : Bool
  /-- `tx_result` is `error` (R350). -/
  txError : Bool
  deriving DecidableEq, Repr, Inhabited

/-- The draws of the autonomous steps, by the state's counter: no body, so nothing can be proved of a value. -/
opaque freeDraws : Nat → Draws

/-- Which of the enabled units steps next when the agenda names none (R92), by the state's counter: no body. -/
opaque freeTurn : Nat → Nat

end Config

end Sys2Proof
end

