-- ==== Sys2Proof/Machine/State.lean ====
section
/-! DEFINITION. The state of the block (10_state.md) as plain data, the records of its ports, and the state after reset. -/

namespace Sys2Proof.Machine

open Sys2Proof.Config (Draws Params)

/-! ## Names -/

/-- PHASE (R44). -/
inductive Phase where
  | config
  | run
  deriving DecidableEq, Repr

/-- The provenance tag of a cache entry (R45). -/
inductive Tag where
  | static
  | dynamic
  | logged
  deriving DecidableEq, Repr

/-- The implemented CSRs 0x00 to 0x0A (R32). -/
inductive CsrId where
  | lmacHi
  | lmacLo
  | lip
  | gwip
  | netmask
  | bmacHi
  | bmacLo
  | dip
  | txcfg
  | mode
  | status
  deriving DecidableEq, Repr

/-- The status codes, by name (R128); their numbers are `Status.code`. -/
inductive Status where
  | ok
  | qRejectLen
  | qFull
  | qEmpty
  | csrRo
  | frameShort
  | crcMismatch
  | macMismatch
  | ethertypeUnknown
  | frameLenMismatch
  | arpMiss
  | arpExists
  | arpAbsent
  | arpFull
  | arpWrongOpcode
  | arpNotForUs
  | ipShort
  | ipBadTotlen
  | reasmOverflow
  | reasmNoSlot
  | ipTooLong
  | transportFault
  | illegalCmd
  deriving DecidableEq, Repr

/-! ## Records of the ports -/

/-- The operand record of a command (R112). -/
structure Operands where
  d : Bytes := []
  wl : BitVec 32 := 0
  mac : Mac := 0
  ip : IpAddr := 0
  et : Half := 0
  proto : Byte := 0
  val : Word := 0
  deriving DecidableEq, Repr

/-- The result record of a command, a field no rule sets at its default (R113). -/
structure Result where
  status : Status
  value : Word := 0
  mac : Mac := 0
  et : Half := 0
  proto : Byte := 0
  ip : IpAddr := 0
  bytes : Bytes := []
  list : List Bytes := []
  deriving DecidableEq, Repr

/-- One capture outcome the transport offers (R351). -/
inductive Capture where
  /-- A frame: the captured bytes and the declared on-wire length. -/
  | frame (d : Bytes) (wl : BitVec 32)
  | error
  deriving DecidableEq, Repr

/-- One move of the environment, in the order it decides (R310, log 1). -/
inductive Event where
  /-- The host submits a command: its word, its operand record, the draws of its step (R110). -/
  | command (w : Word) (ops : Operands) (draw : Draws)
  /-- The transport offers a capture outcome (R351). -/
  | offer (c : Capture)
  /-- Unit `u` has the next step, with the draws of that step (R310). -/
  | turn (u : Agent) (draw : Draws)
  /-- The host asserts reset (R370). -/
  | reset
  deriving DecidableEq, Repr

/-! ## Tables and queues -/

/-- A cache entry (R45). -/
structure CacheEntry where
  mac : Mac
  tag : Tag
  deriving DecidableEq, Repr

/-- An element of Q0 or Q1 (R49). -/
structure LinkElem where
  dst : Mac
  ethertype : Half
  payload : Bytes
  deriving DecidableEq, Repr

/-- An element of Q2 (R49). -/
structure IpSendElem where
  proto : Byte
  payload : Bytes
  deriving DecidableEq, Repr

/-- The seven queues, oldest element first (R48, R49). -/
structure Queues where
  q0 : List LinkElem
  q1 : List LinkElem
  q2 : List IpSendElem
  q3 : List Bytes
  q4 : List Bytes
  q5 : List IpAddr
  q6 : List Bytes
  deriving DecidableEq, Repr

/-- A reassembly buffer: the written cells by address, rising; an unlisted address is unwritten (R51, log 10). -/
abbrev Memory := List Host.Cell

/-- A fragment record (o, L) (R51). -/
structure FragRec where
  off : Nat
  len : Nat
  deriving DecidableEq, Repr

/-- A reassembly slot (R51); `recs` is a set, kept as a list that rises by offset and then length (log 10). -/
structure Slot where
  buf : Memory
  cursor : Nat
  recs : List FragRec
  expected : Option Nat
  deriving DecidableEq, Repr

/-- A new slot (R51). -/
def Slot.fresh : Slot := { buf := [], cursor := 0, recs := [], expected := none }

/-- The configuration CSRs 0x00 to 0x09 (R34 to R42). -/
structure Csrs where
  lmacHi : Word
  lmacLo : Word
  lip : Word
  gwip : Word
  netmask : Word
  bmacHi : Word
  bmacLo : Word
  dip : Word
  txcfg : Word
  mode : Word
  deriving DecidableEq, Repr

/-- `halted[u]` for the six units (R54). -/
structure Halts where
  linkSend : Bool
  linkRecv : Bool
  ipSend : Bool
  ipRecv : Bool
  arpSend : Bool
  arpRecv : Bool
  deriving DecidableEq, Repr

/-- One log event (R55). -/
structure LogEvent where
  unit : Agent
  code : Status
  deriving DecidableEq, Repr

/-! ## The state -/

/-- The state. The fields down to `offered` are the spec's (10_state.md, R351); the rest are the model's own (INVENTORY.md). -/
structure State where
  phase : Phase
  csrs : Csrs
  halted : Halts
  /-- `is_work` (R54). -/
  isWork : List Bytes
  /-- The ARP cache table, rising by IP (R45, log 10). -/
  cache : List (IpAddr × CacheEntry)
  /-- The pending set, rising (R47, log 10). -/
  pending : List IpAddr
  queues : Queues
  /-- The reassembly map, rising by datagram ID (R50, log 10). -/
  reasm : List (Half × Slot)
  log : List LogEvent
  /-- Captures offered and not yet consumed, oldest first (R351, log 6). -/
  offered : List Capture
  /-- The operand record on the command port (R112, log 5). -/
  ops : Operands
  /-- The draws of the step being taken (R7, log 3). -/
  draw : Draws
  /-- The result records returned to the host, oldest first (R113, log 5). -/
  results : List Result
  /-- The frames handed to the transport, oldest first (R350, log 5). -/
  wire : List Bytes
  /-- The moves to come (log 1). -/
  agenda : List Event
  /-- The counter the free values of Config are applied to (log 3). -/
  draws : Nat
  /-- The parameters of this instance (R7, log 4). -/
  params : Params
  deriving DecidableEq, Repr

/-- Why a step stops the model. -/
inductive Fault where
  /-- Raised by BufRead, in IPREASM and in the step of IR, where a cell it reads is unwritten (R82, 93_implementation_defined.md A7).
  The spec proves it never arises; safe, since the model stops where the spec defines nothing (log 8). -/
  | readUnwritten
  deriving DecidableEq, Repr

/-- Why an instruction has no meaning. -/
inductive Refusal where
  /-- An instruction of the table the model gives no meaning; raised by `exec` alone. Safe. No arm uses it. -/
  | notModelled (mnemonic : String)
  deriving DecidableEq, Repr

/-! ## Reset -/

/-- The CSRs after reset (R370). -/
def Csrs.reset : Csrs where
  lmacHi := 0x00000000
  lmacLo := 0x00000000
  lip := 0x00000000
  gwip := 0x00000000
  netmask := 0x00000000
  bmacHi := 0x0000FFFF
  bmacLo := 0xFFFFFFFF
  dip := 0x00000000
  txcfg := 0x00000000
  mode := 0x00000000

/-- No unit halted (R370). -/
def Halts.none : Halts := ⟨false, false, false, false, false, false⟩

/-- Every queue empty (R370). -/
def Queues.empty : Queues := ⟨[], [], [], [], [], [], []⟩

/-- The state after reset of an instance with parameters `p` (R370). -/
def State.resetWith (p : Params) : State where
  phase := .config
  csrs := Csrs.reset
  halted := Halts.none
  isWork := []
  cache := []
  pending := []
  queues := Queues.empty
  reasm := []
  log := []
  offered := []
  ops := {}
  draw := ⟨false, false, false⟩
  results := []
  wire := []
  agenda := []
  draws := 0
  params := p

/-- The state after reset of the reference instance (R370, R7; log 4). -/
def State.reset : State := State.resetWith Params.reference

end Sys2Proof.Machine
end

