-- ==== Sys2Proof/Machine/Flags.lean ====
section
/-! DEFINITION. The codes and the persistent flag bits: there are no condition codes (R56). The numbers of the status
codes (R128) and of the ARP tags (R45), and the STATUS register as a view of PHASE, the halt bits and `is_work` (R43). -/

namespace Sys2Proof.Machine

/-- The number of a status code (R128). -/
def Status.code : Status → BitVec 8
  | .ok => 0x00
  | .qRejectLen => 0x01
  | .qFull => 0x02
  | .qEmpty => 0x03
  | .csrRo => 0x04
  | .frameShort => 0x10
  | .crcMismatch => 0x11
  | .macMismatch => 0x12
  | .ethertypeUnknown => 0x13
  | .frameLenMismatch => 0x14
  | .arpMiss => 0x20
  | .arpExists => 0x21
  | .arpAbsent => 0x22
  | .arpFull => 0x23
  | .arpWrongOpcode => 0x24
  | .arpNotForUs => 0x25
  | .ipShort => 0x30
  | .ipBadTotlen => 0x31
  | .reasmOverflow => 0x32
  | .reasmNoSlot => 0x33
  | .ipTooLong => 0x34
  | .transportFault => 0x40
  | .illegalCmd => 0xFF

/-- The code of an ARP tag (R45). -/
def Tag.code : Tag → Word
  | .static => 0
  | .dynamic => 1
  | .logged => 2

/-- `halted[u]`. -/
def Halts.get (h : Halts) : Agent → Bool
  | .linkSend => h.linkSend
  | .linkRecv => h.linkRecv
  | .ipSend => h.ipSend
  | .ipRecv => h.ipRecv
  | .arpSend => h.arpSend
  | .arpRecv => h.arpRecv

/-- `halted[u] <- true`. -/
def Halts.set (h : Halts) : Agent → Halts
  | .linkSend => { h with linkSend := true }
  | .linkRecv => { h with linkRecv := true }
  | .ipSend => { h with ipSend := true }
  | .ipRecv => { h with ipRecv := true }
  | .arpSend => { h with arpSend := true }
  | .arpRecv => { h with arpRecv := true }

/-- The word with bit `k` equal to `b` and every other bit 0. -/
def flagBit (b : Bool) (k : Nat) : Word := if b then 1#32 <<< k else 0#32

/-- STATUS (R43): PHASE, the six halt bits, IS_BUSY; 31:8 read 0. -/
def statusWord (s : State) : Word :=
  flagBit (s.phase == .run) 0 ||| flagBit s.halted.linkSend 1 ||| flagBit s.halted.linkRecv 2 ||| flagBit s.halted.ipSend 3 |||
    flagBit s.halted.ipRecv 4 ||| flagBit s.halted.arpSend 5 ||| flagBit s.halted.arpRecv 6 ||| flagBit (!s.isWork.isEmpty) 7

end Sys2Proof.Machine
end

