-- ==== Sys2Proof/Machine/Wire.lean ====
section
/-! DEFINITION. Byte strings and byte order: every multi-byte wire field is big-endian (R10, R11, R83). -/

namespace Sys2Proof.Machine

/-- `BE16(v)` (R11). -/
def be16 (v : Half) : Bytes := [v.extractLsb' 8 8, v.extractLsb' 0 8]

/-- `BE32(v)` (R11). -/
def be32 (v : Word) : Bytes := [v.extractLsb' 24 8, v.extractLsb' 16 8, v.extractLsb' 8 8, v.extractLsb' 0 8]

/-- `BE48(m)` (R11). -/
def be48 (m : Mac) : Bytes :=
  [m.extractLsb' 40 8, m.extractLsb' 32 8, m.extractLsb' 24 8, m.extractLsb' 16 8, m.extractLsb' 8 8, m.extractLsb' 0 8]

/-- `d[i]`. Every rule tests the length first, so the default is never read. DEDUCED, safe (log 13). -/
def byteAt (d : Bytes) (i : Nat) : Byte := d.getD i 0

/-- `d[a..b]`, half-open (R10). -/
def slice (d : Bytes) (a b : Nat) : Bytes := (d.drop a).take (b - a)

/-- `rd16(d, i)` (R11). -/
def rd16 (d : Bytes) (i : Nat) : Half := byteAt d i ++ byteAt d (i + 1)

/-- `rd32(d, i)` (R11). -/
def rd32 (d : Bytes) (i : Nat) : Word := rd16 d i ++ rd16 d (i + 2)

/-- `rd48(d, i)` (R11). -/
def rd48 (d : Bytes) (i : Nat) : Mac := rd16 d i ++ rd32 d (i + 2)

end Sys2Proof.Machine
end

