-- ==== Sys2Proof/Machine/Ops.lean ====
section
/-! DEFINITION. The named operations over the state: completing a command, a drop (what this block has in the place of an
exception, R340, R343), the CSRs, the tables, the reassembly buffers. -/

namespace Sys2Proof.Machine

open Sys2Proof.Config (Draws Params)

/-! ## Completing a command -/

/-- A command completes: its result record goes to the host, and its operand record does not persist (R31, R110, R113). -/
def State.respond (s : State) (r : Result) : State := { s with results := s.results ++ [r], ops := {} }

/-- `raise <Code>`: the command ends with a status, every other result field at its default, and no state written (R12, R340). -/
def State.raise (s : State) (c : Status) : State := s.respond { status := c }

/-- An illegal command ends with ILLEGAL_CMD and changes nothing else (R115). -/
def State.illegal (s : State) : State := s.raise .illegalCmd

/-! ## Drops: the error entry of a unit step -/

/-- `log(u, code)`: the one effect of a drop besides the consumed input (R343, R345). There is no return from it (R344). -/
def State.logEvent (s : State) (u : Agent) (c : Status) : State := { s with log := s.log ++ [⟨u, c⟩] }

/-- A drop where the status is an error, nothing where it is OK (R343). -/
def State.logUnlessOk (s : State) (u : Agent) (c : Status) : State := if c = .ok then s else s.logEvent u c

/-- A transport fault: `halted[u] <- true; log(u, TRANSPORT_FAULT)` (R311, R312, R347). -/
def State.haltUnit (s : State) (u : Agent) : State :=
  ({ s with halted := s.halted.set u } : State).logEvent u .transportFault

/-! ## CSRs -/

/-- `wmask(n)` (R356): the bits of a CSR that are not reserved. -/
def CsrId.wmask : CsrId → Word
  | .lmacHi | .bmacHi => 0x0000FFFF
  | .mode => 0x00000001
  | .lmacLo | .lip | .gwip | .netmask | .bmacLo | .dip | .txcfg | .status => 0xFFFFFFFF

/-- The stored word of a CSR; STATUS is computed (R43). -/
def csrRaw (n : CsrId) (s : State) : Word :=
  match n with
  | .lmacHi => s.csrs.lmacHi
  | .lmacLo => s.csrs.lmacLo
  | .lip => s.csrs.lip
  | .gwip => s.csrs.gwip
  | .netmask => s.csrs.netmask
  | .bmacHi => s.csrs.bmacHi
  | .bmacLo => s.csrs.bmacLo
  | .dip => s.csrs.dip
  | .txcfg => s.csrs.txcfg
  | .mode => s.csrs.mode
  | .status => statusWord s

/-- `csr[n]`, reserved bits as 0 (R33, R355). -/
def csrRead (n : CsrId) (s : State) : Word := csrRaw n s &&& n.wmask

/-- The CSR bank after `csr[n] <- v`; STATUS holds nothing of its own (R43). -/
def Csrs.set (c : Csrs) (n : CsrId) (v : Word) : Csrs :=
  match n with
  | .lmacHi => { c with lmacHi := v }
  | .lmacLo => { c with lmacLo := v }
  | .lip => { c with lip := v }
  | .gwip => { c with gwip := v }
  | .netmask => { c with netmask := v }
  | .bmacHi => { c with bmacHi := v }
  | .bmacLo => { c with bmacLo := v }
  | .dip => { c with dip := v }
  | .txcfg => { c with txcfg := v }
  | .mode => { c with mode := v }
  | .status => c

/-- `csr[n] <- v & wmask(n)` (R356). -/
def State.csrWrite (s : State) (n : CsrId) (v : Word) : State := { s with csrs := s.csrs.set n (v &&& n.wmask) }

/-- LOCAL_MAC, `(LMAC_HI[15:0] << 32) | LMAC_LO` (R35). -/
def localMac (s : State) : Mac := s.csrs.lmacHi.setWidth 16 ++ s.csrs.lmacLo

/-- BROADCAST_MAC (R39). -/
def broadcastMac (s : State) : Mac := s.csrs.bmacHi.setWidth 16 ++ s.csrs.bmacLo

/-- LOCAL_IP (R36). -/
def localIp (s : State) : IpAddr := s.csrs.lip

/-- GATEWAY_IP (R37). -/
def gatewayIp (s : State) : IpAddr := s.csrs.gwip

/-- NETMASK (R38). -/
def netmask (s : State) : IpAddr := s.csrs.netmask

/-- DEST_IP (R40). -/
def destIp (s : State) : IpAddr := s.csrs.dip

/-- TX_ID, TXCFG 15:0 (R41). -/
def txId (s : State) : Half := s.csrs.txcfg.extractLsb' 0 16

/-- TX_TTL, TXCFG 23:16 (R41). -/
def txTtl (s : State) : Byte := s.csrs.txcfg.extractLsb' 16 8

/-- TX_TOS, TXCFG 31:24 (R41). -/
def txTos (s : State) : Byte := s.csrs.txcfg.extractLsb' 24 8

/-- ROLE = peer, MODE bit 0 (R42). -/
def isPeer (s : State) : Bool := s.csrs.mode.getLsbD 0

/-! ## Capacities -/

/-- A table or queue of `n` entries has no room under a capacity, `none` being infinity (R7, R181). In a state no run reaches, with
more entries than the capacity, it has no room either. DEDUCED, safe (log 7). -/
def atCapacity (cap : Option Nat) (n : Nat) : Bool :=
  match cap with
  | none => false
  | some c => decide (c ≤ n)

/-! ## Finite maps and sets as rising lists (log 10) -/

/-- Put `a` in its place in a list that rises by `lt`, in the place of an entry neither below nor above it. -/
def insertSorted {α : Type} (lt : α → α → Bool) (a : α) : List α → List α
  | [] => [a]
  | b :: l => if lt a b then a :: b :: l else if lt b a then b :: insertSorted lt a l else a :: l

/-- The order of entries keyed by a bit vector. -/
def keyLt {w : Nat} {β : Type} (x y : BitVec w × β) : Bool := x.1.ult y.1

/-- The order of fragment records: by offset, then by length. -/
def recLt (x y : FragRec) : Bool := decide (x.off < y.off) || (decide (x.off = y.off) && decide (x.len < y.len))

/-- `Cache(ip)` (R12, R45). -/
def cacheFind (s : State) (ip : IpAddr) : Option CacheEntry := s.cache.lookup ip

/-- `Cache(ip) <- (mac, tag)` (R45). -/
def State.cachePut (s : State) (ip : IpAddr) (e : CacheEntry) : State :=
  { s with cache := insertSorted keyLt (ip, e) s.cache }

/-- `Pending <- Pending ∪ {ip}` (R47). -/
def State.pendingAdd (s : State) (ip : IpAddr) : State := { s with pending := insertSorted BitVec.ult ip s.pending }

/-- `Pending <- Pending \ {ip}` (R47). -/
def State.pendingDel (s : State) (ip : IpAddr) : State := { s with pending := s.pending.filter (· ≠ ip) }

/-- `Reasm(id)` (R50). -/
def slotFind (s : State) (id : Half) : Option Slot := s.reasm.lookup id

/-- `Reasm(id) <- sl` (R50). -/
def State.slotPut (s : State) (id : Half) (sl : Slot) : State := { s with reasm := insertSorted keyLt (id, sl) s.reasm }

/-- `Reasm(id) <- none` (R50). -/
def State.slotDel (s : State) (id : Half) : State := { s with reasm := s.reasm.filter (fun x => x.1 ≠ id) }

/-! ## Reassembly buffers (R51, R82) -/

/-- The canonical form of a buffer: addresses strictly rising and inside the 65536 cells (R51). -/
abbrev Memory.wf (m : Memory) : Prop := (m.map Prod.fst).Pairwise (· < ·) ∧ ∀ c ∈ m, c.1 < Config.reasmBufLen

/-- The cell at `a`: its byte, or `none` where it is unwritten (R51). -/
def Memory.read (m : Memory) (a : Nat) : Option Byte := m.lookup a

/-- The cells of the bytes `v` laid from address `a` up. -/
def cellsFrom (a : Nat) : Bytes → Memory
  | [] => []
  | b :: v => (a, b) :: cellsFrom (a + 1) v

/-- `BufWrite(s, a, v)` (R82): the cells below, the cells written, the cells above. -/
def Memory.write (m : Memory) (a : Nat) (v : Bytes) : Memory :=
  m.filter (fun c => decide (c.1 < a)) ++ cellsFrom a v ++ m.filter (fun c => decide (a + v.length ≤ c.1))

/-- `BufRead(s, a, n)` (R82): the bytes of `n` cells from `a` up, `none` where one is unwritten. -/
def Memory.readRange : Memory → Nat → Nat → Option Bytes
  | _, _, 0 => some []
  | [], _, _ + 1 => none
  | c :: m, a, n + 1 =>
    if c.1 < a then Memory.readRange m a (n + 1)
    else if c.1 = a then (Memory.readRange m (a + 1) n).map (c.2 :: ·)
    else none

end Sys2Proof.Machine
end

