-- ==== Sys2Proof/Machine/Operands.lean ====
section
/-! DEFINITION. What the command-word fields stand for (R114), and the queue elements built from the operand record (R180). -/

namespace Sys2Proof.Machine

/-- The queue of a Q field; 7 to 15 name none (R111, R115.4). -/
def queueOf (q : BitVec 4) : Option QueueId :=
  match q with
  | 0#4 => some .q0
  | 1#4 => some .q1
  | 2#4 => some .q2
  | 3#4 => some .q3
  | 4#4 => some .q4
  | 5#4 => some .q5
  | 6#4 => some .q6
  | _ => none

/-- The tag of a T field; 3 names none (R111, R115.5). -/
def tagOf (t : BitVec 2) : Option Tag :=
  match t with
  | 0#2 => some .static
  | 1#2 => some .dynamic
  | 2#2 => some .logged
  | _ => none

/-- The CSR of an N field; 0x0B to 0xFF name none (R32, R115.6). -/
def csrOf (n : BitVec 8) : Option CsrId :=
  match n with
  | 0x00#8 => some .lmacHi
  | 0x01#8 => some .lmacLo
  | 0x02#8 => some .lip
  | 0x03#8 => some .gwip
  | 0x04#8 => some .netmask
  | 0x05#8 => some .bmacHi
  | 0x06#8 => some .bmacLo
  | 0x07#8 => some .dip
  | 0x08#8 => some .txcfg
  | 0x09#8 => some .mode
  | 0x0A#8 => some .status
  | _ => none

/-- `plen(e)` of the element QADD builds for `q` (R180): an IpElem has payload length 0. -/
def elementLen (q : QueueId) (o : Operands) : Nat :=
  match q with
  | .q5 => 0
  | .q0 | .q1 | .q2 | .q3 | .q4 | .q6 => o.d.length

/-- The queues after the element built from `o` (R180) is appended at the tail of `q`. -/
def Queues.push (qs : Queues) (q : QueueId) (o : Operands) : Queues :=
  match q with
  | .q0 => { qs with q0 := qs.q0 ++ [⟨o.mac, o.et, o.d⟩] }
  | .q1 => { qs with q1 := qs.q1 ++ [⟨o.mac, o.et, o.d⟩] }
  | .q2 => { qs with q2 := qs.q2 ++ [⟨o.proto, o.d⟩] }
  | .q3 => { qs with q3 := qs.q3 ++ [o.d] }
  | .q4 => { qs with q4 := qs.q4 ++ [o.d] }
  | .q5 => { qs with q5 := qs.q5 ++ [o.ip] }
  | .q6 => { qs with q6 := qs.q6 ++ [o.d] }

/-- `Q[q].len`. -/
def Queues.len (qs : Queues) : QueueId → Nat
  | .q0 => qs.q0.length
  | .q1 => qs.q1.length
  | .q2 => qs.q2.length
  | .q3 => qs.q3.length
  | .q4 => qs.q4.length
  | .q5 => qs.q5.length
  | .q6 => qs.q6.length

/-- `Q[q].pop()` as QPOP reports it (R183): the result record of the head, and the queues without it; `none` for an empty queue. -/
def Queues.pop (qs : Queues) : QueueId → Option (Result × Queues)
  | .q0 => match qs.q0 with
    | [] => none
    | e :: r => some ({ status := .ok, mac := e.dst, et := e.ethertype, bytes := e.payload }, { qs with q0 := r })
  | .q1 => match qs.q1 with
    | [] => none
    | e :: r => some ({ status := .ok, mac := e.dst, et := e.ethertype, bytes := e.payload }, { qs with q1 := r })
  | .q2 => match qs.q2 with
    | [] => none
    | e :: r => some ({ status := .ok, proto := e.proto, bytes := e.payload }, { qs with q2 := r })
  | .q3 => match qs.q3 with
    | [] => none
    | e :: r => some ({ status := .ok, bytes := e }, { qs with q3 := r })
  | .q4 => match qs.q4 with
    | [] => none
    | e :: r => some ({ status := .ok, bytes := e }, { qs with q4 := r })
  | .q5 => match qs.q5 with
    | [] => none
    | e :: r => some ({ status := .ok, ip := e }, { qs with q5 := r })
  | .q6 => match qs.q6 with
    | [] => none
    | e :: r => some ({ status := .ok, bytes := e }, { qs with q6 := r })

end Sys2Proof.Machine
end

