-- ==== Sys2Proof/Machine/Queue.lean ====
section
/-! DEFINITION. The FIFO queues (41_queue.md): QADD, QPOP, QEMPTY. -/

namespace Sys2Proof.Machine

/-- The length of the element is refused by `q`: not 28 on Q4, outside [46, 1500] where LEN_CHECK is set (R181.1, R181.2). -/
def lengthRefused (q : QueueId) (o : Operands) (s : State) : Bool :=
  (q == .q4 && elementLen q o != Config.arpLen) ||
    (s.params.lenCheck.get q && (decide (elementLen q o < Config.payloadMin) || decide (Config.payloadMax < elementLen q o)))

/-- The queue has no room (R181.3). -/
def queueFull (q : QueueId) (s : State) : Bool := atCapacity (s.params.queueDepth.get q) (s.queues.len q)

/-- The admission test (R181). -/
def admitted (q : QueueId) (o : Operands) (s : State) : Bool := !lengthRefused q o s && !queueFull q s

/-- `Q[q].push(e)`, appended at the tail. -/
def State.pushElem (s : State) (q : QueueId) (o : Operands) : State := { s with queues := s.queues.push q o }

/-- The body of QADD (R182), which the unit steps call too: the status, and the state. -/
def qaddBody (q : QueueId) (o : Operands) (s : State) : Status × State :=
  if lengthRefused q o s then (.qRejectLen, s)
  else if queueFull q s then (.qFull, s)
  else (.ok, s.pushElem q o)

/-- QADD q (R182); a Q field above 6 is illegal (R115.4). -/
def execQadd (q : BitVec 4) (s : State) : Host.Outcome State Fault Refusal :=
  match queueOf q with
  | none => .next s.illegal
  | some q => .next ((qaddBody q s.ops s).2.respond { status := (qaddBody q s.ops s).1 })

/-- QPOP q (R183). -/
def execQpop (q : BitVec 4) (s : State) : Host.Outcome State Fault Refusal :=
  match queueOf q with
  | none => .next s.illegal
  | some q =>
    match s.queues.pop q with
    | none => .next (s.raise .qEmpty)
    | some (r, qs) => .next (({ s with queues := qs } : State).respond r)

/-- QEMPTY q (R184). -/
def execQempty (q : BitVec 4) (s : State) : Host.Outcome State Fault Refusal :=
  match queueOf q with
  | none => .next s.illegal
  | some q => .next (s.respond { status := .ok, value := if s.queues.len q = 0 then 1 else 0 })

end Sys2Proof.Machine
end

