-- ==== Sys2Proof/Machine/Arp.lean ====
section
/-! DEFINITION. The address-resolution engine (43_arp.md): ARPFIND, ARPINS, ARPUPD, ARPRX, ARPREQ. -/

namespace Sys2Proof.Machine

/-- `SameNet(ip)` (R231). -/
def sameNet (s : State) (ip : IpAddr) : Bool := (ip &&& netmask s) == (localIp s &&& netmask s)

/-- `ArpFrame(op, smac, sip, tmac, tip)` (R120, R121). -/
def arpFrame (op : Half) (smac : Mac) (sip : IpAddr) (tmac : Mac) (tip : IpAddr) : Bytes :=
  be16 0x0001#16 ++ be16 0x0800#16 ++ [6, 4] ++ be16 op ++ be48 smac ++ be32 sip ++ be48 tmac ++ be32 tip

/-- `a.op` (R121). -/
def arpOp (a : Bytes) : Half := rd16 a 6
/-- `a.smac` (R121). -/
def arpSmac (a : Bytes) : Mac := rd48 a 8
/-- `a.sip` (R121). -/
def arpSip (a : Bytes) : IpAddr := rd32 a 14
/-- `a.tmac` (R121). -/
def arpTmac (a : Bytes) : Mac := rd48 a 18
/-- `a.tip` (R121). -/
def arpTip (a : Bytes) : IpAddr := rd32 a 24

/-- A miss enqueues a request: always for an IP not pending, by the draw for one that is (R236). -/
def missEnqueues (ip : IpAddr) (s : State) : Bool := if ip ∈ s.pending then s.draw.arpRedundant else true

/-- The miss path of ARPFIND (R236): the request and the pending mark, where Q5 admits the request. -/
def arpMiss (ip : IpAddr) (s : State) : State :=
  if missEnqueues ip s && admitted .q5 { ip := ip } s then (s.pushElem .q5 { ip := ip }).pendingAdd ip else s

/-- The body of ARPFIND (R236), which IS calls too. -/
def arpfindBody (ip : IpAddr) (s : State) : Result × State :=
  match cacheFind s ip with
  | some e => ({ status := .ok, mac := e.mac, value := e.tag.code }, s)
  | none => ({ status := .arpMiss }, arpMiss ip s)

/-- The body of ARPINS (R237). -/
def arpinsBody (tag : Tag) (ip : IpAddr) (mac : Mac) (s : State) : Status × State :=
  if (cacheFind s ip).isSome then (.arpExists, s)
  else if atCapacity s.params.arpCap s.cache.length then (.arpFull, s)
  else (.ok, (s.cachePut ip ⟨mac, tag⟩).pendingDel ip)

/-- The body of ARPUPD (R238). -/
def arpupdBody (tag : Tag) (ip : IpAddr) (mac : Mac) (s : State) : Status × State :=
  if (cacheFind s ip).isNone then (.arpAbsent, s)
  else (.ok, s.cachePut ip ⟨mac, tag⟩)

/-- A reply learned, on the originating side (R239, ROLE = 0). -/
def arpLearn (a : Bytes) (s : State) : Result × State :=
  if arpOp a ≠ 2 then ({ status := .arpWrongOpcode }, s)
  else if (cacheFind s (arpSip a)).isNone && atCapacity s.params.arpCap s.cache.length then ({ status := .arpFull }, s)
  else ({ status := .ok }, (s.cachePut (arpSip a) ⟨arpSmac a, .dynamic⟩).pendingDel (arpSip a))

/-- A request answered, on the peer side (R239, ROLE = 1): no table update. -/
def arpAnswer (a : Bytes) (s : State) : Result :=
  if arpOp a ≠ 1 then { status := .arpWrongOpcode }
  else if arpTip a ≠ localIp s then { status := .arpNotForUs }
  else
    { status := .ok, mac := arpSmac a, et := Config.ethertypeArp,
      bytes := arpFrame 2 (localMac s) (localIp s) (arpSmac a) (arpSip a) }

/-- The body of ARPRX (R239), which AR calls too. Only opcode and addresses are read (R240). -/
def arprxBody (d : Bytes) (s : State) : Result × State :=
  if d.length < Config.arpLen then ({ status := .frameShort }, s)
  else
    let a := slice d 0 Config.arpLen
    if isPeer s then (arpAnswer a s, s) else arpLearn a s

/-- The IP a request asks for: the operand on the subnet, else GATEWAY_IP (R241). -/
def requestTarget (s : State) (ip : IpAddr) : IpAddr := if sameNet s ip then ip else gatewayIp s

/-- The result of ARPREQ (R241). -/
def arpRequest (s : State) (ip : IpAddr) : Result :=
  { status := .ok, ip := requestTarget s ip, mac := broadcastMac s, et := Config.ethertypeArp,
    bytes := arpFrame 1 (localMac s) (localIp s) 0 (requestTarget s ip) }

/-- ARPFIND (R236). -/
def execArpfind (s : State) : Host.Outcome State Fault Refusal :=
  .next ((arpfindBody s.ops.ip s).2.respond (arpfindBody s.ops.ip s).1)

/-- ARPINS tag (R237); T = 3 is illegal (R115.5). -/
def execArpins (t : BitVec 2) (s : State) : Host.Outcome State Fault Refusal :=
  match tagOf t with
  | none => .next s.illegal
  | some tag => .next ((arpinsBody tag s.ops.ip s.ops.mac s).2.respond { status := (arpinsBody tag s.ops.ip s.ops.mac s).1 })

/-- ARPUPD tag (R238). -/
def execArpupd (t : BitVec 2) (s : State) : Host.Outcome State Fault Refusal :=
  match tagOf t with
  | none => .next s.illegal
  | some tag => .next ((arpupdBody tag s.ops.ip s.ops.mac s).2.respond { status := (arpupdBody tag s.ops.ip s.ops.mac s).1 })

/-- ARPRX (R239). -/
def execArprx (s : State) : Host.Outcome State Fault Refusal :=
  .next ((arprxBody s.ops.d s).2.respond (arprxBody s.ops.d s).1)

/-- ARPREQ (R241). -/
def execArpreq (s : State) : Host.Outcome State Fault Refusal :=
  .next (s.respond (arpRequest s s.ops.ip))

end Sys2Proof.Machine
end

