-- ==== Sys2Proof/Machine/Crc.lean ====
section
/-! DEFINITION. The CRC engine (40_crc.md): CRC32, CRCCHK. -/

namespace Sys2Proof.Machine

/-- One turn of the table loop of R160. -/
def crcBit (c : Word) : Word := if c.getLsbD 0 then Config.crcPoly ^^^ (c >>> 1) else c >>> 1

/-- `k` turns of the table loop. -/
def crcBits : Nat → Word → Word
  | 0, c => c
  | k + 1, c => crcBits k (crcBit c)

/-- `T[n]` (R53, R160). -/
def crcTable (n : Byte) : Word := crcBits 8 (n.setWidth 32)

/-- The register after one byte: `T[(c ^ d[k]) & 0xFF] ^ (c >> 8)` (R161). -/
def crcByte (c : Word) (b : Byte) : Word := crcTable (c.setWidth 8 ^^^ b) ^^^ (c >>> 8)

/-- `k c`, with the kernel made to compute `c` to a numeral first (`forced_eq` in Laws: it equals `k c`). -/
def forced {α : Type} (c : Word) (k : Word → α) : α :=
  match c.toNat with
  | 0 => k 0#32
  | n + 1 => k (BitVec.ofNat 32 (n + 1))

/-- The byte-wise loop of R161 from register `c`. -/
def crcLoop : Bytes → Word → Word
  | [], c => c
  | b :: d, c => forced (crcByte c b) (crcLoop d)

/-- `crc32(d)` (R161). -/
def crc32 (d : Bytes) : Word := crcLoop d Config.crcInit ^^^ Config.crcXorOut

/-- The result of CRCCHK on `d` (R163). -/
def crcCheck (d : Bytes) : Result :=
  if d.length < 4 then { status := .frameShort }
  else
    let c := crc32 (slice d 0 (d.length - 4))
    { status := if c = rd32 d (d.length - 4) then .ok else .crcMismatch, value := c }

/-- CRC32 (R162). -/
def execCrc32 (s : State) : Host.Outcome State Fault Refusal :=
  .next (s.respond { status := .ok, value := crc32 s.ops.d })

/-- CRCCHK (R163). -/
def execCrcchk (s : State) : Host.Outcome State Fault Refusal :=
  .next (s.respond (crcCheck s.ops.d))

end Sys2Proof.Machine
end

