-- ==== Sys2Proof/Machine/Frame.lean ====
section
/-! DEFINITION. The frame codec (42_frame.md): FENC, FDEC. -/

namespace Sys2Proof.Machine

/-- The Ethernet-v2 frame of R119 with LOCAL_MAC as its source (R200): no length check, no padding (R201). -/
def encodeFrame (s : State) (mac : Mac) (et : Half) (d : Bytes) : Bytes :=
  be48 mac ++ be48 (localMac s) ++ be16 et ++ d ++ be32 (crc32 d)

/-- The result of FDEC on the captured bytes `d` with declared length `wl` (R203): the gates in the order of R204. -/
def decodeFrame (s : State) (d : Bytes) (wl : BitVec 32) : Result :=
  let n := d.length
  if n < 18 then { status := .frameShort }
  else if crc32 (slice d 14 (n - 4)) ≠ rd32 d (n - 4) then { status := .crcMismatch }
  else if rd48 d 0 ≠ localMac s ∧ rd48 d 0 ≠ broadcastMac s then { status := .macMismatch }
  else if rd16 d 12 = Config.ethertypeIpv4 then
    if wl.toNat ≠ n then { status := .frameLenMismatch }
    else { status := .ok, et := Config.ethertypeIpv4, bytes := slice d 14 (n - 4) }
  else if rd16 d 12 = Config.ethertypeArp then
    if n < 42 then { status := .frameShort }
    else { status := .ok, et := Config.ethertypeArp, bytes := slice d 14 42 }
  else { status := .ethertypeUnknown }

/-- FENC (R200). -/
def execFenc (s : State) : Host.Outcome State Fault Refusal :=
  .next (s.respond { status := .ok, bytes := encodeFrame s s.ops.mac s.ops.et s.ops.d })

/-- FDEC (R203). -/
def execFdec (s : State) : Host.Outcome State Fault Refusal :=
  .next (s.respond (decodeFrame s s.ops.d s.ops.wl))

end Sys2Proof.Machine
end

