-- ==== Sys2Proof/Machine/Ip.lean ====
section
/-! DEFINITION. The IP engine (44_ip.md): IPCSUM, IPFRAG, IPREASM. -/

namespace Sys2Proof.Machine

/-! ## Checksum and header -/

/-- The sum of the 16-bit words, an odd last byte padded with a zero byte (R270). -/
def sumWords : Bytes → Nat
  | [] => 0
  | [a] => a.toNat * 256
  | a :: b :: d => a.toNat * 256 + b.toNat + sumWords d

/-- The end-around carry loop of R270, `while s > 0xFFFF`, with fuel; each turn lowers `s`, so fuel `s` runs it to its end. -/
def foldCarry : Nat → Nat → Nat
  | 0, s => s
  | k + 1, s => if 0xFFFF < s then foldCarry k (s % 65536 + s / 65536) else s

/-- `csum(d)` (R270). -/
def csum (d : Bytes) : Half := ~~~ (BitVec.ofNat 16 (foldCarry (sumWords d) (sumWords d)))

/-- The flags and fragment offset word (R123, R271); `off` in 8-byte units. -/
def fragWord (df mf : Bool) (off : Nat) : Half :=
  (if df then 0x4000#16 else 0) ||| (if mf then 0x2000#16 else 0) ||| BitVec.ofNat 16 off

/-- The 60 header bytes of R271 with a given checksum field. -/
def headerWith (s : State) (proto : Byte) (tl : Nat) (df mf : Bool) (off : Nat) (sum : Half) : Bytes :=
  [0x4F, txTos s] ++ be16 (BitVec.ofNat 16 tl) ++ be16 (txId s) ++ be16 (fragWord df mf off) ++ [txTtl s, proto] ++ be16 sum ++
    be32 (localIp s) ++ be32 (destIp s) ++ zeros 40

/-- `IpHeader(proto, tl, df, mf, off)` (R271): the checksum is computed with its field zero. -/
def ipHeader (s : State) (proto : Byte) (tl : Nat) (df mf : Bool) (off : Nat) : Bytes :=
  headerWith s proto tl df mf off (csum (headerWith s proto tl df mf off 0))

/-! ## Fragmentation -/

/-- The number of datagrams of an `n`-byte payload (R280). -/
def sliceCount (n : Nat) : Nat := n / Config.maxSlice + 1

/-- The payload bytes of datagram `i` (R280). -/
def slicePayload (d : Bytes) (i : Nat) : Bytes :=
  slice d (i * Config.maxSlice) (i * Config.maxSlice + min Config.maxSlice (d.length - i * Config.maxSlice))

/-- Datagram `i` (R280). -/
def datagram (s : State) (proto : Byte) (d : Bytes) (i : Nat) : Bytes :=
  let count := sliceCount d.length
  let p := slicePayload d i
  (if count = 1 then ipHeader s proto (Config.ipHdrLen + p.length) true false 0
    else ipHeader s proto (Config.ipHdrLen + p.length) false (decide (i < count - 1)) (i * Config.maxSlice / 8)) ++ p

/-- The result of IPFRAG (R280). -/
def fragment (s : State) (proto : Byte) (d : Bytes) : Result :=
  if Config.reasmBufLen < d.length then { status := .ipTooLong }
  else { status := .ok, list := (List.range (sliceCount d.length)).map (datagram s proto d) }

/-! ## Reassembly -/

/-- The longest positive length of a record that starts at `c`, 0 if there is none (R293). -/
def longestAt (recs : List FragRec) (c : Nat) : Nat :=
  recs.foldl (fun m r => if r.off = c then max m r.len else m) 0

/-- `Scan(R, c)` (R293) with fuel: each turn uses a record that starts higher, so as many turns as records run it to its end. -/
def scanFuel (recs : List FragRec) : Nat → Nat → Nat
  | 0, c => c
  | k + 1, c => if longestAt recs c = 0 then c else scanFuel recs k (c + longestAt recs c)

/-- `Scan(R, c)` (R293). -/
def scan (recs : List FragRec) (c : Nat) : Nat := scanFuel recs recs.length c

/-- The total length field of an IP unit (R290). -/
def ipTotalLen (d : Bytes) : Nat := (rd16 d 2).toNat
/-- The datagram ID of an IP unit (R290). -/
def ipId (d : Bytes) : Half := rd16 d 4
/-- DF, bit 14 of the flags word (R123). -/
def ipDf (d : Bytes) : Bool := (rd16 d 6).getLsbD 14
/-- MF, bit 13 of the flags word (R123). -/
def ipMf (d : Bytes) : Bool := (rd16 d 6).getLsbD 13
/-- The byte offset: bits 12:0 of the flags word times 8 (R124). -/
def ipOffset (d : Bytes) : Nat := ((rd16 d 6).extractLsb' 0 13).toNat * 8

/-- Steps 2 to 5 of R290 on a slot: the bytes, the record, the cursor, the expected length (R292). -/
def slotInsert (sl : Slot) (o : Nat) (p : Bytes) (last : Bool) : Slot :=
  let recs := insertSorted recLt ⟨o, p.length⟩ sl.recs
  { buf := sl.buf.write o p
    cursor := scan recs sl.cursor
    recs := recs
    expected := if last then some (o + p.length) else sl.expected }

/-- Step 6 of R290: deliver and destroy a complete slot, keep any other. -/
def slotFinish (id : Half) (sl : Slot) (s : State) : Host.Outcome (Result × State) Fault Refusal :=
  if sl.expected = some sl.cursor then
    match sl.buf.readRange 0 sl.cursor with
    | some b => .next ({ status := .ok, value := 1, bytes := b }, s.slotDel id)
    | none => .fault .readUnwritten
  else .next ({ status := .ok, value := 0 }, s.slotPut id sl)

/-- The drop code of an IP unit, in the order of R290 and R342; `none` for a unit that is inserted. -/
def reasmDrop (d : Bytes) (s : State) : Option Status :=
  if d.length < Config.ipHdrLen then some .ipShort
  else if ipTotalLen d < Config.ipHdrLen ∨ d.length < ipTotalLen d then some .ipBadTotlen
  else if Config.reasmBufLen < ipOffset d + (ipTotalLen d - Config.ipHdrLen) then some .reasmOverflow
  else if (slotFind s (ipId d)).isNone ∧ atCapacity s.params.reasmSlots s.reasm.length then some .reasmNoSlot
  else none

/-- The body of IPREASM (R290), which IR calls too. -/
def reasmBody (d : Bytes) (s : State) : Host.Outcome (Result × State) Fault Refusal :=
  match reasmDrop d s with
  | some c => .next ({ status := c }, s)
  | none =>
    slotFinish (ipId d)
      (slotInsert ((slotFind s (ipId d)).getD Slot.fresh) (ipOffset d) (slice d Config.ipHdrLen (ipTotalLen d)) (ipDf d || !ipMf d)) s

/-! ## Commands -/

/-- IPCSUM (R270). -/
def execIpcsum (s : State) : Host.Outcome State Fault Refusal :=
  .next (s.respond { status := .ok, value := (csum s.ops.d).setWidth 32 })

/-- IPFRAG (R280). -/
def execIpfrag (s : State) : Host.Outcome State Fault Refusal :=
  .next (s.respond (fragment s s.ops.proto s.ops.d))

/-- IPREASM (R290). -/
def execIpreasm (s : State) : Host.Outcome State Fault Refusal :=
  match reasmBody s.ops.d s with
  | .next (r, t) => .next (t.respond r)
  | .fault f => .fault f
  | .refused r => .refused r

end Sys2Proof.Machine
end

