-- ==== Sys2Proof/Machine/System.lean ====
section
/-! DEFINITION. The system commands (60_exceptions.md section 3): CSRR, CSRW, START. -/

namespace Sys2Proof.Machine

/-- CSRR n (R355); N above 0x0A is illegal (R115.6). -/
def execCsrr (n : BitVec 8) (s : State) : Host.Outcome State Fault Refusal :=
  match csrOf n with
  | none => .next s.illegal
  | some id => .next (s.respond { status := .ok, value := csrRead id s })

/-- CSRW n (R356): refused for STATUS and in RUN phase (R33). -/
def execCsrw (n : BitVec 8) (s : State) : Host.Outcome State Fault Refusal :=
  match csrOf n with
  | none => .next s.illegal
  | some id =>
    if id = .status ∨ s.phase = .run then .next (s.raise .csrRo)
    else .next ((s.csrWrite id s.ops.val).respond { status := .ok })

/-- START (R357): clears nothing. -/
def execStart (s : State) : Host.Outcome State Fault Refusal :=
  .next (({ s with phase := .run } : State).respond { status := .ok })

end Sys2Proof.Machine
end

