-- ==== Sys2Proof/Machine/Dispatch.lean ====
section
/-! DEFINITION. One arm per command, each a direct call of its meaning. -/

namespace Sys2Proof.Machine

def exec (i : Instr) (s : State) : Host.Outcome State Fault Refusal :=
  match i with
  | .csrr n => Sys2Proof.Machine.execCsrr n s
  | .csrw n => Sys2Proof.Machine.execCsrw n s
  | .start => Sys2Proof.Machine.execStart s
  | .crc32 => Sys2Proof.Machine.execCrc32 s
  | .crcchk => Sys2Proof.Machine.execCrcchk s
  | .qadd q => Sys2Proof.Machine.execQadd q s
  | .qpop q => Sys2Proof.Machine.execQpop q s
  | .qempty q => Sys2Proof.Machine.execQempty q s
  | .fenc => Sys2Proof.Machine.execFenc s
  | .fdec => Sys2Proof.Machine.execFdec s
  | .arpfind => Sys2Proof.Machine.execArpfind s
  | .arpins t => Sys2Proof.Machine.execArpins t s
  | .arpupd t => Sys2Proof.Machine.execArpupd t s
  | .arprx => Sys2Proof.Machine.execArprx s
  | .arpreq => Sys2Proof.Machine.execArpreq s
  | .ipcsum => Sys2Proof.Machine.execIpcsum s
  | .ipfrag => Sys2Proof.Machine.execIpfrag s
  | .ipreasm => Sys2Proof.Machine.execIpreasm s

end Sys2Proof.Machine
end

