-- ==== Sys2Proof/Machine/Units.lean ====
section
/-! DEFINITION. The steps of the six units (45_units.md): each pops one element, runs the bodies of the commands its rule
names, and drops what they refuse. -/

namespace Sys2Proof.Machine

/-- A unit step that hands an element to a queue: QADD-body, and a drop where it is refused (R312 to R317). -/
def State.handOff (s : State) (u : Agent) (q : QueueId) (o : Operands) : State :=
  (qaddBody q o s).2.logUnlessOk u (qaddBody q o s).1

/-- Which queue LS serves, and the element (R311): the draw decides where both hold one. -/
def linkSendPop (s : State) : Option (LinkElem × State) :=
  match s.queues.q0, s.queues.q1 with
  | [], [] => none
  | e :: r, [] => some (e, { s with queues := { s.queues with q0 := r } })
  | [], e :: r => some (e, { s with queues := { s.queues with q1 := r } })
  | e :: r, f :: r' =>
    if s.draw.serveArp then some (f, { s with queues := { s.queues with q1 := r' } })
    else some (e, { s with queues := { s.queues with q0 := r } })

/-- LS (R311): encode and send; the frame is handed over on `ok`, LS halts on `error` (R350). -/
def stepLinkSend (s : State) : State :=
  match linkSendPop s with
  | none => s
  | some (e, t) =>
    if s.draw.txError then t.haltUnit .linkSend
    else { t with wire := t.wire ++ [encodeFrame t e.dst e.ethertype e.payload] }

/-- LR on one capture (R312). -/
def linkReceive (c : Capture) (s : State) : State :=
  match c with
  | .error => s.haltUnit .linkRecv
  | .frame d wl =>
    let r := decodeFrame s d wl
    if r.status ≠ .ok then s.logEvent .linkRecv r.status
    else s.handOff .linkRecv (if r.et = Config.ethertypeIpv4 then .q3 else .q4) { d := r.bytes }

/-- LR (R312): consume the oldest capture offered (R351). -/
def stepLinkRecv (s : State) : State :=
  match s.offered with
  | [] => s
  | c :: rest => linkReceive c { s with offered := rest }

/-- IS, take a new payload (R313). -/
def ipSendTake (s : State) : State :=
  match s.queues.q2 with
  | [] => s
  | e :: rest =>
    let t : State := { s with queues := { s.queues with q2 := rest } }
    let r := fragment t e.proto e.payload
    if r.status ≠ .ok then t.logEvent .ipSend r.status else { t with isWork := r.list }

/-- IS, resolve DEST_IP and hand off one datagram (R314); on a miss it keeps the datagram and polls again. -/
def ipSendResolve (dg : Bytes) (rest : List Bytes) (s : State) : State :=
  let r := arpfindBody (destIp s) s
  if r.1.status = .ok then
    { r.2.handOff .ipSend .q0 { mac := r.1.mac, et := Config.ethertypeIpv4, d := dg } with isWork := rest }
  else r.2

/-- IS (R313, R314). -/
def stepIpSend (s : State) : State :=
  match s.isWork with
  | [] => ipSendTake s
  | dg :: rest => ipSendResolve dg rest s

/-- IR after the reassembly of its element (R315). -/
def ipReceiveDeliver (r : Result) (s : State) : State :=
  if r.status ≠ .ok then s.logEvent .ipRecv r.status
  else if r.value = 1 then s.handOff .ipRecv .q6 { d := r.bytes }
  else s

/-- IR (R315). -/
def stepIpRecv (s : State) : Host.Outcome State Fault Refusal :=
  match s.queues.q3 with
  | [] => .next s
  | d :: rest =>
    match reasmBody d { s with queues := { s.queues with q3 := rest } } with
    | .next (r, t) => .next (ipReceiveDeliver r t)
    | .fault f => .fault f
    | .refused r => .refused r

/-- AS (R316). -/
def stepArpSend (s : State) : State :=
  match s.queues.q5 with
  | [] => s
  | ip :: rest =>
    let t : State := { s with queues := { s.queues with q5 := rest } }
    let r := arpRequest t ip
    t.handOff .arpSend .q1 { mac := r.mac, et := Config.ethertypeArp, d := r.bytes }

/-- AR (R317): a peer's reply goes to Q1. -/
def stepArpRecv (s : State) : State :=
  match s.queues.q4 with
  | [] => s
  | a :: rest =>
    let r := arprxBody a { s with queues := { s.queues with q4 := rest } }
    if r.1.status ≠ .ok then r.2.logEvent .arpRecv r.1.status
    else if r.1.bytes ≠ [] then r.2.handOff .arpRecv .q1 { mac := r.1.mac, et := Config.ethertypeArp, d := r.1.bytes }
    else r.2

/-- The step of one unit. -/
def unitStep (u : Agent) (s : State) : Host.Outcome State Fault Refusal :=
  match u with
  | .linkSend => .next (stepLinkSend s)
  | .linkRecv => .next (stepLinkRecv s)
  | .ipSend => .next (stepIpSend s)
  | .ipRecv => stepIpRecv s
  | .arpSend => .next (stepArpSend s)
  | .arpRecv => .next (stepArpRecv s)

/-- The unit has input: the "enabled when" of R311 to R317 but for PHASE and the halt bit. -/
def hasInput (u : Agent) (s : State) : Bool :=
  match u with
  | .linkSend => !s.queues.q0.isEmpty || !s.queues.q1.isEmpty
  | .linkRecv => !s.offered.isEmpty
  | .ipSend => !s.isWork.isEmpty || !s.queues.q2.isEmpty
  | .ipRecv => !s.queues.q3.isEmpty
  | .arpSend => !s.queues.q5.isEmpty
  | .arpRecv => !s.queues.q4.isEmpty

/-- The unit has an enabled step: RUN phase, not halted, with input (R310 to R317). -/
def unitEnabled (u : Agent) (s : State) : Bool := s.phase == .run && !s.halted.get u && hasInput u s

/-- The units. -/
def allAgents : List Agent := [.linkSend, .linkRecv, .ipSend, .ipRecv, .arpSend, .arpRecv]

/-- The units with an enabled step. -/
def enabledUnits (s : State) : List Agent := allAgents.filter (unitEnabled · s)

end Sys2Proof.Machine
end

