-- ==== Sys2Proof/Machine/Events.lean ====
section
/-! DEFINITION. The transitions of the block (R310): a command, a move of the host, a step of a unit. -/

namespace Sys2Proof.Machine

open Sys2Proof.Config (Draws)

/-- A command on the port (R110, R115): an illegal word ends with ILLEGAL_CMD, a legal one runs. -/
def runCommand (w : Word) (ops : Operands) (draw : Draws) (s : State) : Host.Outcome State Fault Refusal :=
  let t : State := { s with ops := ops, draw := draw }
  match decode w with
  | .error _ => .next t.illegal
  | .ok i => exec i t

/-- A turn of a unit: its step where one is enabled; otherwise it yields and retries, and nothing changes (R310, log 1). -/
def runTurn (u : Agent) (draw : Draws) (s : State) : Host.Outcome State Fault Refusal :=
  if unitEnabled u s then unitStep u { s with draw := draw } else .next s

/-- Reset (R370): the block's state to its reset values, everything in flight discarded. What the host has already received, its moves
to come and the instance's parameters are outside the block (R372, log 11). -/
def State.resetBlock (s : State) : State :=
  { State.resetWith s.params with results := s.results, wire := s.wire, agenda := s.agenda, draws := s.draws }

/-- One move of the environment. -/
def perform (e : Event) (s : State) : Host.Outcome State Fault Refusal :=
  match e with
  | .command w ops draw => runCommand w ops draw s
  | .offer c => .next { s with offered := s.offered ++ [c] }
  | .turn u draw => runTurn u draw s
  | .reset => .next s.resetBlock

/-- No move stands in the agenda: a free choice among the enabled units (R92, R310), with free draws (R7); with none enabled the block
waits (R361, log 2). -/
def autonomousStep (s : State) : Host.Outcome State Fault Refusal :=
  match enabledUnits s with
  | [] => .next s
  | u :: us =>
    unitStep ((u :: us).getD (Config.freeTurn s.draws % (us.length + 1)) u)
      { s with draw := Config.freeDraws s.draws, draws := s.draws + 1 }

/-- The next transition: the oldest move of the agenda, or a step the block takes by itself. -/
def nextTransition (s : State) : Host.Outcome State Fault Refusal :=
  match s.agenda with
  | e :: rest => perform e { s with agenda := rest }
  | [] => autonomousStep s

/-- The state with a command word next on the port, with the operand record and the draws that stand there (log 12). -/
def State.submit (s : State) (w : Word) : State := { s with agenda := .command w s.ops s.draw :: s.agenda }

end Sys2Proof.Machine
end

