-- ==== Sys2Proof/Machine/Step.lean ====
section
/-! DEFINITION. One step of the block. -/

namespace Sys2Proof.Machine

/-- One atomic transition (R13, R310). -/
def step (s : State) : Host.Outcome State Fault Refusal := nextTransition s

/-- The state whose very next step runs the instruction with bits `w` (log 12): a command word is always 32 bits (R117). -/
def State.withFetchWord (s : State) (_nbits w : Nat) : State := s.submit (BitVec.ofNat 32 w)

end Sys2Proof.Machine
end

