-- ==== Sys2Proof/Safety.lean ====
section
/-! DEFINITION. What the statements are made of: the invariants of the state (R43, R45, R47, R48, R50 to R52), chains of
fragment records (R52, R293), and agendas of commands. -/

namespace Sys2Proof.Machine

open Sys2Proof.Config (Draws Params)

/-! ## Parts of the invariant -/

/-- `n` entries fit a capacity, `none` being infinity. -/
def Fits (cap : Option Nat) (n : Nat) : Prop := ∀ c, cap = some c → n ≤ c

/-- A table rises by its key, so no key stands twice. -/
def SortedKeys {w : Nat} {β : Type} (l : List (BitVec w × β)) : Prop := l.Pairwise (fun x y => x.1.toNat < y.1.toNat)

/-- `c` is the end of a chain of records (0, L1), (L1, L2), ... of positive length (R52). -/
inductive Chain (recs : List FragRec) : Nat → Prop where
  | start : Chain recs 0
  | next {c L : Nat} (h : Chain recs c) (hr : (⟨c, L⟩ : FragRec) ∈ recs) (hL : 0 < L) : Chain recs (c + L)

/-- Every cell from `a` up to `b` is written. -/
def Written (m : Memory) (a b : Nat) : Prop := ∀ i, a ≤ i → i < b → (m.read i).isSome

/-- The invariant of a slot between two steps (R51, R52). -/
structure Slot.Inv (sl : Slot) : Prop where
  /-- The buffer is in canonical form inside its 65536 cells. -/
  buf : sl.buf.wf
  /-- `recs` is a set in canonical form. -/
  recsSorted : sl.recs.Pairwise (fun x y => recLt x y = true)
  /-- `o + L ≤ 65536` for every record (R51). -/
  recsInside : ∀ r ∈ sl.recs, r.off + r.len ≤ Config.reasmBufLen
  /-- A record's bytes have been written (R290 steps 2 and 3). -/
  recsWritten : ∀ r ∈ sl.recs, Written sl.buf r.off (r.off + r.len)
  /-- The cursor ends a chain of records from 0 (R52). -/
  cursorChain : Chain sl.recs sl.cursor
  /-- The cursor lies inside the buffer (R51). -/
  cursorInside : sl.cursor ≤ Config.reasmBufLen
  /-- Every cell below the cursor is written (R52). -/
  cursorWritten : Written sl.buf 0 sl.cursor
  /-- Scan has run: no record of positive length starts at the cursor (R293). -/
  cursorStopped : ∀ r ∈ sl.recs, r.off = sl.cursor → r.len = 0
  /-- `expected` lies inside the buffer (R51). -/
  expectedInside : ∀ e, sl.expected = some e → e ≤ Config.reasmBufLen
  /-- A complete slot does not stay (R50). -/
  incomplete : sl.expected ≠ some sl.cursor

/-- The payload lengths of the elements of a queue, an IpElem's being 0 (R49). -/
def Queues.payloadLens (qs : Queues) : QueueId → List Nat
  | .q0 => qs.q0.map (·.payload.length)
  | .q1 => qs.q1.map (·.payload.length)
  | .q2 => qs.q2.map (·.payload.length)
  | .q3 => qs.q3.map (·.length)
  | .q4 => qs.q4.map (·.length)
  | .q5 => qs.q5.map (fun _ => 0)
  | .q6 => qs.q6.map (·.length)

/-- The invariant of the block, which every step keeps. -/
structure State.Inv (s : State) : Prop where
  /-- Reserved CSR bits hold 0 (R33). -/
  reserved : ∀ n : CsrId, csrRaw n s &&& ~~~ n.wmask = 0
  /-- At most one cache entry per IP (R45). -/
  cacheSorted : SortedKeys s.cache
  /-- At most ARP_CAP entries (R45). -/
  cacheFits : Fits s.params.arpCap s.cache.length
  /-- Pending is a set in canonical form (R47). -/
  pendingSorted : s.pending.Pairwise (fun x y => x.toNat < y.toNat)
  /-- `Pending ∩ dom(Cache) = ∅` (R47). -/
  pendingAbsent : ∀ ip ∈ s.pending, cacheFind s ip = none
  /-- No queue is longer than its depth (R48). -/
  queuesFit : ∀ q, Fits (s.params.queueDepth.get q) (s.queues.len q)
  /-- Q4 holds 28-byte elements (R49). -/
  arpElems : ∀ a ∈ s.queues.q4, a.length = Config.arpLen
  /-- A length-checked queue holds payloads of 46 to 1500 bytes (R181). -/
  lengthsChecked : ∀ q, s.params.lenCheck.get q = true →
    ∀ n ∈ s.queues.payloadLens q, Config.payloadMin ≤ n ∧ n ≤ Config.payloadMax
  /-- At most one slot per datagram ID (R50). -/
  reasmSorted : SortedKeys s.reasm
  /-- At most REASM_SLOTS slots (R50). -/
  reasmFits : Fits s.params.reasmSlots s.reasm.length
  /-- Every slot keeps its invariant. -/
  slots : ∀ x ∈ s.reasm, x.2.Inv
  /-- Only LS and LR halt (R43). -/
  haltsLink : s.halted.ipSend = false ∧ s.halted.ipRecv = false ∧ s.halted.arpSend = false ∧ s.halted.arpRecv = false
  /-- In CONFIG phase no unit has stepped since reset (R44, R310). -/
  configQuiet : s.phase = .config → s.halted = Halts.none ∧ s.isWork = [] ∧ s.log = []
  /-- The datagrams IS holds are 60 to 1460 bytes long (R280). -/
  workLens : ∀ dg ∈ s.isWork, Config.ipHdrLen ≤ dg.length ∧ dg.length ≤ Config.ipHdrLen + Config.maxSlice

/-! ## Agendas and results -/

/-- The host submits the instruction `i` with operand record `o`. -/
def submitOf (i : Instr) (o : Operands) : Event := .command (encode i) o ⟨false, false, false⟩

/-- What QPOP reports of the element QADD built for `q` from `o` (R180, R183). -/
def elementResult (q : QueueId) (o : Operands) : Result :=
  match q with
  | .q0 | .q1 => { status := .ok, mac := o.mac, et := o.et, bytes := o.d }
  | .q2 => { status := .ok, proto := o.proto, bytes := o.d }
  | .q3 | .q4 | .q6 => { status := .ok, bytes := o.d }
  | .q5 => { status := .ok, ip := o.ip }

/-- The bit-serial CRC register after a byte: the byte is added to the low end, then eight turns of the shift register. -/
def bitSerialByte (c : Word) (b : Byte) : Word := crcBits 8 (c ^^^ b.setWidth 32)

/-- The input of unit `u` is empty, in the words of R311 to R317. -/
def NoInput (u : Agent) (s : State) : Prop :=
  match u with
  | .linkSend => s.queues.q0 = [] ∧ s.queues.q1 = []
  | .linkRecv => s.offered = []
  | .ipSend => s.isWork = [] ∧ s.queues.q2 = []
  | .ipRecv => s.queues.q3 = []
  | .arpSend => s.queues.q5 = []
  | .arpRecv => s.queues.q4 = []

/-- No unit has an enabled step, in the words of R319: the input of every unit is empty, or the unit is halted. -/
def NoUnitWork (s : State) : Prop := ∀ u : Agent, s.halted.get u = true ∨ NoInput u s

end Sys2Proof.Machine
end

