-- ==== Sys2Proof/Certificates/Slice0/Obligations.lean ====
section
/-! DEFINITION. The statements about the block, made from the numbered rules of spec/. The agenda that statements about a step
name, and the choice of a step where it is empty, are the model's way of holding the order of steps (logs 1, 2, 12). -/

open Sys2Proof Sys2Proof.Machine

/-! ## Encoding -/

/-- R111, R115, R116: the word of a well-formed command decodes to that command, for every value its field admits. -/
def Obligations.DecodeOfEncodeIsInstruction : Prop :=
  ∀ i : Instr, i.wellFormed = true → decode (encode i) = .ok i

/-- R115, R116: a legal word is the word of the command it decodes to, so a command has one word. -/
def Obligations.EncodeOfDecodeIsWord : Prop :=
  ∀ (w : Word) (i : Instr), decode w = .ok i → encode i = w ∧ i.wellFormed = true

/-- R115: which condition refuses a word, in the order of the rule; a word that meets none decodes. -/
def Obligations.DecodeFollowsIllegalOrder : Prop :=
  ∀ w : Word,
    (match decode w with | .error e => some e | .ok _ => none) =
      (let opc := w &&& 0xFF#32
       if opc ∉ [0x01#32, 0x02#32, 0x03#32, 0x08#32, 0x09#32, 0x10#32, 0x11#32, 0x12#32, 0x20#32, 0x21#32, 0x30#32, 0x31#32,
          0x32#32, 0x33#32, 0x34#32, 0x40#32, 0x41#32, 0x42#32] then some Illegal.unknownOpcode
       else if w &&& 0xFF00C000#32 ≠ 0 then some .reservedBits
       else if (opc ∉ [0x10#32, 0x11#32, 0x12#32] ∧ w &&& 0x00000F00#32 ≠ 0) ∨ (opc ∉ [0x31#32, 0x32#32] ∧ w &&& 0x00003000#32 ≠ 0) ∨
          (opc ∉ [0x01#32, 0x02#32] ∧ w &&& 0x00FF0000#32 ≠ 0) then some .unusedField
       else if opc ∈ [0x10#32, 0x11#32, 0x12#32] ∧ 6#32 < (w >>> 8) &&& 0xF#32 then some .queueRange
       else if opc ∈ [0x31#32, 0x32#32] ∧ (w >>> 12) &&& 0x3#32 = 3#32 then some .tagRange
       else if opc ∈ [0x01#32, 0x02#32] ∧ 0x0A#32 < (w >>> 16) &&& 0xFF#32 then some .csrRange
       else none)

/-- Words written out from R111 and R116, and the illegal words of R115's example list. A sanity statement. -/
def Obligations.SampleWordsDecode : Prop :=
  decode 0x000A0001#32 = .ok (.csrr 0x0A) ∧ decode 0x00020002#32 = .ok (.csrw 0x02) ∧ decode 0x00000003#32 = .ok .start ∧
    decode 0x00000008#32 = .ok .crc32 ∧ decode 0x00000310#32 = .ok (.qadd 3) ∧ decode 0x00000511#32 = .ok (.qpop 5) ∧
    decode 0x00000020#32 = .ok .fenc ∧ decode 0x00001031#32 = .ok (.arpins 1) ∧ decode 0x00002032#32 = .ok (.arpupd 2) ∧
    decode 0x00000042#32 = .ok .ipreasm ∧ decode 0x00000000#32 = .error .unknownOpcode ∧ decode 0x01000003#32 = .error .reservedBits ∧
    decode 0x00000108#32 = .error .unusedField ∧ decode 0x00000F12#32 = .error .queueRange ∧ decode 0x00003031#32 = .error .tagRange ∧
    decode 0x000B0001#32 = .error .csrRange

/-- R114: a Q field names a queue, a T field a tag, an N field a CSR, each by its number. -/
def Obligations.FieldNumbersSelect : Prop :=
  (∀ q : BitVec 4, queueOf q = [QueueId.q0, .q1, .q2, .q3, .q4, .q5, .q6][q.toNat]?) ∧
    (∀ t : BitVec 2, tagOf t = [Tag.static, .dynamic, .logged][t.toNat]?) ∧
    ∀ n : BitVec 8, csrOf n =
      [CsrId.lmacHi, .lmacLo, .lip, .gwip, .netmask, .bmacHi, .bmacLo, .dip, .txcfg, .mode, .status][n.toNat]?

/-- R110, R115: where a legal word is next on the command port, the step is the execution of the command it decodes to, with its
operand record and draws on the port. The second clause says it of `withFetchWord` (log 12). -/
def Obligations.StepRunsDecodedInstruction : Prop :=
  (∀ (s : State) (w : Word) (ops : Operands) (draw : Config.Draws) (rest : List Event) (i : Instr),
    s.agenda = .command w ops draw :: rest → decode w = .ok i →
      step s = exec i { s with agenda := rest, ops := ops, draw := draw }) ∧
  ∀ (s : State) (nbits w : Nat) (i : Instr), decodeTableWord nbits w = some i → step (s.withFetchWord nbits w) = exec i s

/-- R115: an illegal word ends with status 0xFF in its result record and changes nothing else; a command with a field out of range, which
no word decodes to, ends the same way in the model (log 9). -/
def Obligations.IllegalWordOnlyReports : Prop :=
  (∀ (s : State) (w : Word) (ops : Operands) (draw : Config.Draws) (rest : List Event) (e : Illegal),
    s.agenda = .command w ops draw :: rest → decode w = .error e →
      step s = .next { s with agenda := rest, draw := draw, ops := {}, results := s.results ++ [{ status := .illegalCmd }] }) ∧
  (∀ (i : Instr) (s : State), i.wellFormed = false → exec i s = .next (s.respond { status := .illegalCmd })) ∧
  Status.illegalCmd.code = 0xFF

/-! ## CSRs and START -/

/-- R355: CSRR returns the register, reserved bits as 0, in either phase, and changes nothing else. -/
def Obligations.CsrrReturnsMaskedRegister : Prop :=
  ∀ (s : State) (n : BitVec 8), n ≤ 0x0A#8 →
    exec (.csrr n) s = .next (s.respond
      { status := .ok
        value := [s.csrs.lmacHi &&& 0x0000FFFF#32, s.csrs.lmacLo, s.csrs.lip, s.csrs.gwip, s.csrs.netmask,
          s.csrs.bmacHi &&& 0x0000FFFF#32, s.csrs.bmacLo, s.csrs.dip, s.csrs.txcfg, s.csrs.mode &&& 0x00000001#32,
          statusWord s].getD n.toNat 0 })

/-- R43: the bits of STATUS; it is read-only in both phases; bits 3 to 6 read 0 in every state that meets the invariant. -/
def Obligations.StatusRegisterBits : Prop :=
  (∀ (s : State) (k : Nat), (statusWord s).getLsbD k =
    match k with
    | 0 => s.phase == .run
    | 1 => s.halted.linkSend
    | 2 => s.halted.linkRecv
    | 3 => s.halted.ipSend
    | 4 => s.halted.ipRecv
    | 5 => s.halted.arpSend
    | 6 => s.halted.arpRecv
    | 7 => !s.isWork.isEmpty
    | _ => false) ∧
  (∀ s : State, exec (.csrr 0x0A) s = .next (s.respond { status := .ok, value := statusWord s }) ∧
    exec (.csrw 0x0A) s = .next (s.respond { status := .csrRo })) ∧
  (∀ (s : State) (k : Nat), s.Inv → 3 ≤ k → k ≤ 6 → (statusWord s).getLsbD k = false) ∧
  ∀ p : Config.Params, statusWord (State.resetWith p) = 0

/-- R33, R356: in CONFIG phase CSRW stores the operand in the register, the bits outside its mask as 0, and changes nothing else. -/
def Obligations.CsrwWritesUnderMask : Prop :=
  ∀ s : State, s.phase = .config →
    exec (.csrw 0x00) s = .next (({ s with csrs := { s.csrs with lmacHi := s.ops.val &&& 0x0000FFFF#32 } } : State).respond { status := .ok }) ∧
    exec (.csrw 0x01) s = .next (({ s with csrs := { s.csrs with lmacLo := s.ops.val } } : State).respond { status := .ok }) ∧
    exec (.csrw 0x02) s = .next (({ s with csrs := { s.csrs with lip := s.ops.val } } : State).respond { status := .ok }) ∧
    exec (.csrw 0x03) s = .next (({ s with csrs := { s.csrs with gwip := s.ops.val } } : State).respond { status := .ok }) ∧
    exec (.csrw 0x04) s = .next (({ s with csrs := { s.csrs with netmask := s.ops.val } } : State).respond { status := .ok }) ∧
    exec (.csrw 0x05) s = .next (({ s with csrs := { s.csrs with bmacHi := s.ops.val &&& 0x0000FFFF#32 } } : State).respond { status := .ok }) ∧
    exec (.csrw 0x06) s = .next (({ s with csrs := { s.csrs with bmacLo := s.ops.val } } : State).respond { status := .ok }) ∧
    exec (.csrw 0x07) s = .next (({ s with csrs := { s.csrs with dip := s.ops.val } } : State).respond { status := .ok }) ∧
    exec (.csrw 0x08) s = .next (({ s with csrs := { s.csrs with txcfg := s.ops.val } } : State).respond { status := .ok }) ∧
    exec (.csrw 0x09) s = .next (({ s with csrs := { s.csrs with mode := s.ops.val &&& 0x00000001#32 } } : State).respond { status := .ok })

/-- R33, R355, R356: after a write in CONFIG phase CSRR reads the written value under the mask, and every other CSR reads as before. -/
def Obligations.CsrWriteReadBack : Prop :=
  ∀ (s : State) (n : BitVec 8), s.phase = .config → n ≤ 0x09#8 →
    ∃ t, exec (.csrw n) s = .next t ∧
      exec (.csrr n) t = .next (t.respond
        { status := .ok
          value := s.ops.val &&& (if n = 0x00#8 ∨ n = 0x05#8 then 0x0000FFFF#32 else if n = 0x09#8 then 0x00000001#32 else 0xFFFFFFFF#32) }) ∧
      ∀ (m : BitVec 8) (v : Word), m ≠ n → m ≤ 0x0A#8 →
        exec (.csrr m) s = .next (s.respond { status := .ok, value := v }) →
          exec (.csrr m) t = .next (t.respond { status := .ok, value := v })

/-- R33, R43, R356: CSRW to STATUS, and CSRW in RUN phase, ends with CSR_RO and changes nothing. -/
def Obligations.CsrwRefusedWhereReadOnly : Prop :=
  ∀ (s : State) (n : BitVec 8), n ≤ 0x0A#8 → (n = 0x0A#8 ∨ s.phase = .run) →
    exec (.csrw n) s = .next (s.respond { status := .csrRo })

/-- R357: START sets RUN in either phase and clears nothing. -/
def Obligations.StartEntersRun : Prop :=
  ∀ s : State, exec .start s = .next (({ s with phase := .run } : State).respond { status := .ok })

/-- R44: only START sets RUN, only reset sets CONFIG, and no other step of any agent changes PHASE. -/
def Obligations.OnlyStartAndResetChangePhase : Prop :=
  ∀ s t : State, step s = .next t →
    t.phase = s.phase ∨
      (t.phase = .run ∧ ∃ w ops draw rest, s.agenda = .command w ops draw :: rest ∧ decode w = .ok .start) ∨
      (t.phase = .config ∧ ∃ rest, s.agenda = .reset :: rest)

/-- R370: reset sets every piece of state to its table value and discards what is in flight; State.reset holds the same values. -/
def Obligations.ResetRestoresTable : Prop :=
  ∀ (s : State) (rest : List Event), s.agenda = .reset :: rest →
    ∃ t, step s = .next t ∧ ∀ u ∈ [t, State.reset],
      u.phase = .config ∧ u.csrs.lmacHi = 0x00000000 ∧ u.csrs.lmacLo = 0x00000000 ∧ u.csrs.lip = 0x00000000 ∧ u.csrs.gwip = 0x00000000 ∧
      u.csrs.netmask = 0x00000000 ∧ u.csrs.bmacHi = 0x0000FFFF ∧ u.csrs.bmacLo = 0xFFFFFFFF ∧ u.csrs.dip = 0x00000000 ∧
      u.csrs.txcfg = 0x00000000 ∧ u.csrs.mode = 0x00000000 ∧ statusWord u = 0x00000000 ∧ u.cache = [] ∧ u.pending = [] ∧
      u.queues.q0 = [] ∧ u.queues.q1 = [] ∧ u.queues.q2 = [] ∧ u.queues.q3 = [] ∧ u.queues.q4 = [] ∧ u.queues.q5 = [] ∧ u.queues.q6 = [] ∧
      u.reasm = [] ∧ (∀ a, u.halted.get a = false) ∧ u.isWork = [] ∧ u.log = [] ∧ u.offered = []

/-! ## CRC engine -/

/-- R160, R161, R162: CRC32 returns the table-driven CRC of its operand and changes nothing else. -/
def Obligations.Crc32FollowsTableLoop : Prop :=
  ∀ s : State, exec .crc32 s = .next (s.respond
    { status := .ok
      value :=
        (s.ops.d.foldl (fun c b =>
          ((fun x : Word => if x &&& 1#32 = 1#32 then 0xEDB88320#32 ^^^ (x >>> 1) else x >>> 1)^[8] ((c ^^^ b.setWidth 32) &&& 0xFF#32)) ^^^
            (c >>> 8)) 0xFFFFFFFF#32) ^^^ 0xFFFFFFFF#32 })

/-- R160, R161: the table-driven loop is the bit-serial shift register of the same polynomial. -/
def Obligations.CrcTableLoopEqualsBitSerial : Prop :=
  ∀ d : Bytes, crc32 d = d.foldl bitSerialByte 0xFFFFFFFF#32 ^^^ 0xFFFFFFFF#32

/-- R164: a change of one byte of the string, a flip of any single bit among them, changes the CRC. -/
def Obligations.CrcDetectsSingleByteChange : Prop :=
  ∀ (p q : Bytes) (x y : Byte), x ≠ y → crc32 (p ++ x :: q) ≠ crc32 (p ++ y :: q)

/-- R163: CRCCHK compares the CRC of the payload with the big-endian trailer and returns it either way; fewer than 4 bytes are FRAME_SHORT. -/
def Obligations.CrcchkComparesTrailer : Prop :=
  (∀ (s : State) (p : Bytes) (v : Word), s.ops.d = p ++ be32 v →
    exec .crcchk s = .next (s.respond { status := if crc32 p = v then .ok else .crcMismatch, value := crc32 p })) ∧
  ∀ s : State, s.ops.d.length < 4 → exec .crcchk s = .next (s.respond { status := .frameShort })

/-! ## Queues -/

/-- R180, R181, R182: QADD refuses a bad length, then a full queue, and otherwise appends the element of its queue at the tail; nothing else
changes. A queue is full where its length is not below QDEPTH (R181.3). -/
def Obligations.QaddFollowsAdmission : Prop :=
  (∀ (s : State) (f : BitVec 4) (q : QueueId) (plen : Nat) (badLen full : Prop), queueOf f = some q →
    plen = (if q = .q5 then 0 else s.ops.d.length) →
    (badLen ↔ (q = .q4 ∧ plen ≠ 28) ∨ (s.params.lenCheck.get q = true ∧ (plen < 46 ∨ 1500 < plen))) →
    (full ↔ ∃ c, s.params.queueDepth.get q = some c ∧ ¬ s.queues.len q < c) →
      (badLen → exec (.qadd f) s = .next (s.respond { status := .qRejectLen })) ∧
      (¬ badLen → full → exec (.qadd f) s = .next (s.respond { status := .qFull })) ∧
      (¬ badLen → ¬ full → exec (.qadd f) s = .next (({ s with queues := s.queues.push q s.ops } : State).respond { status := .ok }))) ∧
  ∀ (qs : Queues) (o : Operands),
    qs.push .q0 o = { qs with q0 := qs.q0 ++ [⟨o.mac, o.et, o.d⟩] } ∧ qs.push .q1 o = { qs with q1 := qs.q1 ++ [⟨o.mac, o.et, o.d⟩] } ∧
    qs.push .q2 o = { qs with q2 := qs.q2 ++ [⟨o.proto, o.d⟩] } ∧ qs.push .q3 o = { qs with q3 := qs.q3 ++ [o.d] } ∧
    qs.push .q4 o = { qs with q4 := qs.q4 ++ [o.d] } ∧ qs.push .q5 o = { qs with q5 := qs.q5 ++ [o.ip] } ∧
    qs.push .q6 o = { qs with q6 := qs.q6 ++ [o.d] }

/-- R186 (with R180 and R181.1 for Q4 and Q5): on a length-checked queue with room, payload lengths 45 and 1501 fail, 46 and 1500 succeed; Q4,
which takes 28 bytes only, and Q5, whose element has no payload, then admit nothing. -/
def Obligations.QaddLengthBoundary : Prop :=
  ∀ (s : State) (f : BitVec 4) (q : QueueId), queueOf f = some q → s.params.lenCheck.get q = true →
    (∀ c, s.params.queueDepth.get q = some c → s.queues.len q < c) →
      (q ≠ .q4 → q ≠ .q5 →
        (s.ops.d.length = 45 ∨ s.ops.d.length = 1501 → exec (.qadd f) s = .next (s.respond { status := .qRejectLen })) ∧
        (s.ops.d.length = 46 ∨ s.ops.d.length = 1500 →
          exec (.qadd f) s = .next (({ s with queues := s.queues.push q s.ops } : State).respond { status := .ok }))) ∧
      (q = .q4 ∨ q = .q5 → exec (.qadd f) s = .next (s.respond { status := .qRejectLen }))

/-- R91: elements added to an empty queue one by one come out by successive pops, each whole, once, in the order they went in. -/
def Obligations.QueueDeliversInOrder : Prop :=
  ∀ (s : State) (f : BitVec 4) (q : QueueId) (os : List Operands), queueOf f = some q → s.queues.len q = 0 →
    (∀ o ∈ os, lengthRefused q o s = false) → (∀ c, s.params.queueDepth.get q = some c → os.length ≤ c) →
      ∃ t, Host.Core.run Sys2Proof.core (os.length + os.length)
          { s with agenda := os.map (submitOf (.qadd f)) ++ os.map (fun _ => submitOf (.qpop f) {}) ++ s.agenda } = .next t ∧
        t.results = s.results ++ os.map (fun _ => { status := .ok }) ++ os.map (elementResult q) ∧ t.queues = s.queues ∧ t.agenda = s.agenda

/-- R183: QPOP removes the head and returns its fields, by the kind of the queue; on an empty queue it returns Q_EMPTY and changes nothing. -/
def Obligations.QpopTakesHead : Prop :=
  ∀ s : State,
    (∀ (f : BitVec 4) (q : QueueId), queueOf f = some q → s.queues.len q = 0 → exec (.qpop f) s = .next (s.respond { status := .qEmpty })) ∧
    (∀ e r, s.queues.q0 = e :: r → exec (.qpop 0) s = .next (({ s with queues := { s.queues with q0 := r } } : State).respond
      { status := .ok, mac := e.dst, et := e.ethertype, bytes := e.payload })) ∧
    (∀ e r, s.queues.q1 = e :: r → exec (.qpop 1) s = .next (({ s with queues := { s.queues with q1 := r } } : State).respond
      { status := .ok, mac := e.dst, et := e.ethertype, bytes := e.payload })) ∧
    (∀ e r, s.queues.q2 = e :: r → exec (.qpop 2) s = .next (({ s with queues := { s.queues with q2 := r } } : State).respond
      { status := .ok, proto := e.proto, bytes := e.payload })) ∧
    (∀ e r, s.queues.q3 = e :: r → exec (.qpop 3) s = .next (({ s with queues := { s.queues with q3 := r } } : State).respond
      { status := .ok, bytes := e })) ∧
    (∀ e r, s.queues.q4 = e :: r → exec (.qpop 4) s = .next (({ s with queues := { s.queues with q4 := r } } : State).respond
      { status := .ok, bytes := e })) ∧
    (∀ e r, s.queues.q5 = e :: r → exec (.qpop 5) s = .next (({ s with queues := { s.queues with q5 := r } } : State).respond
      { status := .ok, ip := e })) ∧
    (∀ e r, s.queues.q6 = e :: r → exec (.qpop 6) s = .next (({ s with queues := { s.queues with q6 := r } } : State).respond
      { status := .ok, bytes := e }))

/-- R184: QEMPTY returns 1 for an empty queue, 0 otherwise, and changes nothing. -/
def Obligations.QemptyReportsEmptiness : Prop :=
  ∀ (s : State) (f : BitVec 4) (q : QueueId), queueOf f = some q →
    exec (.qempty f) s = .next (s.respond { status := .ok, value := if s.queues.len q = 0 then 1 else 0 })

/-! ## Frames -/

/-- R119, R200, R201: the frame FENC returns, read field by field; its length is 14 + |d| + 4 for every payload. -/
def Obligations.FencLaysOutFrame : Prop :=
  ∀ s : State, ∃ f, exec .fenc s = .next (s.respond { status := .ok, bytes := f }) ∧ f.length = 14 + s.ops.d.length + 4 ∧
    rd48 f 0 = s.ops.mac ∧ rd48 f 6 = s.csrs.lmacHi.extractLsb' 0 16 ++ s.csrs.lmacLo ∧ rd16 f 12 = s.ops.et ∧
    slice f 14 (14 + s.ops.d.length) = s.ops.d ∧ rd32 f (14 + s.ops.d.length) = crc32 s.ops.d

/-- R203, R204, R205: FDEC's gates in their order, on the captured length; the declared length is compared for IPv4 only; nothing but the
result changes. -/
def Obligations.FdecGates : Prop :=
  ∀ (s : State) (d : Bytes) (n : Nat), s.ops.d = d → d.length = n →
    exec .fdec s = .next (s.respond
      (if n < 18 then { status := .frameShort }
       else if crc32 (slice d 14 (n - 4)) ≠ rd32 d (n - 4) then { status := .crcMismatch }
       else if rd48 d 0 ≠ s.csrs.lmacHi.extractLsb' 0 16 ++ s.csrs.lmacLo ∧ rd48 d 0 ≠ s.csrs.bmacHi.extractLsb' 0 16 ++ s.csrs.bmacLo then
         { status := .macMismatch }
       else if rd16 d 12 = 0x0800#16 then
         (if s.ops.wl.toNat ≠ n then { status := .frameLenMismatch }
          else { status := .ok, et := 0x0800#16, bytes := slice d 14 (n - 4) })
       else if rd16 d 12 = 0x0806#16 then
         (if n < 42 then { status := .frameShort } else { status := .ok, et := 0x0806#16, bytes := slice d 14 42 })
       else { status := .ethertypeUnknown }))

/-- R207: a frame FENC builds, decoded by a node whose LOCAL_MAC or BROADCAST_MAC is its destination. The frame's length fits `wl`. -/
def Obligations.FrameRoundTrip : Prop :=
  ∀ (a b : State) (f : Bytes), exec .fenc a = .next (a.respond { status := .ok, bytes := f }) →
    (a.ops.mac = localMac b ∨ a.ops.mac = broadcastMac b) → f.length < 2 ^ 32 → b.ops.d = f → b.ops.wl.toNat = f.length →
      (a.ops.et = 0x0800#16 → exec .fdec b = .next (b.respond { status := .ok, et := 0x0800, bytes := a.ops.d })) ∧
      (a.ops.et = 0x0806#16 → 24 ≤ a.ops.d.length →
        exec .fdec b = .next (b.respond { status := .ok, et := 0x0806, bytes := (a.ops.d ++ be32 (crc32 a.ops.d)).take 28 })) ∧
      (a.ops.et = 0x0806#16 → a.ops.d.length < 24 → exec .fdec b = .next (b.respond { status := .frameShort }))

/-- R165: a changed byte in the payload or the trailer of a built frame is CRC_MISMATCH at every decoder; one in the header never is. -/
def Obligations.FrameByteErrorCoverage : Prop :=
  ∀ (a b : State) (f : Bytes) (i : Nat) (y : Byte), exec .fenc a = .next (a.respond { status := .ok, bytes := f }) →
    i < f.length → byteAt f i ≠ y → b.ops.d = f.set i y →
      (14 ≤ i → exec .fdec b = .next (b.respond { status := .crcMismatch })) ∧
      (i < 14 → ∃ r, exec .fdec b = .next (b.respond r) ∧ r.status ≠ .crcMismatch)

/-! ## Address resolution -/

/-- R236, hit: ARPFIND returns the entry and changes nothing, so it never enqueues a request (R243). -/
def Obligations.ArpfindHit : Prop :=
  ∀ (s : State) (e : CacheEntry), cacheFind s s.ops.ip = some e →
    exec .arpfind s = .next (s.respond
      { status := .ok, mac := e.mac, value := match e.tag with | .static => 0 | .dynamic => 1 | .logged => 2 })

/-- R236, miss: a request is pushed on Q5 and the IP marked pending exactly where the IP was not pending or the draw says so, and Q5 admits
the element; in every case the status is ARP_MISS and nothing else changes. -/
def Obligations.ArpfindMiss : Prop :=
  ∀ (s : State) (enq : Prop), cacheFind s s.ops.ip = none →
    (enq ↔ (s.ops.ip ∉ s.pending ∨ s.draw.arpRedundant = true) ∧ s.params.lenCheck.q5 = false ∧
      ∀ c, s.params.queueDepth.q5 = some c → s.queues.q5.length < c) →
      (enq → ∃ pend, (∀ x, x ∈ pend ↔ x = s.ops.ip ∨ x ∈ s.pending) ∧
        exec .arpfind s = .next (({ s with queues := { s.queues with q5 := s.queues.q5 ++ [s.ops.ip] }, pending := pend } : State).respond
          { status := .arpMiss })) ∧
      (¬ enq → exec .arpfind s = .next (s.respond { status := .arpMiss }))

/-- R237: ARPINS refuses a present IP, then a full table, and otherwise adds one entry and clears the IP from Pending; every other IP is looked
up as before and nothing else changes. -/
def Obligations.ArpinsInserts : Prop :=
  ∀ (s : State) (f : BitVec 2) (tag : Tag), tagOf f = some tag →
    (cacheFind s s.ops.ip ≠ none → exec (.arpins f) s = .next (s.respond { status := .arpExists })) ∧
    (cacheFind s s.ops.ip = none → s.params.arpCap = some s.cache.length → exec (.arpins f) s = .next (s.respond { status := .arpFull })) ∧
    (cacheFind s s.ops.ip = none → (∀ c, s.params.arpCap = some c → s.cache.length < c) →
      ∃ t : State, exec (.arpins f) s = .next (t.respond { status := .ok }) ∧ t = { s with cache := t.cache, pending := t.pending } ∧
        (∀ ip, cacheFind t ip = if ip = s.ops.ip then some ⟨s.ops.mac, tag⟩ else cacheFind s ip) ∧
        (∀ ip, ip ∈ t.pending ↔ ip ∈ s.pending ∧ ip ≠ s.ops.ip) ∧ t.cache.length = s.cache.length + 1)

/-- R238: ARPUPD refuses an absent IP, and otherwise overwrites MAC and tag; every other IP is looked up as before and nothing else changes. -/
def Obligations.ArpupdUpdates : Prop :=
  ∀ (s : State) (f : BitVec 2) (tag : Tag), tagOf f = some tag →
    (cacheFind s s.ops.ip = none → exec (.arpupd f) s = .next (s.respond { status := .arpAbsent })) ∧
    (cacheFind s s.ops.ip ≠ none →
      ∃ t : State, exec (.arpupd f) s = .next (t.respond { status := .ok }) ∧ t = { s with cache := t.cache } ∧
        ∀ ip, cacheFind t ip = if ip = s.ops.ip then some ⟨s.ops.mac, tag⟩ else cacheFind s ip)

/-- R239, originating side: a reply is learned as a dynamic entry for its sender IP, over any entry, unless the IP is absent and the table
full; the IP leaves Pending; nothing else changes. -/
def Obligations.ArprxLearnsReply : Prop :=
  ∀ s : State, s.csrs.mode.getLsbD 0 = false → 28 ≤ s.ops.d.length → rd16 s.ops.d 6 = 2#16 →
    (cacheFind s (rd32 s.ops.d 14) = none → s.params.arpCap = some s.cache.length →
      exec .arprx s = .next (s.respond { status := .arpFull })) ∧
    (cacheFind s (rd32 s.ops.d 14) ≠ none ∨ (∀ c, s.params.arpCap = some c → s.cache.length < c) →
      ∃ t : State, exec .arprx s = .next (t.respond { status := .ok }) ∧ t = { s with cache := t.cache, pending := t.pending } ∧
        (∀ ip, cacheFind t ip = if ip = rd32 s.ops.d 14 then some ⟨rd48 s.ops.d 8, .dynamic⟩ else cacheFind s ip) ∧
        ∀ ip, ip ∈ t.pending ↔ ip ∈ s.pending ∧ ip ≠ rd32 s.ops.d 14)

/-- R239, peer side, and R242: a request for LOCAL_IP is answered with a 28-byte reply to its sender, and no state changes. -/
def Obligations.ArprxAnswersRequest : Prop :=
  ∀ s : State, s.csrs.mode.getLsbD 0 = true → 28 ≤ s.ops.d.length → rd16 s.ops.d 6 = 1#16 → rd32 s.ops.d 24 = s.csrs.lip →
    ∃ r, exec .arprx s = .next (s.respond { status := .ok, mac := rd48 s.ops.d 8, et := 0x0806, bytes := r }) ∧ r.length = 28 ∧
      rd16 r 0 = 0x0001#16 ∧ rd16 r 2 = 0x0800#16 ∧ byteAt r 4 = 6 ∧ byteAt r 5 = 4 ∧ rd16 r 6 = 2#16 ∧
      rd48 r 8 = s.csrs.lmacHi.extractLsb' 0 16 ++ s.csrs.lmacLo ∧ rd32 r 14 = s.csrs.lip ∧
      rd48 r 18 = rd48 s.ops.d 8 ∧ rd32 r 24 = rd32 s.ops.d 14

/-- R239, R240: what ARPRX refuses, in the order of R342, whatever the header fields it does not read; no state changes. -/
def Obligations.ArprxRefusals : Prop :=
  ∀ s : State,
    (s.ops.d.length < 28 → exec .arprx s = .next (s.respond { status := .frameShort })) ∧
    (28 ≤ s.ops.d.length → rd16 s.ops.d 6 ≠ (if s.csrs.mode.getLsbD 0 then 1#16 else 2#16) →
      exec .arprx s = .next (s.respond { status := .arpWrongOpcode })) ∧
    (28 ≤ s.ops.d.length → s.csrs.mode.getLsbD 0 = true → rd16 s.ops.d 6 = 1#16 → rd32 s.ops.d 24 ≠ s.csrs.lip →
      exec .arprx s = .next (s.respond { status := .arpNotForUs }))

/-- R231, R241: ARPREQ asks, by broadcast, for the IP on the subnet and for GATEWAY_IP off it; no state changes. -/
def Obligations.ArpreqBroadcastsRequest : Prop :=
  ∀ (s : State) (tgt : IpAddr),
    tgt = (if s.ops.ip &&& s.csrs.netmask = s.csrs.lip &&& s.csrs.netmask then s.ops.ip else s.csrs.gwip) →
    ∃ r, exec .arpreq s = .next (s.respond
        { status := .ok, ip := tgt, mac := s.csrs.bmacHi.extractLsb' 0 16 ++ s.csrs.bmacLo, et := 0x0806, bytes := r }) ∧
      r.length = 28 ∧ rd16 r 0 = 0x0001#16 ∧ rd16 r 2 = 0x0800#16 ∧ byteAt r 4 = 6 ∧ byteAt r 5 = 4 ∧ rd16 r 6 = 1#16 ∧
      rd48 r 8 = s.csrs.lmacHi.extractLsb' 0 16 ++ s.csrs.lmacLo ∧ rd32 r 14 = s.csrs.lip ∧ rd48 r 18 = 0 ∧ rd32 r 24 = tgt

/-- R46: no step but reset deletes a cache entry, and only ARPINS, ARPUPD, ARPRX and a step of the unit AR, in its turn or taken with an
empty agenda (log 2), write the table. -/
def Obligations.CacheWritersOnly : Prop :=
  ∀ s t : State, step s = .next t → (∀ rest, s.agenda ≠ .reset :: rest) →
    (∀ ip, cacheFind s ip ≠ none → cacheFind t ip ≠ none) ∧
    (t.cache ≠ s.cache →
      (∃ w ops draw rest, s.agenda = .command w ops draw :: rest ∧
        ((∃ f, decode w = .ok (.arpins f)) ∨ (∃ f, decode w = .ok (.arpupd f)) ∨ decode w = .ok .arprx)) ∨
      (∃ draw rest, s.agenda = .turn .arpRecv draw :: rest) ∨
      (s.agenda = [] ∧ unitEnabled .arpRecv s = true ∧
        step s = unitStep .arpRecv { s with draw := Config.freeDraws s.draws, draws := s.draws + 1 }))

/-! ## IP engine -/

/-- R270: IPCSUM returns the complement of a 16-bit value that is the word sum up to end-around carries: congruent to it modulo 65535, and
zero only for a zero sum. An odd last byte is padded with a zero byte. No state changes. -/
def Obligations.IpcsumFoldedSum : Prop :=
  ∀ (s : State) (sum : Nat),
    sum = ((List.range ((s.ops.d.length + 1) / 2)).map (fun k => (rd16 (s.ops.d ++ [0]) (2 * k)).toNat)).sum →
    ∃ f, f ≤ 0xFFFF ∧ f % 65535 = sum % 65535 ∧ (f = 0 ↔ sum = 0) ∧
      exec .ipcsum s = .next (s.respond { status := .ok, value := BitVec.ofNat 32 (0xFFFF - f) })

/-- R271, R272: the checksum field is the checksum of the header with that field zero, and the checksum of every header built, and of the
header of every datagram IPFRAG lists, is 0x0000. -/
def Obligations.HeadersVerify : Prop :=
  (∀ (s : State) (proto : Byte) (tl : Nat) (df mf : Bool) (off : Nat),
    csum (ipHeader s proto tl df mf off) = 0 ∧
    rd16 (ipHeader s proto tl df mf off) 10 =
      csum (slice (ipHeader s proto tl df mf off) 0 10 ++ [0, 0] ++ slice (ipHeader s proto tl df mf off) 12 60)) ∧
  ∀ (s : State) (l : List Bytes), exec .ipfrag s = .next (s.respond { status := .ok, list := l }) →
    ∀ dg ∈ l, csum (slice dg 0 60) = 0

/-- R271, R280: the datagrams of IPFRAG, read field by field; over 65536 bytes it is IP_TOO_LONG; no state changes. -/
def Obligations.IpfragDatagrams : Prop :=
  ∀ (s : State) (n : Nat), s.ops.d.length = n →
    (65536 < n → exec .ipfrag s = .next (s.respond { status := .ipTooLong })) ∧
    (n ≤ 65536 → ∃ l, exec .ipfrag s = .next (s.respond { status := .ok, list := l }) ∧ l.length = n / 1400 + 1 ∧
      ∀ (i len : Nat) (dg : Bytes), l[i]? = some dg → len = min 1400 (n - i * 1400) →
        dg.length = 60 + len ∧ byteAt dg 0 = 0x4F ∧ byteAt dg 1 = s.csrs.txcfg.extractLsb' 24 8 ∧
        (rd16 dg 2).toNat = 60 + len ∧ rd16 dg 4 = s.csrs.txcfg.extractLsb' 0 16 ∧
        (rd16 dg 6).toNat = (if l.length = 1 then 0x4000 else (if i + 1 < l.length then 0x2000 else 0) + i * 175) ∧
        byteAt dg 8 = s.csrs.txcfg.extractLsb' 16 8 ∧ byteAt dg 9 = s.ops.proto ∧
        rd32 dg 12 = s.csrs.lip ∧ rd32 dg 16 = s.csrs.dip ∧ slice dg 20 60 = zeros 40 ∧
        slice dg 60 (60 + len) = slice s.ops.d (i * 1400) (i * 1400 + len))

/-- R280: the payloads of the datagrams, joined in order, are the operand. -/
def Obligations.IpfragPayloadsJoin : Prop :=
  ∀ s : State, s.ops.d.length ≤ 65536 →
    ∃ l, exec .ipfrag s = .next (s.respond { status := .ok, list := l }) ∧ (l.map (fun dg => dg.drop 60)).flatten = s.ops.d

/-- R281: a 3000-byte payload gives three datagrams of 1400, 1400 and 200 bytes, offset fields 0, 175 and 350, MF 1, 1, 0, DF 0. -/
def Obligations.IpfragScenario3000 : Prop :=
  ∀ s : State, s.ops.d.length = 3000 →
    ∃ a b c, exec .ipfrag s = .next (s.respond { status := .ok, list := [a, b, c] }) ∧
      a.length - 60 = 1400 ∧ b.length - 60 = 1400 ∧ c.length - 60 = 200 ∧
      (rd16 a 6).extractLsb' 0 13 = 0#13 ∧ (rd16 b 6).extractLsb' 0 13 = 175#13 ∧ (rd16 c 6).extractLsb' 0 13 = 350#13 ∧
      [ipMf a, ipMf b, ipMf c] = [true, true, false] ∧ [ipDf a, ipDf b, ipDf c] = [false, false, false]

/-- R290, R342: the drops of IPREASM, in their order; each changes no state. -/
def Obligations.IpreasmDropsUnchanged : Prop :=
  ∀ (s : State) (n tl o : Nat), s.ops.d.length = n → tl = (rd16 s.ops.d 2).toNat → o = (rd16 s.ops.d 6).toNat % 8192 * 8 →
    (n < 60 → exec .ipreasm s = .next (s.respond { status := .ipShort })) ∧
    (60 ≤ n → (tl < 60 ∨ n < tl) → exec .ipreasm s = .next (s.respond { status := .ipBadTotlen })) ∧
    (60 ≤ tl → tl ≤ n → 65536 < o + (tl - 60) → exec .ipreasm s = .next (s.respond { status := .reasmOverflow })) ∧
    (60 ≤ tl → tl ≤ n → o + (tl - 60) ≤ 65536 → slotFind s (rd16 s.ops.d 4) = none → s.params.reasmSlots = some s.reasm.length →
      exec .ipreasm s = .next (s.respond { status := .reasmNoSlot }))

/-- R290 to R292: what an accepted unit does to its slot: the bytes of its payload and no other cell of the buffer, its record, the cursor by
Scan, the expected length; an incomplete slot stays, every other slot is found as before, and nothing else changes. -/
def Obligations.IpreasmStoresFragment : Prop :=
  ∀ (s : State) (tl o len : Nat) (old sl : Slot) (last : Bool), tl = (rd16 s.ops.d 2).toNat → o = (rd16 s.ops.d 6).toNat % 8192 * 8 →
    len = tl - 60 → 60 ≤ tl → tl ≤ s.ops.d.length → o + len ≤ 65536 →
    last = ((rd16 s.ops.d 6).getLsbD 14 || !(rd16 s.ops.d 6).getLsbD 13) →
    (slotFind s (rd16 s.ops.d 4) = some old ∨
      (slotFind s (rd16 s.ops.d 4) = none ∧ old = Slot.fresh ∧ ∀ c, s.params.reasmSlots = some c → s.reasm.length < c)) →
    sl = slotInsert old o (slice s.ops.d 60 tl) last →
      (∀ a, sl.buf.read a = if o ≤ a ∧ a < o + len then some (byteAt s.ops.d (60 + (a - o))) else old.buf.read a) ∧
      (∀ x, x ∈ sl.recs ↔ x = ⟨o, len⟩ ∨ x ∈ old.recs) ∧ sl.cursor = scan sl.recs old.cursor ∧
      sl.expected = (if last then some (o + len) else old.expected) ∧
      (sl.expected ≠ some sl.cursor →
        ∃ t : State, exec .ipreasm s = .next (t.respond { status := .ok, value := 0 }) ∧ t = { s with reasm := t.reasm } ∧
          ∀ id, slotFind t id = if id = rd16 s.ops.d 4 then some sl else slotFind s id)

/-- R290 step 6, R52, R82: where the accepted unit makes the cursor reach the expected length, the bytes below it are delivered with value 1,
the slot is destroyed, every other slot is found as before, and nothing else changes. -/
def Obligations.IpreasmDeliversComplete : Prop :=
  ∀ (s : State) (tl o : Nat) (old sl : Slot) (last : Bool), s.Inv → tl = (rd16 s.ops.d 2).toNat → o = (rd16 s.ops.d 6).toNat % 8192 * 8 →
    60 ≤ tl → tl ≤ s.ops.d.length → o + (tl - 60) ≤ 65536 →
    last = ((rd16 s.ops.d 6).getLsbD 14 || !(rd16 s.ops.d 6).getLsbD 13) →
    (slotFind s (rd16 s.ops.d 4) = some old ∨
      (slotFind s (rd16 s.ops.d 4) = none ∧ old = Slot.fresh ∧ ∀ c, s.params.reasmSlots = some c → s.reasm.length < c)) →
    sl = slotInsert old o (slice s.ops.d 60 tl) last → sl.expected = some sl.cursor →
      ∃ (t : State) (b : Bytes), exec .ipreasm s = .next (t.respond { status := .ok, value := 1, bytes := b }) ∧
        b.length = sl.cursor ∧ (∀ i, i < sl.cursor → b[i]? = sl.buf.read i) ∧ t = { s with reasm := t.reasm } ∧
        ∀ id, slotFind t id = if id = rd16 s.ops.d 4 then none else slotFind s id

/-- R89, R296: a fragment delivered again, with the bytes its slot holds and no new expected length, is answered OK with value 0 and changes
nothing: not the buffer, not the records, not the cursor. -/
def Obligations.IpreasmIdempotent : Prop :=
  ∀ (s : State) (tl o len : Nat) (sl : Slot), s.Inv → tl = (rd16 s.ops.d 2).toNat → o = (rd16 s.ops.d 6).toNat % 8192 * 8 →
    len = tl - 60 → 60 ≤ tl → tl ≤ s.ops.d.length → slotFind s (rd16 s.ops.d 4) = some sl → ⟨o, len⟩ ∈ sl.recs →
    (∀ i, i < len → sl.buf.read (o + i) = some (byteAt s.ops.d (60 + i))) →
    ((rd16 s.ops.d 6).getLsbD 14 = true ∨ (rd16 s.ops.d 6).getLsbD 13 = false → sl.expected = some (o + len)) →
      exec .ipreasm s = .next (s.respond { status := .ok, value := 0 })

/-- R295: the datagrams of a payload, delivered in any order, each once, to a block with room for their ID and no slot for it, complete exactly
once, at the last delivery, with the payload; the reassembly map is left as it was. -/
def Obligations.ReassemblyAnyOrder : Prop :=
  ∀ (a b : State) (l ds : List Bytes), exec .ipfrag a = .next (a.respond { status := .ok, list := l }) → ds.Perm l →
    slotFind b (a.csrs.txcfg.extractLsb' 0 16) = none → (∀ c, b.params.reasmSlots = some c → b.reasm.length < c) →
      ∃ t, Host.Core.run Sys2Proof.core ds.length
          { b with agenda := ds.map (fun d => submitOf .ipreasm { d := d }) ++ b.agenda } = .next t ∧
        t.results = b.results ++ List.replicate (ds.length - 1) { status := .ok, value := 0 } ++
          [{ status := .ok, value := 1, bytes := a.ops.d }] ∧
        t.reasm = b.reasm ∧ t.agenda = b.agenda

/-- R293, R389: Scan stays where no record of positive length starts, follows the longest one that does, and never lowers the cursor. -/
def Obligations.ScanFollowsLongestRecord : Prop :=
  ∀ (recs : List FragRec) (c : Nat),
    ((∀ r ∈ recs, r.off = c → r.len = 0) → scan recs c = c) ∧
    (∀ m, 0 < m → ⟨c, m⟩ ∈ recs → (∀ r ∈ recs, r.off = c → r.len ≤ m) → scan recs c = scan recs (c + m)) ∧
    c ≤ scan recs c

/-! ## Units -/

/-- R311, R350: a step of LS pops Q0 or Q1, by the draw where both hold an element, and hands the encoded frame to the transport; on a
transport error the element is consumed, LS halts and logs the fault. -/
def Obligations.LinkSendStep : Prop :=
  ∀ (s : State) (draw : Config.Draws) (rest : List Event) (e : LinkElem) (r : List LinkElem) (qs : Queues),
    s.agenda = .turn .linkSend draw :: rest → s.phase = .run → s.halted.linkSend = false →
    ((s.queues.q0 = e :: r ∧ qs = { s.queues with q0 := r } ∧ (s.queues.q1 = [] ∨ draw.serveArp = false)) ∨
      (s.queues.q1 = e :: r ∧ qs = { s.queues with q1 := r } ∧ (s.queues.q0 = [] ∨ draw.serveArp = true))) →
      step s = .next
        (if draw.txError then
          { s with agenda := rest, draw := draw, queues := qs, halted := { s.halted with linkSend := true },
                   log := s.log ++ [⟨.linkSend, .transportFault⟩] }
        else
          { s with agenda := rest, draw := draw, queues := qs, wire := s.wire ++ [encodeFrame s e.dst e.ethertype e.payload] })

/-- R312, R351: an offer joins the captures offered as the newest (log 6) and changes nothing else; a step of LR consumes the oldest: an error halts it; a frame FDEC drops is logged; an IPv4 payload goes to Q3 and an ARP
frame to Q4, an element refused being dropped and logged. -/
def Obligations.LinkRecvStep : Prop :=
  (∀ (s : State) (c : Capture) (rest : List Event), s.agenda = .offer c :: rest →
    step s = .next { s with agenda := rest, offered := s.offered ++ [c] }) ∧
  ∀ (s t : State) (draw : Config.Draws) (rest : List Event) (c : Capture) (more : List Capture),
    s.agenda = .turn .linkRecv draw :: rest → s.phase = .run → s.halted.linkRecv = false → s.offered = c :: more →
    t = { s with agenda := rest, draw := draw, offered := more } →
      (c = .error → step s = .next
        { t with halted := { s.halted with linkRecv := true }, log := s.log ++ [⟨.linkRecv, .transportFault⟩] }) ∧
      ∀ (d : Bytes) (wl : BitVec 32) (r : Result), c = .frame d wl → exec .fdec { s with ops := { d := d, wl := wl } } = .next (s.respond r) →
        (r.status ≠ .ok → step s = .next { t with log := s.log ++ [⟨.linkRecv, r.status⟩] }) ∧
        (r.status = .ok → r.et = 0x0800#16 → step s = .next (t.handOff .linkRecv .q3 { d := r.bytes })) ∧
        (r.status = .ok → r.et = 0x0806#16 → step s = .next (t.handOff .linkRecv .q4 { d := r.bytes }))

/-- R313, R314: with no datagram in hand a step of IS takes a Q2 element and fragments it; with one, it resolves DEST_IP: on a hit the
datagram goes to Q0 with that MAC, on a miss it stays, and the lookup's side effects happen. -/
def Obligations.IpSendStep : Prop :=
  ∀ (s t : State) (draw : Config.Draws) (rest : List Event),
    s.agenda = .turn .ipSend draw :: rest → s.phase = .run → s.halted.ipSend = false → t = { s with agenda := rest, draw := draw } →
      (∀ e r, s.isWork = [] → s.queues.q2 = e :: r →
        step s = .next
          (if 65536 < e.payload.length then { t with queues := { s.queues with q2 := r }, log := s.log ++ [⟨.ipSend, .ipTooLong⟩] }
           else { t with queues := { s.queues with q2 := r }, isWork := (fragment s e.proto e.payload).list })) ∧
      (∀ dg more e, s.isWork = dg :: more → cacheFind s s.csrs.dip = some e →
        step s = .next { t.handOff .ipSend .q0 { mac := e.mac, et := 0x0800, d := dg } with isWork := more }) ∧
      (∀ dg more, s.isWork = dg :: more → cacheFind s s.csrs.dip = none →
        ∃ u, step s = .next u ∧ u.isWork = s.isWork ∧
          exec .arpfind { t with ops := { ip := s.csrs.dip } } = .next (u.respond { status := .arpMiss }))

/-- R315: a step of IR reassembles the oldest Q3 element: a drop is logged, a delivery goes to Q6, an unfinished datagram waits. -/
def Obligations.IpRecvStep : Prop :=
  ∀ (s t : State) (draw : Config.Draws) (rest : List Event) (d : Bytes) (r : List Bytes) (u : State) (res : Result),
    s.agenda = .turn .ipRecv draw :: rest → s.phase = .run → s.halted.ipRecv = false → s.queues.q3 = d :: r →
    t = { s with agenda := rest, draw := draw, queues := { s.queues with q3 := r } } → reasmBody d t = .next (res, u) →
      exec .ipreasm { t with ops := { d := d } } = .next (u.respond res) ∧
      step s = .next
        (if res.status ≠ .ok then { u with log := u.log ++ [⟨.ipRecv, res.status⟩] }
         else if res.value = 1 then u.handOff .ipRecv .q6 { d := res.bytes } else u)

/-- R316, R317: a step of AS turns the oldest Q5 element into a request on Q1; a step of AR processes the oldest Q4 element, logs a refusal, and
puts a peer's reply on Q1. -/
def Obligations.ArpUnitSteps : Prop :=
  (∀ (s t : State) (draw : Config.Draws) (rest : List Event) (ip : IpAddr) (r : List IpAddr) (req : Result),
    s.agenda = .turn .arpSend draw :: rest → s.phase = .run → s.halted.arpSend = false → s.queues.q5 = ip :: r →
    t = { s with agenda := rest, draw := draw, queues := { s.queues with q5 := r } } →
    exec .arpreq { t with ops := { ip := ip } } = .next (t.respond req) →
      step s = .next (t.handOff .arpSend .q1 { mac := req.mac, et := 0x0806, d := req.bytes })) ∧
  ∀ (s t u : State) (draw : Config.Draws) (rest : List Event) (a : Bytes) (r : List Bytes) (res : Result),
    s.agenda = .turn .arpRecv draw :: rest → s.phase = .run → s.halted.arpRecv = false → s.queues.q4 = a :: r →
    t = { s with agenda := rest, draw := draw, queues := { s.queues with q4 := r } } → arprxBody a t = (res, u) →
      exec .arprx { t with ops := { d := a } } = .next ({ u with ops := { d := a } }.respond res) ∧
      step s = .next
        (if res.status ≠ .ok then { u with log := u.log ++ [⟨.arpRecv, res.status⟩] }
         else if res.bytes ≠ [] then u.handOff .arpRecv .q1 { mac := res.mac, et := 0x0806, d := res.bytes } else u)

/-- R341 (d), R343, R345: what a unit does with an element it hands to a queue: it is appended where admitted; otherwise it is dropped with one
log event, and nothing else changes. -/
def Obligations.HandOffPushesOrDrops : Prop :=
  ∀ (s : State) (u : Agent) (q : QueueId) (o : Operands) (plen : Nat), plen = (if q = .q5 then 0 else o.d.length) →
    (((q = .q4 ∧ plen ≠ 28) ∨ (s.params.lenCheck.get q = true ∧ (plen < 46 ∨ 1500 < plen))) →
      s.handOff u q o = { s with log := s.log ++ [⟨u, .qRejectLen⟩] }) ∧
    (¬ ((q = .q4 ∧ plen ≠ 28) ∨ (s.params.lenCheck.get q = true ∧ (plen < 46 ∨ 1500 < plen))) →
      ((∃ c, s.params.queueDepth.get q = some c ∧ ¬ s.queues.len q < c) → s.handOff u q o = { s with log := s.log ++ [⟨u, .qFull⟩] }) ∧
      ((∀ c, s.params.queueDepth.get q = some c → s.queues.len q < c) → s.handOff u q o = { s with queues := s.queues.push q o }))

/-- R310, R319, R361 (the agenda is the model's, logs 1 and 2): a turn of a unit with no enabled step (CONFIG phase, halted, or its own
input empty, whatever work another unit has) changes nothing; with no move in the agenda a block with no enabled unit waits, and any other takes the step of one of its enabled units. -/
def Obligations.OnlyEnabledUnitsStep : Prop :=
  (∀ (s : State) (u : Agent) (draw : Config.Draws) (rest : List Event), s.agenda = .turn u draw :: rest →
    (s.phase = .config ∨ s.halted.get u = true ∨ NoInput u s) → step s = .next { s with agenda := rest }) ∧
  (∀ s : State, s.agenda = [] → (s.phase = .config ∨ NoUnitWork s) → step s = .next s) ∧
  ∀ s : State, s.agenda = [] → s.phase = .run → ¬ NoUnitWork s →
    ∃ u, unitEnabled u s = true ∧ s.halted.get u = false ∧
      step s = unitStep u { s with draw := Config.freeDraws s.draws, draws := s.draws + 1 }

/-- R347: a halt lasts until reset, whatever steps are taken, START among them, and a halted unit's turn does nothing. -/
def Obligations.HaltsAreSticky : Prop :=
  ∀ (s t : State) (u : Agent), step s = .next t → s.halted.get u = true → (∀ rest, s.agenda ≠ .reset :: rest) →
    t.halted.get u = true ∧ ∀ draw rest, s.agenda = .turn u draw :: rest → t = { s with agenda := rest }

/-- R345: no step but reset takes an event from the log, a step appends at most one, and a command appends none. -/
def Obligations.LogAppendOnly : Prop :=
  ∀ s t : State, step s = .next t → (∀ rest, s.agenda ≠ .reset :: rest) →
    ∃ l, t.log = s.log ++ l ∧ l.length ≤ 1 ∧ ∀ w ops draw rest, s.agenda = .command w ops draw :: rest → l = []

/-- R110, R340: every command returns exactly one result record, and one that ends in an error status writes no state, ARPFIND's miss apart. -/
def Obligations.ErrorStatusWritesNoState : Prop :=
  ∀ (i : Instr) (s t : State), exec i s = .next t →
    ∃ r, t.results = s.results ++ [r] ∧ (r.status ≠ .ok → i ≠ .arpfind → t = { s with results := s.results ++ [r], ops := {} })

/-! ## The invariant -/

/-- The invariant holds after reset of every instance. -/
def Obligations.InvariantAtReset : Prop :=
  (∀ p : Config.Params, (State.resetWith p).Inv) ∧ State.reset.Inv

/-- R33, R43, R45, R47, R48, R50 to R52: from every state that meets the invariant, whatever move or unit is next, the step answers a next state,
never a fault, and that state meets the invariant. -/
def Obligations.InvariantKeptByEveryStep : Prop :=
  ∀ s : State, s.Inv → ∃ t, step s = .next t ∧ t.Inv
end

