-- ==== Sys2Proof/Laws/Crc.lean ====
section
/-! SUPPORT. The CRC loop as the fold of R161, and the shift register of R160 as a linear one-to-one map. -/

namespace Sys2Proof.Machine

@[simp] theorem forced_eq {α : Type} (c : Word) (k : Word → α) : forced c k = k c := by
  unfold forced
  split
  · rename_i h
    exact congrArg k (BitVec.eq_of_toNat_eq (by simp [h]))
  · rename_i n h
    exact congrArg k (BitVec.eq_of_toNat_eq (by rw [BitVec.toNat_ofNat, ← Nat.succ_eq_add_one, ← h, Nat.mod_eq_of_lt c.isLt]))

/-- The loop of R161 is a fold over the bytes. -/
theorem crcLoop_eq_foldl (d : Bytes) (c : Word) : crcLoop d c = d.foldl crcByte c := by
  induction d generalizing c with
  | nil => rfl
  | cons b d ih => simp [crcLoop, ih]

theorem crcLoop_append (d e : Bytes) (c : Word) : crcLoop (d ++ e) c = crcLoop e (crcLoop d c) := by
  simp [crcLoop_eq_foldl]

/-- One turn of the shift register is linear. -/
theorem crcBit_xor (a b : Word) : crcBit (a ^^^ b) = crcBit a ^^^ crcBit b := by
  apply BitVec.eq_of_getLsbD_eq
  intro i hi
  simp only [crcBit, BitVec.getLsbD_xor]
  by_cases ha : a.getLsbD 0 <;> by_cases hb : b.getLsbD 0 <;> simp [ha, hb] <;> grind

theorem crcBits_xor (k : Nat) (a b : Word) : crcBits k (a ^^^ b) = crcBits k a ^^^ crcBits k b := by
  induction k generalizing a b with
  | zero => rfl
  | succ k ih => simp [crcBits, crcBit_xor, ih]

/-- One turn of the shift register loses nothing: the polynomial's top bit records the bit shifted out. -/
theorem crcBit_injective {a b : Word} (h : crcBit a = crcBit b) : a = b := by
  have top : ∀ c : Word, (crcBit c).getLsbD 31 = c.getLsbD 0 := by
    intro c
    simp only [crcBit]
    cases hc : c.getLsbD 0 <;>
      simp only [if_true, Bool.false_eq_true, if_false, BitVec.getLsbD_xor, BitVec.getLsbD_ushiftRight, Config.crcPoly] <;>
      simp
  have h0 : a.getLsbD 0 = b.getLsbD 0 := by rw [← top a, ← top b, h]
  have rest : ∀ i, a.getLsbD (i + 1) = b.getLsbD (i + 1) := by
    intro i
    have := congrArg (fun c => c.getLsbD i) h
    simp only [crcBit, ← h0] at this
    by_cases hc : a.getLsbD 0 <;> simp only [hc, if_true, Bool.false_eq_true, if_false, BitVec.getLsbD_xor, BitVec.getLsbD_ushiftRight] at this
    · simpa [Nat.add_comm 1 i] using this
    · simpa [Nat.add_comm 1 i] using this
  apply BitVec.eq_of_getLsbD_eq
  intro i _
  cases i with
  | zero => exact h0
  | succ i => exact rest i

theorem crcBits_injective (k : Nat) {a b : Word} (h : crcBits k a = crcBits k b) : a = b := by
  induction k generalizing a b with
  | zero => exact h
  | succ k ih => exact crcBit_injective (ih h)

end Sys2Proof.Machine
end

