-- ==== Sys2Proof/Laws/Decode.lean ====
section
/-! SUPPORT. The fields of a word laid out by `wordOf` (R111), and a word from its fields. -/

namespace Sys2Proof

variable (opc : BitVec 8) (q : BitVec 4) (t : BitVec 2) (n : BitVec 8)

@[simp] theorem opcField_wordOf : opcField (wordOf opc q t n) = opc := by
  apply BitVec.eq_of_getLsbD_eq
  intro i hi
  simp only [opcField, wordOf, BitVec.getLsbD_append, BitVec.getLsbD_extractLsb']
  grind

@[simp] theorem queueField_wordOf : queueField (wordOf opc q t n) = q := by
  apply BitVec.eq_of_getLsbD_eq
  intro i hi
  simp only [queueField, wordOf, BitVec.getLsbD_append, BitVec.getLsbD_extractLsb']
  grind

@[simp] theorem tagField_wordOf : tagField (wordOf opc q t n) = t := by
  apply BitVec.eq_of_getLsbD_eq
  intro i hi
  simp only [tagField, wordOf, BitVec.getLsbD_append, BitVec.getLsbD_extractLsb']
  grind

@[simp] theorem csrField_wordOf : csrField (wordOf opc q t n) = n := by
  apply BitVec.eq_of_getLsbD_eq
  intro i hi
  simp only [csrField, wordOf, BitVec.getLsbD_append, BitVec.getLsbD_extractLsb']
  grind

@[simp] theorem reservedLow_wordOf : reservedLow (wordOf opc q t n) = 0 := by
  apply BitVec.eq_of_getLsbD_eq
  intro i hi
  simp only [reservedLow, wordOf, BitVec.getLsbD_append, BitVec.getLsbD_extractLsb']
  grind

@[simp] theorem reservedHigh_wordOf : reservedHigh (wordOf opc q t n) = 0 := by
  apply BitVec.eq_of_getLsbD_eq
  intro i hi
  simp only [reservedHigh, wordOf, BitVec.getLsbD_append, BitVec.getLsbD_extractLsb']
  grind

/-- A word with zero reserved bits is the word of its fields. -/
theorem wordOf_fields (w : Word) (hl : reservedLow w = 0) (hh : reservedHigh w = 0) :
    wordOf (opcField w) (queueField w) (tagField w) (csrField w) = w := by
  apply BitVec.eq_of_getLsbD_eq
  intro i hi
  have el : ∀ j, (reservedLow w).getLsbD j = false := fun j => by simp [hl]
  have eh : ∀ j, (reservedHigh w).getLsbD j = false := fun j => by simp [hh]
  simp only [reservedLow, reservedHigh, BitVec.getLsbD_extractLsb'] at el eh
  have el := el (i - 14)
  have eh := eh (i - 24)
  simp only [opcField, queueField, tagField, csrField, wordOf, BitVec.getLsbD_append, BitVec.getLsbD_extractLsb']
  grind

end Sys2Proof
end

