-- ==== Sys2Proof/Laws/Ip.lean ====
section
/-! SUPPORT. The end-around carry loop (R270) and the cursor scan (R293): what each answers, and that its fuel is enough. -/

namespace Sys2Proof.Machine

/-! ## Checksum -/

/-- With fuel for its sum the loop runs to its end. -/
theorem foldCarry_le (k s : Nat) (h : s ≤ k) : foldCarry k s ≤ 0xFFFF := by
  induction k generalizing s with
  | zero => simp [foldCarry]; omega
  | succ k ih =>
    simp only [foldCarry]
    split
    · exact ih _ (by omega)
    · omega

/-- A turn of the loop keeps the sum modulo 65535. -/
theorem foldCarry_mod (k s : Nat) : foldCarry k s % 65535 = s % 65535 := by
  induction k generalizing s with
  | zero => rfl
  | succ k ih =>
    simp only [foldCarry]
    split
    · rw [ih]; omega
    · rfl

/-- A positive sum folds to a positive one. -/
theorem foldCarry_pos (k s : Nat) (h : 0 < s) : 0 < foldCarry k s := by
  induction k generalizing s with
  | zero => exact h
  | succ k ih =>
    simp only [foldCarry]
    split
    · exact ih _ (by omega)
    · exact h

/-- The word sum of joined strings, the first of even length. -/
theorem sumWords_append (d e : Bytes) (h : d.length % 2 = 0) : sumWords (d ++ e) = sumWords d + sumWords e := by
  fun_induction sumWords d with
  | case1 => simp
  | case2 => simp at h
  | case3 a b d ih =>
    have := ih (by simp at h; omega)
    simp only [List.cons_append, sumWords, this]
    omega

theorem sumWords_zeros (n : Nat) : sumWords (zeros n) = 0 := by
  induction n using Nat.strongRecOn with
  | ind n ih =>
    match n with
    | 0 => rfl
    | 1 => rfl
    | n + 2 =>
      have := ih n (by omega)
      simp only [zeros] at this ⊢
      simp [List.replicate_succ, sumWords]
      exact this

/-! ## Scan -/

theorem longestAt_foldl_ge (recs : List FragRec) (c m : Nat) :
    m ≤ recs.foldl (fun m r => if r.off = c then max m r.len else m) m := by
  induction recs generalizing m with
  | nil => simp
  | cons r recs ih =>
    simp only [List.foldl_cons]
    split
    · exact (Nat.le_max_left _ _).trans (ih _)
    · exact ih _

theorem longestAt_foldl_spec (recs : List FragRec) (c m : Nat) :
    (∀ r ∈ recs, r.off = c → r.len ≤ recs.foldl (fun m r => if r.off = c then max m r.len else m) m) ∧
      (recs.foldl (fun m r => if r.off = c then max m r.len else m) m = m ∨
        (⟨c, recs.foldl (fun m r => if r.off = c then max m r.len else m) m⟩ : FragRec) ∈ recs) := by
  induction recs generalizing m with
  | nil => simp
  | cons r recs ih =>
    simp only [List.foldl_cons]
    obtain ⟨h1, h2⟩ := ih (if r.off = c then max m r.len else m)
    constructor
    · intro x hx hc
      rcases List.mem_cons.1 hx with rfl | hx
      · rw [if_pos hc]
        exact (Nat.le_max_right _ _).trans (longestAt_foldl_ge _ _ _)
      · exact h1 x hx hc
    · rcases h2 with h2 | h2
      · rw [h2]
        split
        · rename_i hr
          rcases Nat.le_total r.len m with h | h
          · left; omega
          · right
            rw [Nat.max_eq_right h, ← hr]
            simp
        · simp
      · right
        exact List.mem_cons_of_mem _ h2

/-- No record that starts at `c` is longer. -/
theorem longestAt_ge (recs : List FragRec) (c : Nat) (r : FragRec) (h : r ∈ recs) (hc : r.off = c) :
    r.len ≤ longestAt recs c := (longestAt_foldl_spec recs c 0).1 r h hc

/-- A positive longest length is that of a record. -/
theorem longestAt_mem (recs : List FragRec) (c : Nat) (h : longestAt recs c ≠ 0) : (⟨c, longestAt recs c⟩ : FragRec) ∈ recs :=
  (longestAt_foldl_spec recs c 0).2.resolve_left h

/-- The records that start at or past `c`. -/
def recsFrom (recs : List FragRec) (c : Nat) : List FragRec := recs.filter (fun r => decide (c ≤ r.off))

theorem recsFrom_shrinks (recs : List FragRec) (c : Nat) (h : longestAt recs c ≠ 0) :
    (recsFrom recs (c + longestAt recs c)).length < (recsFrom recs c).length := by
  have hmem : (⟨c, longestAt recs c⟩ : FragRec) ∈ recsFrom recs c := List.mem_filter.2 ⟨longestAt_mem recs c h, by simp⟩
  have e : recsFrom recs (c + longestAt recs c) = (recsFrom recs c).filter (fun r => decide (c + longestAt recs c ≤ r.off)) := by
    simp only [recsFrom, List.filter_filter]
    refine List.filter_congr fun r _ => ?_
    by_cases h1 : c + longestAt recs c ≤ r.off
    · have : c ≤ r.off := by omega
      simp [h1, this]
    · simp [h1]
  rw [e]
  exact List.length_filter_lt_length_iff_exists.2 ⟨_, hmem, by simp; omega⟩

/-- Any fuel that covers the records from `c` up gives the same scan. -/
theorem scanFuel_enough (recs : List FragRec) (k k' c : Nat) (h : (recsFrom recs c).length ≤ k)
    (h' : (recsFrom recs c).length ≤ k') : scanFuel recs k c = scanFuel recs k' c := by
  induction k generalizing k' c with
  | zero =>
    have hz : longestAt recs c = 0 := by
      by_contra hne
      have := recsFrom_shrinks recs c hne
      omega
    cases k' <;> simp [scanFuel, hz]
  | succ k ih =>
    by_cases hz : longestAt recs c = 0
    · cases k' <;> simp [scanFuel, hz]
    · have := recsFrom_shrinks recs c hz
      cases k' with
      | zero => omega
      | succ k' =>
        simp only [scanFuel, if_neg hz]
        exact ih k' _ (by omega) (by omega)

theorem recsFrom_length_le (recs : List FragRec) (c : Nat) : (recsFrom recs c).length ≤ recs.length := List.length_filter_le _ _

/-- Scan never lowers the cursor (R293). -/
theorem scan_ge (recs : List FragRec) (c : Nat) : c ≤ scan recs c := by
  have : ∀ k c, c ≤ scanFuel recs k c := by
    intro k
    induction k with
    | zero => simp [scanFuel]
    | succ k ih =>
      intro c
      simp only [scanFuel]
      split
      · exact Nat.le_refl _
      · exact (Nat.le_add_right _ _).trans (ih _)
  exact this _ _

/-- Scan stops where no record of positive length starts (R293). -/
theorem scan_stopped (recs : List FragRec) (c : Nat) : longestAt recs (scan recs c) = 0 := by
  have : ∀ k c, (recsFrom recs c).length ≤ k → longestAt recs (scanFuel recs k c) = 0 := by
    intro k
    induction k with
    | zero =>
      intro c h
      by_contra hne
      have := recsFrom_shrinks recs c hne
      omega
    | succ k ih =>
      intro c h
      simp only [scanFuel]
      split
      · assumption
      · rename_i hne
        have := recsFrom_shrinks recs c hne
        exact ih _ (by omega)
  exact this _ _ (recsFrom_length_le recs c)

/-- Scan extends the chain of records that ends at the cursor (R52). -/
theorem scan_chain (recs : List FragRec) (c : Nat) (h : Chain recs c) : Chain recs (scan recs c) := by
  have : ∀ k c, Chain recs c → Chain recs (scanFuel recs k c) := by
    intro k
    induction k with
    | zero => intro c h; exact h
    | succ k ih =>
      intro c h
      simp only [scanFuel]
      split
      · exact h
      · rename_i hne
        exact ih _ (.next h (longestAt_mem recs c hne) (by omega))
  exact this _ _ h

end Sys2Proof.Machine
end

