-- ==== Sys2Proof/Laws/Wire.lean ====
section
/-! SUPPORT. Reading back what the big-endian writers lay down (R11), and slices of joined strings (R10). -/

namespace Sys2Proof.Machine

@[simp] theorem be16_length (v : Half) : (be16 v).length = 2 := rfl
@[simp] theorem be32_length (v : Word) : (be32 v).length = 4 := rfl
@[simp] theorem be48_length (m : Mac) : (be48 m).length = 6 := rfl
@[simp] theorem zeros_length (n : Nat) : (zeros n).length = n := List.length_replicate

/-- A byte at or past the end of the first part is a byte of the second. -/
theorem byteAt_append_right (p q : Bytes) (i : Nat) : byteAt (p ++ q) (p.length + i) = byteAt q i := by
  simp [byteAt, List.getD_eq_getElem?_getD, List.getElem?_append_right]

/-- A byte before the end of the first part is a byte of it. -/
theorem byteAt_append_left (p q : Bytes) (i : Nat) (h : i < p.length) : byteAt (p ++ q) i = byteAt p i := by
  simp [byteAt, List.getD_eq_getElem?_getD, List.getElem?_append_left h]

theorem rd16_append_right (p q : Bytes) (i : Nat) : rd16 (p ++ q) (p.length + i) = rd16 q i := by
  simp only [rd16, byteAt_append_right, Nat.add_assoc]

theorem rd32_append_right (p q : Bytes) (i : Nat) : rd32 (p ++ q) (p.length + i) = rd32 q i := by
  simp only [rd32, Nat.add_assoc, rd16_append_right]

theorem rd48_append_right (p q : Bytes) (i : Nat) : rd48 (p ++ q) (p.length + i) = rd48 q i := by
  simp only [rd48, Nat.add_assoc, rd16_append_right, rd32_append_right]

theorem rd16_be16_head (v : Half) (r : Bytes) : rd16 (be16 v ++ r) 0 = v := by
  simp only [rd16, be16, byteAt, List.cons_append, List.nil_append, List.getD_cons_zero, List.getD_cons_succ]
  apply BitVec.eq_of_getLsbD_eq
  intro i hi
  simp only [BitVec.getLsbD_append, BitVec.getLsbD_extractLsb']
  grind

theorem rd32_be32_head (v : Word) (r : Bytes) : rd32 (be32 v ++ r) 0 = v := by
  simp only [rd32, rd16, be32, byteAt, List.cons_append, List.nil_append, List.getD_cons_zero, List.getD_cons_succ]
  apply BitVec.eq_of_getLsbD_eq
  intro i hi
  simp only [BitVec.getLsbD_append, BitVec.getLsbD_extractLsb']
  grind

theorem rd48_be48_head (m : Mac) (r : Bytes) : rd48 (be48 m ++ r) 0 = m := by
  simp only [rd48, rd32, rd16, be48, byteAt, List.cons_append, List.nil_append, List.getD_cons_zero, List.getD_cons_succ]
  apply BitVec.eq_of_getLsbD_eq
  intro i hi
  simp only [BitVec.getLsbD_append, BitVec.getLsbD_extractLsb']
  grind

/-- `rd16` reads back what `BE16` wrote, wherever it stands. -/
theorem rd16_be16 (p r : Bytes) (v : Half) : rd16 (p ++ (be16 v ++ r)) p.length = v := by
  simpa [rd16_be16_head] using rd16_append_right p (be16 v ++ r) 0

/-- `rd32` reads back what `BE32` wrote, wherever it stands. -/
theorem rd32_be32 (p r : Bytes) (v : Word) : rd32 (p ++ (be32 v ++ r)) p.length = v := by
  simpa [rd32_be32_head] using rd32_append_right p (be32 v ++ r) 0

/-- `rd48` reads back what `BE48` wrote, wherever it stands. -/
theorem rd48_be48 (p r : Bytes) (m : Mac) : rd48 (p ++ (be48 m ++ r)) p.length = m := by
  simpa [rd48_be48_head] using rd48_append_right p (be48 m ++ r) 0

/-- The slice that starts where the second of three parts starts and ends where it ends is that part. -/
theorem slice_middle (p q r : Bytes) : slice (p ++ (q ++ r)) p.length (p.length + q.length) = q := by
  simp [slice]

theorem slice_length (d : Bytes) (a b : Nat) : (slice d a b).length = min (b - a) (d.length - a) := by
  simp [slice]

end Sys2Proof.Machine
end

