-- ==== Sys2Proof/Laws/Layout.lean ====
section
/-! SUPPORT. The wire formats read back: the frame of FENC (R119), the ARP frame (R120), and reads inside a slice. -/

namespace Sys2Proof.Machine

/-! ## The Ethernet frame -/

theorem encodeFrame_length (s : State) (m : Mac) (e : Half) (d : Bytes) : (encodeFrame s m e d).length = 14 + d.length + 4 := by
  simp [encodeFrame]; omega

theorem encodeFrame_dst (s : State) (m : Mac) (e : Half) (d : Bytes) : rd48 (encodeFrame s m e d) 0 = m := by
  simpa [encodeFrame] using rd48_be48_head m (be48 (localMac s) ++ be16 e ++ d ++ be32 (crc32 d))

theorem encodeFrame_src (s : State) (m : Mac) (e : Half) (d : Bytes) : rd48 (encodeFrame s m e d) 6 = localMac s := by
  simpa [encodeFrame] using rd48_be48 (be48 m) (be16 e ++ d ++ be32 (crc32 d)) (localMac s)

theorem encodeFrame_ethertype (s : State) (m : Mac) (e : Half) (d : Bytes) : rd16 (encodeFrame s m e d) 12 = e := by
  simpa [encodeFrame] using rd16_be16 (be48 m ++ be48 (localMac s)) (d ++ be32 (crc32 d)) e

theorem encodeFrame_payload (s : State) (m : Mac) (e : Half) (d : Bytes) :
    slice (encodeFrame s m e d) 14 (14 + d.length) = d := by
  simpa [encodeFrame] using slice_middle (be48 m ++ be48 (localMac s) ++ be16 e) d (be32 (crc32 d))

theorem encodeFrame_trailer (s : State) (m : Mac) (e : Half) (d : Bytes) :
    rd32 (encodeFrame s m e d) (14 + d.length) = crc32 d := by
  have h := rd32_be32 (be48 m ++ be48 (localMac s) ++ be16 e ++ d) [] (crc32 d)
  simp only [List.length_append, be48_length, be16_length, List.append_nil] at h
  rw [show 14 + d.length = 6 + 6 + 2 + d.length by omega]
  simpa [encodeFrame] using h

/-! ## The ARP frame -/

theorem arpFrame_length (op : Half) (smac : Mac) (sip : IpAddr) (tmac : Mac) (tip : IpAddr) :
    (arpFrame op smac sip tmac tip).length = 28 := rfl

theorem arpOp_arpFrame (op : Half) (smac : Mac) (sip : IpAddr) (tmac : Mac) (tip : IpAddr) :
    arpOp (arpFrame op smac sip tmac tip) = op := by
  have h := rd16_be16 (be16 0x0001#16 ++ be16 0x0800#16 ++ [6, 4]) (be48 smac ++ be32 sip ++ be48 tmac ++ be32 tip) op
  simp only [List.append_assoc] at h
  simp only [arpOp, arpFrame, List.append_assoc]
  exact h

theorem arpSmac_arpFrame (op : Half) (smac : Mac) (sip : IpAddr) (tmac : Mac) (tip : IpAddr) :
    arpSmac (arpFrame op smac sip tmac tip) = smac := by
  have h := rd48_be48 (be16 0x0001#16 ++ be16 0x0800#16 ++ [6, 4] ++ be16 op) (be32 sip ++ be48 tmac ++ be32 tip) smac
  simp only [List.append_assoc] at h
  simp only [arpSmac, arpFrame, List.append_assoc]
  exact h

theorem arpSip_arpFrame (op : Half) (smac : Mac) (sip : IpAddr) (tmac : Mac) (tip : IpAddr) :
    arpSip (arpFrame op smac sip tmac tip) = sip := by
  have h := rd32_be32 (be16 0x0001#16 ++ be16 0x0800#16 ++ [6, 4] ++ be16 op ++ be48 smac) (be48 tmac ++ be32 tip) sip
  simp only [List.append_assoc] at h
  simp only [arpSip, arpFrame, List.append_assoc]
  exact h

theorem arpTmac_arpFrame (op : Half) (smac : Mac) (sip : IpAddr) (tmac : Mac) (tip : IpAddr) :
    arpTmac (arpFrame op smac sip tmac tip) = tmac := by
  have h := rd48_be48 (be16 0x0001#16 ++ be16 0x0800#16 ++ [6, 4] ++ be16 op ++ be48 smac ++ be32 sip) (be32 tip) tmac
  simp only [List.append_assoc] at h
  simp only [arpTmac, arpFrame, List.append_assoc]
  exact h

theorem arpTip_arpFrame (op : Half) (smac : Mac) (sip : IpAddr) (tmac : Mac) (tip : IpAddr) :
    arpTip (arpFrame op smac sip tmac tip) = tip := by
  have h := rd32_be32 (be16 0x0001#16 ++ be16 0x0800#16 ++ [6, 4] ++ be16 op ++ be48 smac ++ be32 sip ++ be48 tmac) [] tip
  simp only [List.append_assoc] at h
  simp only [arpTip, arpFrame, List.append_assoc]
  exact h

/-! ## Reads inside a leading slice -/

theorem byteAt_slice (d : Bytes) (n i : Nat) (h : i < n) : byteAt (slice d 0 n) i = byteAt d i := by
  simp [byteAt, slice, List.getD_eq_getElem?_getD, h]

theorem rd16_slice (d : Bytes) (n i : Nat) (h : i + 1 < n) : rd16 (slice d 0 n) i = rd16 d i := by
  simp [rd16, byteAt_slice, h, show i < n by omega]

theorem rd32_slice (d : Bytes) (n i : Nat) (h : i + 3 < n) : rd32 (slice d 0 n) i = rd32 d i := by
  simp [rd32, rd16_slice, show i + 1 < n by omega, show i + 2 + 1 < n by omega]

theorem rd48_slice (d : Bytes) (n i : Nat) (h : i + 5 < n) : rd48 (slice d 0 n) i = rd48 d i := by
  simp [rd48, rd16_slice, rd32_slice, show i + 1 < n by omega, show i + 2 + 3 < n by omega]

end Sys2Proof.Machine
end

