-- ==== Sys2Proof/Laws/Memory.lean ====
section
/-! SUPPORT. The reassembly buffers (R82): a write keeps the canonical form, a read after a write, and reading a range. -/

namespace Sys2Proof.Machine

/-- The empty buffer of a new slot is in canonical form. -/
theorem Memory.wf_nil : Memory.wf [] := by simp [Memory.wf]

theorem mem_cellsFrom (a : Nat) (v : Bytes) (c : Host.Cell) (h : c ∈ cellsFrom a v) : a ≤ c.1 ∧ c.1 < a + v.length := by
  induction v generalizing a with
  | nil => simp [cellsFrom] at h
  | cons b v ih =>
    rcases List.mem_cons.1 h with rfl | h
    · simp
    · have := ih (a + 1) h
      simp only [List.length_cons]
      omega

theorem lookup_cellsFrom (a i : Nat) (v : Bytes) (h : i < v.length) : (cellsFrom a v).lookup (a + i) = v[i]? := by
  induction v generalizing a i with
  | nil => simp at h
  | cons b v ih =>
    cases i with
    | zero => simp [cellsFrom]
    | succ i =>
      have h1 : (a + (i + 1) == a) = false := by simp
      have := ih (a + 1) i (by simpa using h)
      simp only [cellsFrom, List.lookup, h1, List.getElem?_cons_succ]
      rw [← this]
      congr 1
      omega

/-- A lookup passes a list none of whose addresses is the one asked for. -/
theorem lookup_append_of_absent (m m' : Memory) (a : Nat) (h : ∀ c ∈ m, c.1 ≠ a) : (m ++ m').lookup a = m'.lookup a := by
  induction m with
  | nil => rfl
  | cons c m ih =>
    have hc : (a == c.1) = false := beq_false_of_ne (fun e => h c (by simp) e.symm)
    simp only [List.cons_append, List.lookup, hc]
    exact ih fun d hd => h d (by simp [hd])

theorem lookup_append_of_some (m m' : Memory) (a : Nat) (v : Byte) (h : m.lookup a = some v) : (m ++ m').lookup a = some v := by
  induction m with
  | nil => simp at h
  | cons c m ih =>
    simp only [List.cons_append, List.lookup] at h ⊢
    split at h <;> simp_all

theorem lookup_filter (m : Memory) (p : Nat → Bool) (a : Nat) (h : p a = true) : (m.filter (fun c => p c.1)).lookup a = m.lookup a := by
  induction m with
  | nil => rfl
  | cons c m ih =>
    obtain ⟨b, v⟩ := c
    by_cases hb : a = b
    · subst hb
      simp [List.filter, h, List.lookup]
    · simp only [List.filter, List.lookup, beq_false_of_ne hb]
      split <;> simp [List.lookup, beq_false_of_ne hb, ih]

/-- Reading inside what was just written gives the byte written (R82). -/
theorem Memory.read_write_inside (m : Memory) (a i : Nat) (v : Bytes) (h : i < v.length) :
    (m.write a v).read (a + i) = v[i]? := by
  have hl : ∀ c ∈ m.filter (fun c => decide (c.1 < a)), c.1 ≠ a + i := by
    intro c hc
    have := (List.mem_filter.1 hc).2
    simp at this
    omega
  have hv : v[i]? = some v[i] := List.getElem?_eq_getElem h
  simp only [Memory.read, Memory.write, List.append_assoc]
  rw [lookup_append_of_absent _ _ _ hl, hv]
  exact lookup_append_of_some _ _ _ _ (by rw [lookup_cellsFrom _ _ _ h, hv])

/-- Reading outside what was just written gives what was there before (R82). -/
theorem Memory.read_write_outside (m : Memory) (a b : Nat) (v : Bytes) (h : b < a ∨ a + v.length ≤ b) :
    (m.write a v).read b = m.read b := by
  have hc : ∀ c ∈ cellsFrom a v, c.1 ≠ b := fun c hc => by have := mem_cellsFrom a v c hc; omega
  simp only [Memory.read, Memory.write, List.append_assoc]
  rcases h with h | h
  · by_cases hm : (m.filter (fun c => decide (c.1 < a))).lookup b = none
    · have h1 := lookup_filter m (fun x => decide (x < a)) b (by simpa using h)
      rw [hm] at h1
      have h2 : ∀ c ∈ m.filter (fun c => decide (c.1 < a)), c.1 ≠ b := by
        intro c hc e
        have := List.lookup_eq_none_iff.1 hm c hc
        simp [e] at this
      have h3 : ∀ c ∈ cellsFrom a v ++ m.filter (fun c => decide (a + v.length ≤ c.1)), c.1 ≠ b := by
        intro c hc'
        rcases List.mem_append.1 hc' with h' | h'
        · exact hc c h'
        · have := (List.mem_filter.1 h').2
          simp at this
          omega
      rw [lookup_append_of_absent _ _ _ h2, ← h1]
      refine List.lookup_eq_none_iff.2 fun c hc' => ?_
      simpa using fun e => h3 c hc' e.symm
    · obtain ⟨w, hw⟩ := Option.ne_none_iff_exists'.1 hm
      rw [lookup_append_of_some _ _ _ _ hw, ← hw]
      exact lookup_filter m (fun x => decide (x < a)) b (by simpa using h)
  · have h2 : ∀ c ∈ m.filter (fun c => decide (c.1 < a)), c.1 ≠ b := by
      intro c hc'
      have := (List.mem_filter.1 hc').2
      simp at this
      omega
    rw [lookup_append_of_absent _ _ _ h2, lookup_append_of_absent _ _ _ hc]
    exact lookup_filter m (fun x => decide (a + v.length ≤ x)) b (by simpa using h)

theorem cellsFrom_sorted (a : Nat) (v : Bytes) : ((cellsFrom a v).map Prod.fst).Pairwise (· < ·) := by
  induction v generalizing a with
  | nil => simp [cellsFrom]
  | cons b v ih =>
    simp only [cellsFrom, List.map_cons, List.pairwise_cons]
    refine ⟨fun x hx => ?_, ih (a + 1)⟩
    obtain ⟨c, hc, rfl⟩ := List.mem_map.1 hx
    have := mem_cellsFrom _ _ _ hc
    omega

/-- A write inside the buffer keeps the canonical form. -/
theorem Memory.write_wf (m : Memory) (a : Nat) (v : Bytes) (hm : m.wf) (h : a + v.length ≤ Config.reasmBufLen) :
    (m.write a v).wf := by
  obtain ⟨hs, hb⟩ := hm
  have sub : ∀ p : Host.Cell → Bool, ((m.filter p).map Prod.fst).Pairwise (· < ·) := fun p =>
    hs.sublist (List.filter_sublist.map _)
  constructor
  · simp only [Memory.write, List.map_append, List.pairwise_append]
    refine ⟨⟨sub _, cellsFrom_sorted a v, ?_⟩, sub _, ?_⟩
    · intro x hx y hy
      obtain ⟨c, hc, rfl⟩ := List.mem_map.1 hx
      obtain ⟨d, hd, rfl⟩ := List.mem_map.1 hy
      have := mem_cellsFrom _ _ _ hd
      have := (List.mem_filter.1 hc).2
      simp at this
      omega
    · intro x hx y hy
      obtain ⟨d, hd, rfl⟩ := List.mem_map.1 hy
      have hd := (List.mem_filter.1 hd).2
      simp at hd
      rcases List.mem_append.1 hx with hx | hx <;> obtain ⟨c, hc, rfl⟩ := List.mem_map.1 hx
      · have := (List.mem_filter.1 hc).2
        simp at this
        omega
      · have := mem_cellsFrom _ _ _ hc
        omega
  · intro c hc
    simp only [Memory.write, List.mem_append, List.mem_filter] at hc
    rcases hc with (hc | hc) | hc
    · exact hb c hc.1
    · have := mem_cellsFrom _ _ _ hc
      omega
    · exact hb c hc.1

/-- A range of a buffer in canonical form reads as its cells, byte by byte (R82). -/
theorem Memory.readRange_eq_some (m : Memory) (a n : Nat) (b : Bytes) (hm : (m.map Prod.fst).Pairwise (· < ·)) :
    m.readRange a n = some b ↔ b.length = n ∧ ∀ i, i < n → m.read (a + i) = b[i]? := by
  induction m generalizing a n b with
  | nil =>
    cases n with
    | zero => cases b <;> simp [Memory.readRange]
    | succ n =>
      simp only [Memory.readRange, Memory.read, List.lookup, reduceCtorEq, false_iff]
      rintro ⟨hl, h⟩
      have := h 0 (by omega)
      rw [List.getElem?_eq_getElem (by omega)] at this
      simp at this
  | cons c m ih =>
    obtain ⟨k, w⟩ := c
    simp only [List.map_cons, List.pairwise_cons] at hm
    obtain ⟨hlt, hm⟩ := hm
    cases n with
    | zero => cases b <;> simp [Memory.readRange]
    | succ n =>
      simp only [Memory.readRange]
      split
      · rename_i hk
        rw [ih a (n + 1) b hm]
        refine and_congr_right fun _ => forall_congr' fun i => imp_congr_right fun _ => ?_
        have : (a + i == k) = false := by simp; omega
        simp [Memory.read, List.lookup, this]
      · split
        · rename_i h1 h2
          subst h2
          simp only [Option.map_eq_some_iff]
          constructor
          · rintro ⟨b', hb', rfl⟩
            obtain ⟨hl, hr⟩ := (ih (k + 1) n b' hm).1 hb'
            refine ⟨by simp [hl], fun i hi => ?_⟩
            cases i with
            | zero => simp [Memory.read, List.lookup]
            | succ i =>
              have h3 : (k + (i + 1) == k) = false := by simp
              have := hr i (by omega)
              simp only [Memory.read, List.lookup, h3, List.getElem?_cons_succ] at this ⊢
              rw [← this]
              congr 1
              omega
          · rintro ⟨hl, hr⟩
            cases b with
            | nil => simp at hl
            | cons x b =>
              have h0 := hr 0 (by omega)
              simp [Memory.read, List.lookup] at h0
              refine ⟨b, (ih (k + 1) n b hm).2 ⟨by simpa using hl, fun i hi => ?_⟩, by simp [h0]⟩
              have h3 : (k + (i + 1) == k) = false := by simp
              have := hr (i + 1) (by omega)
              simp only [Memory.read, List.lookup, h3, List.getElem?_cons_succ] at this ⊢
              rw [← this]
              congr 1
              omega
        · rename_i h1 h2
          simp only [reduceCtorEq, false_iff]
          rintro ⟨hl, hr⟩
          have h0 := hr 0 (by omega)
          rw [List.getElem?_eq_getElem (by omega)] at h0
          have h4 : (a + 0 == k) = false := by simp; omega
          simp only [Memory.read, List.lookup, h4] at h0
          have : m.lookup a = none := List.lookup_eq_none_iff.2 fun c hc => by
            have := hlt c.1 (List.mem_map_of_mem hc)
            simp
            omega
          simp [this] at h0

/-- A range all of whose cells are written can be read (R52, R82). -/
theorem Memory.readRange_isSome (m : Memory) (a n : Nat) (hm : (m.map Prod.fst).Pairwise (· < ·)) (h : Written m a (a + n)) :
    (m.readRange a n).isSome := by
  have hb : ∀ i : Fin n, ∃ x, m.read (a + i) = some x := fun i =>
    Option.isSome_iff_exists.1 (h (a + i) (by omega) (by omega))
  choose f hf using hb
  have : m.readRange a n = some (List.ofFn f) := by
    rw [Memory.readRange_eq_some _ _ _ _ hm]
    refine ⟨by simp, fun i hi => ?_⟩
    rw [hf ⟨i, hi⟩, List.getElem?_eq_getElem (by simpa using hi)]
    simp
  simp [this]

end Sys2Proof.Machine
end

