-- ==== Sys2Proof/Laws/State.lean ====
section
/-! SUPPORT. Each field after each named update of the state: true by unfolding, once. -/

namespace Sys2Proof.Machine

@[simp] theorem State.raise_eq (s : State) (c : Status) : s.raise c = s.respond { status := c } := rfl
@[simp] theorem State.illegal_eq (s : State) : s.illegal = s.respond { status := .illegalCmd } := rfl

/-! ### respond -/

@[simp] theorem State.respond_phase (s : State) (r : Result) : (s.respond r).phase = s.phase := rfl
@[simp] theorem State.respond_csrs (s : State) (r : Result) : (s.respond r).csrs = s.csrs := rfl
@[simp] theorem State.respond_halted (s : State) (r : Result) : (s.respond r).halted = s.halted := rfl
@[simp] theorem State.respond_isWork (s : State) (r : Result) : (s.respond r).isWork = s.isWork := rfl
@[simp] theorem State.respond_cache (s : State) (r : Result) : (s.respond r).cache = s.cache := rfl
@[simp] theorem State.respond_pending (s : State) (r : Result) : (s.respond r).pending = s.pending := rfl
@[simp] theorem State.respond_queues (s : State) (r : Result) : (s.respond r).queues = s.queues := rfl
@[simp] theorem State.respond_reasm (s : State) (r : Result) : (s.respond r).reasm = s.reasm := rfl
@[simp] theorem State.respond_log (s : State) (r : Result) : (s.respond r).log = s.log := rfl
@[simp] theorem State.respond_offered (s : State) (r : Result) : (s.respond r).offered = s.offered := rfl
@[simp] theorem State.respond_ops (s : State) (r : Result) : (s.respond r).ops = {} := rfl
@[simp] theorem State.respond_draw (s : State) (r : Result) : (s.respond r).draw = s.draw := rfl
@[simp] theorem State.respond_results (s : State) (r : Result) : (s.respond r).results = s.results ++ [r] := rfl
@[simp] theorem State.respond_wire (s : State) (r : Result) : (s.respond r).wire = s.wire := rfl
@[simp] theorem State.respond_agenda (s : State) (r : Result) : (s.respond r).agenda = s.agenda := rfl
@[simp] theorem State.respond_draws (s : State) (r : Result) : (s.respond r).draws = s.draws := rfl
@[simp] theorem State.respond_params (s : State) (r : Result) : (s.respond r).params = s.params := rfl

/-! ### logEvent -/

@[simp] theorem State.logEvent_phase (s : State) (u : Agent) (c : Status) : (s.logEvent u c).phase = s.phase := rfl
@[simp] theorem State.logEvent_csrs (s : State) (u : Agent) (c : Status) : (s.logEvent u c).csrs = s.csrs := rfl
@[simp] theorem State.logEvent_halted (s : State) (u : Agent) (c : Status) : (s.logEvent u c).halted = s.halted := rfl
@[simp] theorem State.logEvent_isWork (s : State) (u : Agent) (c : Status) : (s.logEvent u c).isWork = s.isWork := rfl
@[simp] theorem State.logEvent_cache (s : State) (u : Agent) (c : Status) : (s.logEvent u c).cache = s.cache := rfl
@[simp] theorem State.logEvent_pending (s : State) (u : Agent) (c : Status) : (s.logEvent u c).pending = s.pending := rfl
@[simp] theorem State.logEvent_queues (s : State) (u : Agent) (c : Status) : (s.logEvent u c).queues = s.queues := rfl
@[simp] theorem State.logEvent_reasm (s : State) (u : Agent) (c : Status) : (s.logEvent u c).reasm = s.reasm := rfl
@[simp] theorem State.logEvent_log (s : State) (u : Agent) (c : Status) : (s.logEvent u c).log = s.log ++ [⟨u, c⟩] := rfl
@[simp] theorem State.logEvent_offered (s : State) (u : Agent) (c : Status) : (s.logEvent u c).offered = s.offered := rfl
@[simp] theorem State.logEvent_ops (s : State) (u : Agent) (c : Status) : (s.logEvent u c).ops = s.ops := rfl
@[simp] theorem State.logEvent_draw (s : State) (u : Agent) (c : Status) : (s.logEvent u c).draw = s.draw := rfl
@[simp] theorem State.logEvent_results (s : State) (u : Agent) (c : Status) : (s.logEvent u c).results = s.results := rfl
@[simp] theorem State.logEvent_wire (s : State) (u : Agent) (c : Status) : (s.logEvent u c).wire = s.wire := rfl
@[simp] theorem State.logEvent_agenda (s : State) (u : Agent) (c : Status) : (s.logEvent u c).agenda = s.agenda := rfl
@[simp] theorem State.logEvent_draws (s : State) (u : Agent) (c : Status) : (s.logEvent u c).draws = s.draws := rfl
@[simp] theorem State.logEvent_params (s : State) (u : Agent) (c : Status) : (s.logEvent u c).params = s.params := rfl

/-! ### haltUnit -/

@[simp] theorem State.haltUnit_phase (s : State) (u : Agent) : (s.haltUnit u).phase = s.phase := rfl
@[simp] theorem State.haltUnit_csrs (s : State) (u : Agent) : (s.haltUnit u).csrs = s.csrs := rfl
@[simp] theorem State.haltUnit_halted (s : State) (u : Agent) : (s.haltUnit u).halted = s.halted.set u := rfl
@[simp] theorem State.haltUnit_isWork (s : State) (u : Agent) : (s.haltUnit u).isWork = s.isWork := rfl
@[simp] theorem State.haltUnit_cache (s : State) (u : Agent) : (s.haltUnit u).cache = s.cache := rfl
@[simp] theorem State.haltUnit_pending (s : State) (u : Agent) : (s.haltUnit u).pending = s.pending := rfl
@[simp] theorem State.haltUnit_queues (s : State) (u : Agent) : (s.haltUnit u).queues = s.queues := rfl
@[simp] theorem State.haltUnit_reasm (s : State) (u : Agent) : (s.haltUnit u).reasm = s.reasm := rfl
@[simp] theorem State.haltUnit_log (s : State) (u : Agent) : (s.haltUnit u).log = s.log ++ [⟨u, .transportFault⟩] := rfl
@[simp] theorem State.haltUnit_offered (s : State) (u : Agent) : (s.haltUnit u).offered = s.offered := rfl
@[simp] theorem State.haltUnit_ops (s : State) (u : Agent) : (s.haltUnit u).ops = s.ops := rfl
@[simp] theorem State.haltUnit_draw (s : State) (u : Agent) : (s.haltUnit u).draw = s.draw := rfl
@[simp] theorem State.haltUnit_results (s : State) (u : Agent) : (s.haltUnit u).results = s.results := rfl
@[simp] theorem State.haltUnit_wire (s : State) (u : Agent) : (s.haltUnit u).wire = s.wire := rfl
@[simp] theorem State.haltUnit_agenda (s : State) (u : Agent) : (s.haltUnit u).agenda = s.agenda := rfl
@[simp] theorem State.haltUnit_draws (s : State) (u : Agent) : (s.haltUnit u).draws = s.draws := rfl
@[simp] theorem State.haltUnit_params (s : State) (u : Agent) : (s.haltUnit u).params = s.params := rfl

/-! ### csrWrite -/

@[simp] theorem State.csrWrite_phase (s : State) (n : CsrId) (v : Word) : (s.csrWrite n v).phase = s.phase := rfl
@[simp] theorem State.csrWrite_csrs (s : State) (n : CsrId) (v : Word) : (s.csrWrite n v).csrs = s.csrs.set n (v &&& n.wmask) := rfl
@[simp] theorem State.csrWrite_halted (s : State) (n : CsrId) (v : Word) : (s.csrWrite n v).halted = s.halted := rfl
@[simp] theorem State.csrWrite_isWork (s : State) (n : CsrId) (v : Word) : (s.csrWrite n v).isWork = s.isWork := rfl
@[simp] theorem State.csrWrite_cache (s : State) (n : CsrId) (v : Word) : (s.csrWrite n v).cache = s.cache := rfl
@[simp] theorem State.csrWrite_pending (s : State) (n : CsrId) (v : Word) : (s.csrWrite n v).pending = s.pending := rfl
@[simp] theorem State.csrWrite_queues (s : State) (n : CsrId) (v : Word) : (s.csrWrite n v).queues = s.queues := rfl
@[simp] theorem State.csrWrite_reasm (s : State) (n : CsrId) (v : Word) : (s.csrWrite n v).reasm = s.reasm := rfl
@[simp] theorem State.csrWrite_log (s : State) (n : CsrId) (v : Word) : (s.csrWrite n v).log = s.log := rfl
@[simp] theorem State.csrWrite_offered (s : State) (n : CsrId) (v : Word) : (s.csrWrite n v).offered = s.offered := rfl
@[simp] theorem State.csrWrite_ops (s : State) (n : CsrId) (v : Word) : (s.csrWrite n v).ops = s.ops := rfl
@[simp] theorem State.csrWrite_draw (s : State) (n : CsrId) (v : Word) : (s.csrWrite n v).draw = s.draw := rfl
@[simp] theorem State.csrWrite_results (s : State) (n : CsrId) (v : Word) : (s.csrWrite n v).results = s.results := rfl
@[simp] theorem State.csrWrite_wire (s : State) (n : CsrId) (v : Word) : (s.csrWrite n v).wire = s.wire := rfl
@[simp] theorem State.csrWrite_agenda (s : State) (n : CsrId) (v : Word) : (s.csrWrite n v).agenda = s.agenda := rfl
@[simp] theorem State.csrWrite_draws (s : State) (n : CsrId) (v : Word) : (s.csrWrite n v).draws = s.draws := rfl
@[simp] theorem State.csrWrite_params (s : State) (n : CsrId) (v : Word) : (s.csrWrite n v).params = s.params := rfl

/-! ### cachePut -/

@[simp] theorem State.cachePut_phase (s : State) (ip : IpAddr) (e : CacheEntry) : (s.cachePut ip e).phase = s.phase := rfl
@[simp] theorem State.cachePut_csrs (s : State) (ip : IpAddr) (e : CacheEntry) : (s.cachePut ip e).csrs = s.csrs := rfl
@[simp] theorem State.cachePut_halted (s : State) (ip : IpAddr) (e : CacheEntry) : (s.cachePut ip e).halted = s.halted := rfl
@[simp] theorem State.cachePut_isWork (s : State) (ip : IpAddr) (e : CacheEntry) : (s.cachePut ip e).isWork = s.isWork := rfl
@[simp] theorem State.cachePut_cache (s : State) (ip : IpAddr) (e : CacheEntry) : (s.cachePut ip e).cache = insertSorted keyLt (ip, e) s.cache := rfl
@[simp] theorem State.cachePut_pending (s : State) (ip : IpAddr) (e : CacheEntry) : (s.cachePut ip e).pending = s.pending := rfl
@[simp] theorem State.cachePut_queues (s : State) (ip : IpAddr) (e : CacheEntry) : (s.cachePut ip e).queues = s.queues := rfl
@[simp] theorem State.cachePut_reasm (s : State) (ip : IpAddr) (e : CacheEntry) : (s.cachePut ip e).reasm = s.reasm := rfl
@[simp] theorem State.cachePut_log (s : State) (ip : IpAddr) (e : CacheEntry) : (s.cachePut ip e).log = s.log := rfl
@[simp] theorem State.cachePut_offered (s : State) (ip : IpAddr) (e : CacheEntry) : (s.cachePut ip e).offered = s.offered := rfl
@[simp] theorem State.cachePut_ops (s : State) (ip : IpAddr) (e : CacheEntry) : (s.cachePut ip e).ops = s.ops := rfl
@[simp] theorem State.cachePut_draw (s : State) (ip : IpAddr) (e : CacheEntry) : (s.cachePut ip e).draw = s.draw := rfl
@[simp] theorem State.cachePut_results (s : State) (ip : IpAddr) (e : CacheEntry) : (s.cachePut ip e).results = s.results := rfl
@[simp] theorem State.cachePut_wire (s : State) (ip : IpAddr) (e : CacheEntry) : (s.cachePut ip e).wire = s.wire := rfl
@[simp] theorem State.cachePut_agenda (s : State) (ip : IpAddr) (e : CacheEntry) : (s.cachePut ip e).agenda = s.agenda := rfl
@[simp] theorem State.cachePut_draws (s : State) (ip : IpAddr) (e : CacheEntry) : (s.cachePut ip e).draws = s.draws := rfl
@[simp] theorem State.cachePut_params (s : State) (ip : IpAddr) (e : CacheEntry) : (s.cachePut ip e).params = s.params := rfl

/-! ### pendingAdd -/

@[simp] theorem State.pendingAdd_phase (s : State) (ip : IpAddr) : (s.pendingAdd ip).phase = s.phase := rfl
@[simp] theorem State.pendingAdd_csrs (s : State) (ip : IpAddr) : (s.pendingAdd ip).csrs = s.csrs := rfl
@[simp] theorem State.pendingAdd_halted (s : State) (ip : IpAddr) : (s.pendingAdd ip).halted = s.halted := rfl
@[simp] theorem State.pendingAdd_isWork (s : State) (ip : IpAddr) : (s.pendingAdd ip).isWork = s.isWork := rfl
@[simp] theorem State.pendingAdd_cache (s : State) (ip : IpAddr) : (s.pendingAdd ip).cache = s.cache := rfl
@[simp] theorem State.pendingAdd_pending (s : State) (ip : IpAddr) : (s.pendingAdd ip).pending = insertSorted BitVec.ult ip s.pending := rfl
@[simp] theorem State.pendingAdd_queues (s : State) (ip : IpAddr) : (s.pendingAdd ip).queues = s.queues := rfl
@[simp] theorem State.pendingAdd_reasm (s : State) (ip : IpAddr) : (s.pendingAdd ip).reasm = s.reasm := rfl
@[simp] theorem State.pendingAdd_log (s : State) (ip : IpAddr) : (s.pendingAdd ip).log = s.log := rfl
@[simp] theorem State.pendingAdd_offered (s : State) (ip : IpAddr) : (s.pendingAdd ip).offered = s.offered := rfl
@[simp] theorem State.pendingAdd_ops (s : State) (ip : IpAddr) : (s.pendingAdd ip).ops = s.ops := rfl
@[simp] theorem State.pendingAdd_draw (s : State) (ip : IpAddr) : (s.pendingAdd ip).draw = s.draw := rfl
@[simp] theorem State.pendingAdd_results (s : State) (ip : IpAddr) : (s.pendingAdd ip).results = s.results := rfl
@[simp] theorem State.pendingAdd_wire (s : State) (ip : IpAddr) : (s.pendingAdd ip).wire = s.wire := rfl
@[simp] theorem State.pendingAdd_agenda (s : State) (ip : IpAddr) : (s.pendingAdd ip).agenda = s.agenda := rfl
@[simp] theorem State.pendingAdd_draws (s : State) (ip : IpAddr) : (s.pendingAdd ip).draws = s.draws := rfl
@[simp] theorem State.pendingAdd_params (s : State) (ip : IpAddr) : (s.pendingAdd ip).params = s.params := rfl

/-! ### pendingDel -/

@[simp] theorem State.pendingDel_phase (s : State) (ip : IpAddr) : (s.pendingDel ip).phase = s.phase := rfl
@[simp] theorem State.pendingDel_csrs (s : State) (ip : IpAddr) : (s.pendingDel ip).csrs = s.csrs := rfl
@[simp] theorem State.pendingDel_halted (s : State) (ip : IpAddr) : (s.pendingDel ip).halted = s.halted := rfl
@[simp] theorem State.pendingDel_isWork (s : State) (ip : IpAddr) : (s.pendingDel ip).isWork = s.isWork := rfl
@[simp] theorem State.pendingDel_cache (s : State) (ip : IpAddr) : (s.pendingDel ip).cache = s.cache := rfl
@[simp] theorem State.pendingDel_pending (s : State) (ip : IpAddr) : (s.pendingDel ip).pending = s.pending.filter (· ≠ ip) := rfl
@[simp] theorem State.pendingDel_queues (s : State) (ip : IpAddr) : (s.pendingDel ip).queues = s.queues := rfl
@[simp] theorem State.pendingDel_reasm (s : State) (ip : IpAddr) : (s.pendingDel ip).reasm = s.reasm := rfl
@[simp] theorem State.pendingDel_log (s : State) (ip : IpAddr) : (s.pendingDel ip).log = s.log := rfl
@[simp] theorem State.pendingDel_offered (s : State) (ip : IpAddr) : (s.pendingDel ip).offered = s.offered := rfl
@[simp] theorem State.pendingDel_ops (s : State) (ip : IpAddr) : (s.pendingDel ip).ops = s.ops := rfl
@[simp] theorem State.pendingDel_draw (s : State) (ip : IpAddr) : (s.pendingDel ip).draw = s.draw := rfl
@[simp] theorem State.pendingDel_results (s : State) (ip : IpAddr) : (s.pendingDel ip).results = s.results := rfl
@[simp] theorem State.pendingDel_wire (s : State) (ip : IpAddr) : (s.pendingDel ip).wire = s.wire := rfl
@[simp] theorem State.pendingDel_agenda (s : State) (ip : IpAddr) : (s.pendingDel ip).agenda = s.agenda := rfl
@[simp] theorem State.pendingDel_draws (s : State) (ip : IpAddr) : (s.pendingDel ip).draws = s.draws := rfl
@[simp] theorem State.pendingDel_params (s : State) (ip : IpAddr) : (s.pendingDel ip).params = s.params := rfl

/-! ### slotPut -/

@[simp] theorem State.slotPut_phase (s : State) (id : Half) (sl : Slot) : (s.slotPut id sl).phase = s.phase := rfl
@[simp] theorem State.slotPut_csrs (s : State) (id : Half) (sl : Slot) : (s.slotPut id sl).csrs = s.csrs := rfl
@[simp] theorem State.slotPut_halted (s : State) (id : Half) (sl : Slot) : (s.slotPut id sl).halted = s.halted := rfl
@[simp] theorem State.slotPut_isWork (s : State) (id : Half) (sl : Slot) : (s.slotPut id sl).isWork = s.isWork := rfl
@[simp] theorem State.slotPut_cache (s : State) (id : Half) (sl : Slot) : (s.slotPut id sl).cache = s.cache := rfl
@[simp] theorem State.slotPut_pending (s : State) (id : Half) (sl : Slot) : (s.slotPut id sl).pending = s.pending := rfl
@[simp] theorem State.slotPut_queues (s : State) (id : Half) (sl : Slot) : (s.slotPut id sl).queues = s.queues := rfl
@[simp] theorem State.slotPut_reasm (s : State) (id : Half) (sl : Slot) : (s.slotPut id sl).reasm = insertSorted keyLt (id, sl) s.reasm := rfl
@[simp] theorem State.slotPut_log (s : State) (id : Half) (sl : Slot) : (s.slotPut id sl).log = s.log := rfl
@[simp] theorem State.slotPut_offered (s : State) (id : Half) (sl : Slot) : (s.slotPut id sl).offered = s.offered := rfl
@[simp] theorem State.slotPut_ops (s : State) (id : Half) (sl : Slot) : (s.slotPut id sl).ops = s.ops := rfl
@[simp] theorem State.slotPut_draw (s : State) (id : Half) (sl : Slot) : (s.slotPut id sl).draw = s.draw := rfl
@[simp] theorem State.slotPut_results (s : State) (id : Half) (sl : Slot) : (s.slotPut id sl).results = s.results := rfl
@[simp] theorem State.slotPut_wire (s : State) (id : Half) (sl : Slot) : (s.slotPut id sl).wire = s.wire := rfl
@[simp] theorem State.slotPut_agenda (s : State) (id : Half) (sl : Slot) : (s.slotPut id sl).agenda = s.agenda := rfl
@[simp] theorem State.slotPut_draws (s : State) (id : Half) (sl : Slot) : (s.slotPut id sl).draws = s.draws := rfl
@[simp] theorem State.slotPut_params (s : State) (id : Half) (sl : Slot) : (s.slotPut id sl).params = s.params := rfl

/-! ### slotDel -/

@[simp] theorem State.slotDel_phase (s : State) (id : Half) : (s.slotDel id).phase = s.phase := rfl
@[simp] theorem State.slotDel_csrs (s : State) (id : Half) : (s.slotDel id).csrs = s.csrs := rfl
@[simp] theorem State.slotDel_halted (s : State) (id : Half) : (s.slotDel id).halted = s.halted := rfl
@[simp] theorem State.slotDel_isWork (s : State) (id : Half) : (s.slotDel id).isWork = s.isWork := rfl
@[simp] theorem State.slotDel_cache (s : State) (id : Half) : (s.slotDel id).cache = s.cache := rfl
@[simp] theorem State.slotDel_pending (s : State) (id : Half) : (s.slotDel id).pending = s.pending := rfl
@[simp] theorem State.slotDel_queues (s : State) (id : Half) : (s.slotDel id).queues = s.queues := rfl
@[simp] theorem State.slotDel_reasm (s : State) (id : Half) : (s.slotDel id).reasm = s.reasm.filter (fun x => x.1 ≠ id) := rfl
@[simp] theorem State.slotDel_log (s : State) (id : Half) : (s.slotDel id).log = s.log := rfl
@[simp] theorem State.slotDel_offered (s : State) (id : Half) : (s.slotDel id).offered = s.offered := rfl
@[simp] theorem State.slotDel_ops (s : State) (id : Half) : (s.slotDel id).ops = s.ops := rfl
@[simp] theorem State.slotDel_draw (s : State) (id : Half) : (s.slotDel id).draw = s.draw := rfl
@[simp] theorem State.slotDel_results (s : State) (id : Half) : (s.slotDel id).results = s.results := rfl
@[simp] theorem State.slotDel_wire (s : State) (id : Half) : (s.slotDel id).wire = s.wire := rfl
@[simp] theorem State.slotDel_agenda (s : State) (id : Half) : (s.slotDel id).agenda = s.agenda := rfl
@[simp] theorem State.slotDel_draws (s : State) (id : Half) : (s.slotDel id).draws = s.draws := rfl
@[simp] theorem State.slotDel_params (s : State) (id : Half) : (s.slotDel id).params = s.params := rfl

/-! ### pushElem -/

@[simp] theorem State.pushElem_phase (s : State) (q : QueueId) (o : Operands) : (s.pushElem q o).phase = s.phase := rfl
@[simp] theorem State.pushElem_csrs (s : State) (q : QueueId) (o : Operands) : (s.pushElem q o).csrs = s.csrs := rfl
@[simp] theorem State.pushElem_halted (s : State) (q : QueueId) (o : Operands) : (s.pushElem q o).halted = s.halted := rfl
@[simp] theorem State.pushElem_isWork (s : State) (q : QueueId) (o : Operands) : (s.pushElem q o).isWork = s.isWork := rfl
@[simp] theorem State.pushElem_cache (s : State) (q : QueueId) (o : Operands) : (s.pushElem q o).cache = s.cache := rfl
@[simp] theorem State.pushElem_pending (s : State) (q : QueueId) (o : Operands) : (s.pushElem q o).pending = s.pending := rfl
@[simp] theorem State.pushElem_queues (s : State) (q : QueueId) (o : Operands) : (s.pushElem q o).queues = s.queues.push q o := rfl
@[simp] theorem State.pushElem_reasm (s : State) (q : QueueId) (o : Operands) : (s.pushElem q o).reasm = s.reasm := rfl
@[simp] theorem State.pushElem_log (s : State) (q : QueueId) (o : Operands) : (s.pushElem q o).log = s.log := rfl
@[simp] theorem State.pushElem_offered (s : State) (q : QueueId) (o : Operands) : (s.pushElem q o).offered = s.offered := rfl
@[simp] theorem State.pushElem_ops (s : State) (q : QueueId) (o : Operands) : (s.pushElem q o).ops = s.ops := rfl
@[simp] theorem State.pushElem_draw (s : State) (q : QueueId) (o : Operands) : (s.pushElem q o).draw = s.draw := rfl
@[simp] theorem State.pushElem_results (s : State) (q : QueueId) (o : Operands) : (s.pushElem q o).results = s.results := rfl
@[simp] theorem State.pushElem_wire (s : State) (q : QueueId) (o : Operands) : (s.pushElem q o).wire = s.wire := rfl
@[simp] theorem State.pushElem_agenda (s : State) (q : QueueId) (o : Operands) : (s.pushElem q o).agenda = s.agenda := rfl
@[simp] theorem State.pushElem_draws (s : State) (q : QueueId) (o : Operands) : (s.pushElem q o).draws = s.draws := rfl
@[simp] theorem State.pushElem_params (s : State) (q : QueueId) (o : Operands) : (s.pushElem q o).params = s.params := rfl

/-! ### submit -/

@[simp] theorem State.submit_phase (s : State) (w : Word) : (s.submit w).phase = s.phase := rfl
@[simp] theorem State.submit_csrs (s : State) (w : Word) : (s.submit w).csrs = s.csrs := rfl
@[simp] theorem State.submit_halted (s : State) (w : Word) : (s.submit w).halted = s.halted := rfl
@[simp] theorem State.submit_isWork (s : State) (w : Word) : (s.submit w).isWork = s.isWork := rfl
@[simp] theorem State.submit_cache (s : State) (w : Word) : (s.submit w).cache = s.cache := rfl
@[simp] theorem State.submit_pending (s : State) (w : Word) : (s.submit w).pending = s.pending := rfl
@[simp] theorem State.submit_queues (s : State) (w : Word) : (s.submit w).queues = s.queues := rfl
@[simp] theorem State.submit_reasm (s : State) (w : Word) : (s.submit w).reasm = s.reasm := rfl
@[simp] theorem State.submit_log (s : State) (w : Word) : (s.submit w).log = s.log := rfl
@[simp] theorem State.submit_offered (s : State) (w : Word) : (s.submit w).offered = s.offered := rfl
@[simp] theorem State.submit_ops (s : State) (w : Word) : (s.submit w).ops = s.ops := rfl
@[simp] theorem State.submit_draw (s : State) (w : Word) : (s.submit w).draw = s.draw := rfl
@[simp] theorem State.submit_results (s : State) (w : Word) : (s.submit w).results = s.results := rfl
@[simp] theorem State.submit_wire (s : State) (w : Word) : (s.submit w).wire = s.wire := rfl
@[simp] theorem State.submit_agenda (s : State) (w : Word) : (s.submit w).agenda = .command w s.ops s.draw :: s.agenda := rfl
@[simp] theorem State.submit_draws (s : State) (w : Word) : (s.submit w).draws = s.draws := rfl
@[simp] theorem State.submit_params (s : State) (w : Word) : (s.submit w).params = s.params := rfl

/-! ### resetBlock -/

@[simp] theorem State.resetBlock_phase (s : State) : (s.resetBlock).phase = .config := rfl
@[simp] theorem State.resetBlock_csrs (s : State) : (s.resetBlock).csrs = Csrs.reset := rfl
@[simp] theorem State.resetBlock_halted (s : State) : (s.resetBlock).halted = Halts.none := rfl
@[simp] theorem State.resetBlock_isWork (s : State) : (s.resetBlock).isWork = [] := rfl
@[simp] theorem State.resetBlock_cache (s : State) : (s.resetBlock).cache = [] := rfl
@[simp] theorem State.resetBlock_pending (s : State) : (s.resetBlock).pending = [] := rfl
@[simp] theorem State.resetBlock_queues (s : State) : (s.resetBlock).queues = Queues.empty := rfl
@[simp] theorem State.resetBlock_reasm (s : State) : (s.resetBlock).reasm = [] := rfl
@[simp] theorem State.resetBlock_log (s : State) : (s.resetBlock).log = [] := rfl
@[simp] theorem State.resetBlock_offered (s : State) : (s.resetBlock).offered = [] := rfl
@[simp] theorem State.resetBlock_ops (s : State) : (s.resetBlock).ops = {} := rfl
@[simp] theorem State.resetBlock_draw (s : State) : (s.resetBlock).draw = ⟨false, false, false⟩ := rfl
@[simp] theorem State.resetBlock_results (s : State) : (s.resetBlock).results = s.results := rfl
@[simp] theorem State.resetBlock_wire (s : State) : (s.resetBlock).wire = s.wire := rfl
@[simp] theorem State.resetBlock_agenda (s : State) : (s.resetBlock).agenda = s.agenda := rfl
@[simp] theorem State.resetBlock_draws (s : State) : (s.resetBlock).draws = s.draws := rfl
@[simp] theorem State.resetBlock_params (s : State) : (s.resetBlock).params = s.params := rfl

end Sys2Proof.Machine
end

