-- ==== Sys2Proof/Laws/Tables.lean ====
section
/-! SUPPORT. Finite maps and sets as rising lists: lookup after an insertion, the form kept, the size (log 10). -/

namespace Sys2Proof.Machine

theorem mem_insertSorted {α : Type} (lt : α → α → Bool) (a x : α) (l : List α) (h : x ∈ insertSorted lt a l) :
    x = a ∨ x ∈ l := by
  induction l with
  | nil => simpa [insertSorted] using h
  | cons b l ih =>
    simp only [insertSorted] at h
    split at h
    · simpa using h
    · split at h
      · rcases List.mem_cons.1 h with rfl | h
        · simp
        · rcases ih h with h | h <;> simp [h]
      · rcases List.mem_cons.1 h with h | h <;> simp [h]

theorem self_mem_insertSorted {α : Type} (lt : α → α → Bool) (a : α) (l : List α) : a ∈ insertSorted lt a l := by
  induction l with
  | nil => simp [insertSorted]
  | cons b l ih => simp only [insertSorted]; split <;> [simp; split <;> simp [ih]]

/-- Every entry that is neither below nor above another stays, where the order says so only of equals. -/
theorem old_mem_insertSorted {α : Type} (lt : α → α → Bool) (a x : α) (l : List α)
    (eqOf : ∀ b, lt a b = false → lt b a = false → b = a) (h : x ∈ l) : x ∈ insertSorted lt a l := by
  induction l with
  | nil => simp at h
  | cons b l ih =>
    simp only [insertSorted]
    split
    · exact List.mem_cons_of_mem _ h
    · split
      · rcases List.mem_cons.1 h with rfl | h
        · simp
        · exact List.mem_cons_of_mem _ (ih h)
      · rcases List.mem_cons.1 h with rfl | h
        · simp [eqOf x (by simpa using ‹¬lt a x = true›) (by simpa using ‹¬lt x a = true›)]
        · exact List.mem_cons_of_mem _ h

theorem keyLt_iff {w : Nat} {β : Type} (x y : BitVec w × β) : keyLt x y = true ↔ x.1.toNat < y.1.toNat := by
  simp [keyLt, BitVec.ult]

theorem ult_iff {w : Nat} (x y : BitVec w) : BitVec.ult x y = true ↔ x.toNat < y.toNat := by
  simp [BitVec.ult]

theorem recLt_iff (x y : FragRec) : recLt x y = true ↔ x.off < y.off ∨ (x.off = y.off ∧ x.len < y.len) := by
  simp [recLt]

/-- The key just put finds its value. -/
theorem lookup_insertSorted_self {w : Nat} {β : Type} (k : BitVec w) (v : β) (l : List (BitVec w × β)) :
    (insertSorted keyLt (k, v) l).lookup k = some v := by
  induction l with
  | nil => simp [insertSorted]
  | cons b l ih =>
    obtain ⟨kb, vb⟩ := b
    simp only [insertSorted]
    split
    · simp [List.lookup]
    · split
      · rename_i h1 h2
        have hne : k ≠ kb := by rintro rfl; simp [keyLt, BitVec.ult] at h2
        simp [List.lookup, beq_false_of_ne hne, ih]
      · simp [List.lookup]

/-- Every other key finds what it found before. -/
theorem lookup_insertSorted_other {w : Nat} {β : Type} (k k' : BitVec w) (v : β) (l : List (BitVec w × β)) (hk : k' ≠ k) :
    (insertSorted keyLt (k, v) l).lookup k' = l.lookup k' := by
  induction l with
  | nil => simp [insertSorted, List.lookup, beq_false_of_ne hk]
  | cons b l ih =>
    obtain ⟨kb, vb⟩ := b
    simp only [insertSorted]
    split
    · simp [List.lookup, beq_false_of_ne hk]
    · split
      · simp only [List.lookup]; split <;> simp [ih]
      · rename_i h1 h2
        have : kb = k := by
          apply BitVec.eq_of_toNat_eq
          simp [keyLt_iff] at h1 h2
          omega
        subst this
        simp [List.lookup, beq_false_of_ne hk]

/-- A put keeps the rising form. -/
theorem sorted_insertSorted {w : Nat} {β : Type} (x : BitVec w × β) (l : List (BitVec w × β)) (h : SortedKeys l) :
    SortedKeys (insertSorted keyLt x l) := by
  unfold SortedKeys at *
  induction l with
  | nil => simp [insertSorted]
  | cons b l ih =>
    obtain ⟨hb, hl⟩ := List.pairwise_cons.1 h
    simp only [insertSorted]
    split
    · rename_i h1
      rw [keyLt_iff] at h1
      refine List.pairwise_cons.2 ⟨fun y hy => ?_, h⟩
      rcases List.mem_cons.1 hy with rfl | hy
      · exact h1
      · exact h1.trans (hb y hy)
    · split
      · rename_i h1 h2
        rw [keyLt_iff] at h2
        refine List.pairwise_cons.2 ⟨fun y hy => ?_, ih hl⟩
        rcases mem_insertSorted _ _ _ _ hy with rfl | hy
        · exact h2
        · exact hb y hy
      · rename_i h1 h2
        rw [keyLt_iff] at h1 h2
        refine List.pairwise_cons.2 ⟨fun y hy => ?_, hl⟩
        have := hb y hy
        omega

/-- Putting a key that finds nothing adds one entry. -/
theorem length_insertSorted_absent {w : Nat} {β : Type} (k : BitVec w) (v : β) (l : List (BitVec w × β))
    (h : l.lookup k = none) : (insertSorted keyLt (k, v) l).length = l.length + 1 := by
  induction l with
  | nil => simp [insertSorted]
  | cons b l ih =>
    obtain ⟨kb, vb⟩ := b
    have hne : k ≠ kb := by rintro rfl; simp [List.lookup] at h
    simp only [List.lookup, beq_false_of_ne hne] at h
    simp only [insertSorted]
    split
    · simp
    · split
      · simp [ih h]
      · rename_i h1 h2
        exfalso
        apply hne
        apply BitVec.eq_of_toNat_eq
        simp [keyLt_iff] at h1 h2
        omega

/-- Putting a key that a rising list holds keeps the number of entries. -/
theorem length_insertSorted_present {w : Nat} {β : Type} (k : BitVec w) (v : β) (l : List (BitVec w × β))
    (hs : SortedKeys l) (h : l.lookup k ≠ none) : (insertSorted keyLt (k, v) l).length = l.length := by
  unfold SortedKeys at hs
  induction l with
  | nil => simp [List.lookup] at h
  | cons b l ih =>
    obtain ⟨kb, vb⟩ := b
    obtain ⟨hb, hl⟩ := List.pairwise_cons.1 hs
    simp only [insertSorted]
    split
    · rename_i h1
      rw [keyLt_iff] at h1
      exfalso
      apply h
      refine List.lookup_eq_none_iff.2 fun y hy => ?_
      rcases List.mem_cons.1 hy with rfl | hy
      · simp only [bne_iff_ne, ne_eq]; rintro rfl; exact absurd h1 (Nat.lt_irrefl _)
      · have := hb y hy
        simp only [bne_iff_ne, ne_eq]
        rintro rfl
        simp at h1 this
        omega
    · split
      · rename_i h1 h2
        rw [keyLt_iff] at h2
        have hne : k ≠ kb := by rintro rfl; simp at h2
        simp only [List.lookup, beq_false_of_ne hne] at h
        simp [ih hl h]
      · simp

end Sys2Proof.Machine
end

