-- ==== Sys2Proof/Laws/Ops.lean ====
section
/-! SUPPORT. What each shared operation answers, said once: the bodies of the commands, a unit's hand-off, one transition. -/

namespace Sys2Proof.Machine

theorem atCapacity_iff (cap : Option Nat) (n : Nat) : atCapacity cap n = true ↔ ∃ c, cap = some c ∧ c ≤ n := by
  cases cap <;> simp [atCapacity]

/-- QADD-body refuses and changes nothing, or admits and pushes (R181, R182). -/
theorem qaddBody_cases (q : QueueId) (o : Operands) (s : State) :
    (qaddBody q o s = (.qRejectLen, s) ∧ lengthRefused q o s = true) ∨
      (qaddBody q o s = (.qFull, s) ∧ lengthRefused q o s = false ∧ queueFull q s = true) ∨
      (qaddBody q o s = (.ok, s.pushElem q o) ∧ lengthRefused q o s = false ∧ queueFull q s = false) := by
  unfold qaddBody
  split
  · exact .inl ⟨rfl, by assumption⟩
  · split
    · exact .inr (.inl ⟨rfl, by simpa using ‹¬lengthRefused q o s = true›, by assumption⟩)
    · exact .inr (.inr ⟨rfl, by simpa using ‹¬lengthRefused q o s = true›, by simpa using ‹¬queueFull q s = true›⟩)

/-- A hand-off pushes the element, or drops it with one log event (R312 to R317). -/
theorem handOff_cases (u : Agent) (q : QueueId) (o : Operands) (s : State) :
    (s.handOff u q o = s.pushElem q o ∧ lengthRefused q o s = false ∧ queueFull q s = false) ∨
      s.handOff u q o = s.logEvent u .qRejectLen ∨ s.handOff u q o = s.logEvent u .qFull := by
  rcases qaddBody_cases q o s with ⟨h, _⟩ | ⟨h, _⟩ | ⟨h, h1, h2⟩
  · right; left; simp [State.handOff, h, State.logUnlessOk]
  · right; right; simp [State.handOff, h, State.logUnlessOk]
  · left; simp [State.handOff, h, State.logUnlessOk, h1, h2]

/-- The length of the queues after a push: one more in the queue pushed to. -/
theorem len_push (qs : Queues) (q q' : QueueId) (o : Operands) :
    (qs.push q o).len q' = if q' = q then qs.len q' + 1 else qs.len q' := by
  cases q <;> cases q' <;> simp [Queues.push, Queues.len]

/-- ARPFIND-body: a hit changes nothing; a miss leaves the state or pushes one request and marks the IP pending (R236). -/
theorem arpfindBody_cases (ip : IpAddr) (s : State) :
    (∃ e, cacheFind s ip = some e ∧ arpfindBody ip s = ({ status := .ok, mac := e.mac, value := e.tag.code }, s)) ∨
      (cacheFind s ip = none ∧ arpfindBody ip s = ({ status := .arpMiss }, s)) ∨
      (cacheFind s ip = none ∧ queueFull .q5 s = false ∧ lengthRefused .q5 { ip := ip } s = false ∧
        arpfindBody ip s = ({ status := .arpMiss }, (s.pushElem .q5 { ip := ip }).pendingAdd ip)) := by
  unfold arpfindBody
  cases hf : cacheFind s ip with
  | some e => exact .inl ⟨e, rfl, rfl⟩
  | none =>
    refine .inr ?_
    simp only [arpMiss]
    split
    · rename_i h
      simp only [admitted, Bool.and_eq_true, Bool.not_eq_true'] at h
      exact .inr ⟨trivial, h.2.2, h.2.1, rfl⟩
    · exact .inl ⟨trivial, rfl⟩

/-- ARPINS-body (R237). -/
theorem arpinsBody_cases (tag : Tag) (ip : IpAddr) (mac : Mac) (s : State) :
    (arpinsBody tag ip mac s = (.arpExists, s) ∧ cacheFind s ip ≠ none) ∨
      (arpinsBody tag ip mac s = (.arpFull, s) ∧ cacheFind s ip = none ∧ atCapacity s.params.arpCap s.cache.length = true) ∨
      (arpinsBody tag ip mac s = (.ok, (s.cachePut ip ⟨mac, tag⟩).pendingDel ip) ∧ cacheFind s ip = none ∧
        atCapacity s.params.arpCap s.cache.length = false) := by
  unfold arpinsBody
  cases hf : cacheFind s ip with
  | some e => simp
  | none => cases hc : atCapacity s.params.arpCap s.cache.length <;> simp

/-- ARPUPD-body (R238). -/
theorem arpupdBody_cases (tag : Tag) (ip : IpAddr) (mac : Mac) (s : State) :
    (arpupdBody tag ip mac s = (.arpAbsent, s) ∧ cacheFind s ip = none) ∨
      (arpupdBody tag ip mac s = (.ok, s.cachePut ip ⟨mac, tag⟩) ∧ cacheFind s ip ≠ none) := by
  unfold arpupdBody
  cases hf : cacheFind s ip <;> simp

/-- ARPRX-body leaves the state, or learns one entry, on the originating side (R239). -/
theorem arprxBody_cases (d : Bytes) (s : State) :
    ((arprxBody d s).2 = s) ∨
      (isPeer s = false ∧ (arprxBody d s).1 = { status := .ok } ∧
        (cacheFind s (arpSip (slice d 0 Config.arpLen)) ≠ none ∨ atCapacity s.params.arpCap s.cache.length = false) ∧
        (arprxBody d s).2 = (s.cachePut (arpSip (slice d 0 Config.arpLen)) ⟨arpSmac (slice d 0 Config.arpLen), .dynamic⟩).pendingDel
          (arpSip (slice d 0 Config.arpLen))) := by
  unfold arprxBody
  split
  · exact .inl rfl
  · cases hp : isPeer s with
    | true => exact .inl rfl
    | false =>
      simp only [Bool.false_eq_true, if_false, arpLearn]
      split
      · exact .inl rfl
      · split
        · exact .inl rfl
        · rename_i _ h
          refine .inr ⟨trivial, rfl, ?_, rfl⟩
          cases hf : cacheFind s (arpSip (slice d 0 Config.arpLen)) with
          | some e => simp
          | none => right; simpa [hf] using h

/-- IPREASM-body: a drop, a slot kept, a datagram delivered, or the fault of an unwritten cell (R290, R82). -/
theorem reasmBody_cases (d : Bytes) (s : State) :
    (∃ c, reasmDrop d s = some c ∧ reasmBody d s = .next ({ status := c }, s)) ∨
      (reasmDrop d s = none ∧ ∃ sl, sl = slotInsert ((slotFind s (ipId d)).getD Slot.fresh) (ipOffset d)
          (slice d Config.ipHdrLen (ipTotalLen d)) (ipDf d || !ipMf d) ∧
        ((sl.expected ≠ some sl.cursor ∧ reasmBody d s = .next ({ status := .ok, value := 0 }, s.slotPut (ipId d) sl)) ∨
          (sl.expected = some sl.cursor ∧ ∃ b, sl.buf.readRange 0 sl.cursor = some b ∧
            reasmBody d s = .next ({ status := .ok, value := 1, bytes := b }, s.slotDel (ipId d))) ∨
          (sl.expected = some sl.cursor ∧ sl.buf.readRange 0 sl.cursor = none ∧ reasmBody d s = .fault .readUnwritten))) := by
  unfold reasmBody
  cases hd : reasmDrop d s with
  | some c => exact .inl ⟨c, rfl, rfl⟩
  | none =>
    refine .inr ⟨rfl, _, rfl, ?_⟩
    simp only [slotFinish]
    split
    · rename_i he
      split
      · rename_i b hb
        exact .inr (.inl ⟨he, b, hb, rfl⟩)
      · rename_i hb
        exact .inr (.inr ⟨he, hb, rfl⟩)
    · rename_i he
      exact .inl ⟨he, rfl⟩

/-- A step with a move in the agenda performs it. -/
theorem step_of_agenda (s : State) (e : Event) (rest : List Event) (h : s.agenda = e :: rest) :
    step s = perform e { s with agenda := rest } := by
  simp [step, nextTransition, h]

/-- A step with an empty agenda is the block's own. -/
theorem step_of_nil (s : State) (h : s.agenda = []) : step s = autonomousStep s := by
  simp [step, nextTransition, h]

/-- The unit an autonomous step picks is enabled (R310). -/
theorem autonomousStep_cases (s : State) :
    (enabledUnits s = [] ∧ autonomousStep s = .next s) ∨
      ∃ u, unitEnabled u s = true ∧
        autonomousStep s = unitStep u { s with draw := Config.freeDraws s.draws, draws := s.draws + 1 } := by
  unfold autonomousStep
  cases he : enabledUnits s with
  | nil => exact .inl ⟨rfl, rfl⟩
  | cons u us =>
    refine .inr ⟨_, ?_, rfl⟩
    have hm : ∀ x ∈ u :: us, unitEnabled x s = true := fun x hx => by
      rw [← he] at hx
      exact (List.mem_filter.1 hx).2
    rw [List.getD_eq_getElem _ _ (by simpa using Nat.mod_lt _ (Nat.succ_pos us.length))]
    exact hm _ (List.getElem_mem _)

/-- The length test in the words of R181. -/
theorem lengthRefused_iff (q : QueueId) (o : Operands) (s : State) :
    lengthRefused q o s = true ↔ (q = .q4 ∧ elementLen q o ≠ 28) ∨
      (s.params.lenCheck.get q = true ∧ (elementLen q o < 46 ∨ 1500 < elementLen q o)) := by
  simp only [lengthRefused, Bool.or_eq_true, Bool.and_eq_true, beq_iff_eq, bne_iff_ne, decide_eq_true_eq]
  exact Iff.rfl

/-- The capacity test in the words of R181. -/
theorem queueFull_iff (q : QueueId) (s : State) :
    queueFull q s = true ↔ ∃ c, s.params.queueDepth.get q = some c ∧ c ≤ s.queues.len q := atCapacity_iff _ _

/-- The cache after one entry is put: that IP finds it, every other IP what it found. -/
theorem cacheFind_cachePut (s : State) (ip k : IpAddr) (e : CacheEntry) :
    cacheFind (s.cachePut ip e) k = if k = ip then some e else cacheFind s k := by
  unfold cacheFind State.cachePut
  by_cases h : k = ip
  · subst h; simp [lookup_insertSorted_self]
  · simp [h, lookup_insertSorted_other _ _ _ _ h]

/-- The reassembly map after one slot is put. -/
theorem slotFind_slotPut (s : State) (id k : Half) (sl : Slot) :
    slotFind (s.slotPut id sl) k = if k = id then some sl else slotFind s k := by
  unfold slotFind State.slotPut
  by_cases h : k = id
  · subst h; simp [lookup_insertSorted_self]
  · simp [h, lookup_insertSorted_other _ _ _ _ h]

/-- A list without the entries of one key: that key finds nothing, every other key what it found. -/
theorem lookup_filter_ne {w : Nat} {β : Type} (id k : BitVec w) (l : List (BitVec w × β)) :
    (l.filter (fun x => decide (x.1 ≠ id))).lookup k = if k = id then none else l.lookup k := by
  induction l with
  | nil => simp
  | cons b l ih =>
    obtain ⟨kb, vb⟩ := b
    by_cases hb : kb = id
    · subst hb
      rw [List.filter_cons_of_neg (by simp), ih]
      by_cases hk : k = kb
      · simp [hk]
      · simp [hk, List.lookup, beq_false_of_ne hk]
    · rw [List.filter_cons_of_pos (by simpa using hb)]
      simp only [List.lookup]
      by_cases hk : k = kb
      · subst hk; simp [hb]
      · simp only [beq_false_of_ne hk]
        exact ih

/-- The reassembly map after one slot is destroyed. -/
theorem slotFind_slotDel (s : State) (id k : Half) :
    slotFind (s.slotDel id) k = if k = id then none else slotFind s k := lookup_filter_ne id k s.reasm

/-- A unit has no input where its rule's "enabled when" finds none (R311 to R317). -/
theorem hasInput_eq_false_iff (u : Agent) (s : State) : hasInput u s = false ↔ NoInput u s := by
  cases u <;> simp [hasInput, NoInput]

/-- When a unit has an enabled step (R310). -/
theorem unitEnabled_iff (u : Agent) (s : State) :
    unitEnabled u s = true ↔ s.phase = .run ∧ s.halted.get u = false ∧ ¬ NoInput u s := by
  rw [← hasInput_eq_false_iff]
  simp [unitEnabled, and_assoc]

/-- No unit has an enabled step in CONFIG phase or where none has work (R319). -/
theorem enabledUnits_eq_nil_iff (s : State) : enabledUnits s = [] ↔ s.phase = .config ∨ NoUnitWork s := by
  have h : enabledUnits s = [] ↔ ∀ u, unitEnabled u s ≠ true := by
    simp only [enabledUnits, List.filter_eq_nil_iff]
    exact ⟨fun h u => h u (by cases u <;> decide), fun h u _ => h u⟩
  rw [h]
  simp only [ne_eq, unitEnabled_iff, NoUnitWork]
  cases s.phase with
  | config => simp
  | run =>
    simp only [true_and, reduceCtorEq, false_or]
    refine forall_congr' fun u => ?_
    cases s.halted.get u <;> simp

end Sys2Proof.Machine
end

