-- ==== Sys2Proof/Laws/PerInstr.lean ====
section
/-! SUPPORT. Statements made once per constructor of Instr. -/

namespace Sys2Proof.Laws

/-- The word of a command carries its OPC and zero reserved bits (R111, R116). -/
def EncodedFields.Statement (i : Instr) : Prop :=
  opcField (encode i) = opcodeOf i ∧ reservedLow (encode i) = 0 ∧ reservedHigh (encode i) = 0

theorem EncodedFields.csrr (n : BitVec 8) : EncodedFields.Statement (.csrr n) := by simp [EncodedFields.Statement, encode]
theorem EncodedFields.csrw (n : BitVec 8) : EncodedFields.Statement (.csrw n) := by simp [EncodedFields.Statement, encode]
theorem EncodedFields.start : EncodedFields.Statement .start := by simp [EncodedFields.Statement, encode]
theorem EncodedFields.crc32 : EncodedFields.Statement .crc32 := by simp [EncodedFields.Statement, encode]
theorem EncodedFields.crcchk : EncodedFields.Statement .crcchk := by simp [EncodedFields.Statement, encode]
theorem EncodedFields.qadd (q : BitVec 4) : EncodedFields.Statement (.qadd q) := by simp [EncodedFields.Statement, encode]
theorem EncodedFields.qpop (q : BitVec 4) : EncodedFields.Statement (.qpop q) := by simp [EncodedFields.Statement, encode]
theorem EncodedFields.qempty (q : BitVec 4) : EncodedFields.Statement (.qempty q) := by simp [EncodedFields.Statement, encode]
theorem EncodedFields.fenc : EncodedFields.Statement .fenc := by simp [EncodedFields.Statement, encode]
theorem EncodedFields.fdec : EncodedFields.Statement .fdec := by simp [EncodedFields.Statement, encode]
theorem EncodedFields.arpfind : EncodedFields.Statement .arpfind := by simp [EncodedFields.Statement, encode]
theorem EncodedFields.arpins (t : BitVec 2) : EncodedFields.Statement (.arpins t) := by simp [EncodedFields.Statement, encode]
theorem EncodedFields.arpupd (t : BitVec 2) : EncodedFields.Statement (.arpupd t) := by simp [EncodedFields.Statement, encode]
theorem EncodedFields.arprx : EncodedFields.Statement .arprx := by simp [EncodedFields.Statement, encode]
theorem EncodedFields.arpreq : EncodedFields.Statement .arpreq := by simp [EncodedFields.Statement, encode]
theorem EncodedFields.ipcsum : EncodedFields.Statement .ipcsum := by simp [EncodedFields.Statement, encode]
theorem EncodedFields.ipfrag : EncodedFields.Statement .ipfrag := by simp [EncodedFields.Statement, encode]
theorem EncodedFields.ipreasm : EncodedFields.Statement .ipreasm := by simp [EncodedFields.Statement, encode]

end Sys2Proof.Laws
end

