-- ==== Sys2Proof/Tests/Slice0.lean ====
section
/-! SUPPORT. Tests of decoding against words written out from R111 and R116, small steps checked against 95_test_vectors.md and the
rules' own examples, and a witness for the hypotheses of each statement. -/

namespace Sys2Proof.Tests

open Sys2Proof.Machine

/-! ## Helpers -/

/-- The next state of an outcome. -/
def nextOf (o : Host.Outcome State Fault Refusal) : Option State :=
  match o with
  | .next t => some t
  | .fault _ => none
  | .refused _ => none

/-- The result records after an outcome. -/
def resultsOf (o : Host.Outcome State Fault Refusal) : Option (List Result) := (nextOf o).map (·.results)

/-- Node A of 95_test_vectors.md section 1, in CONFIG phase. -/
def nodeA : State :=
  { State.reset with
    csrs := ⟨0x00000200, 0x00000001, 0xC0A8010A, 0xC0A80101, 0xFFFFFF00, 0x0000FFFF, 0xFFFFFFFF, 0xC0A80114, 0x00401234, 0⟩ }

/-- Node B of 95_test_vectors.md section 1, the peer. -/
def nodeB : State :=
  { State.reset with
    csrs := ⟨0x00000200, 0x00000002, 0xC0A80114, 0xC0A80101, 0xFFFFFF00, 0x0000FFFF, 0xFFFFFFFF, 0xC0A8010A, 0x00401234, 1⟩ }

/-- A node with an operand record on its port. -/
def withOps (s : State) (o : Operands) : State := { s with ops := o }

/-- Node A in RUN phase. -/
def nodeRun : State := { nodeA with phase := .run }

/-- No draw made. -/
def noDraw : Config.Draws := ⟨false, false, false⟩

/-- REQ of 95_test_vectors.md section 1. -/
def req : Bytes :=
  [0x00, 0x01, 0x08, 0x00, 0x06, 0x04, 0x00, 0x01, 0x02, 0x00, 0x00, 0x00, 0x00, 0x01, 0xc0, 0xa8, 0x01, 0x0a, 0x00, 0x00, 0x00, 0x00,
    0x00, 0x00, 0xc0, 0xa8, 0x01, 0x14]

/-- REP of 95_test_vectors.md section 1. -/
def rep : Bytes :=
  [0x00, 0x01, 0x08, 0x00, 0x06, 0x04, 0x00, 0x02, 0x02, 0x00, 0x00, 0x00, 0x00, 0x02, 0xc0, 0xa8, 0x01, 0x14, 0x02, 0x00, 0x00, 0x00,
    0x00, 0x01, 0xc0, 0xa8, 0x01, 0x0a]

/-- An IP unit of 61 bytes for ID 0x1234: flags word `hi`, `lo`, one payload byte 7. -/
def unit61 (hi lo : Byte) : Bytes := [0x4F, 0, 0, 61, 0x12, 0x34, hi, lo] ++ zeros 52 ++ [7]

/-- The slot that unit 61 with MF = 1 and offset 0 leaves. -/
def slot61 : Slot := { buf := [(0, 7)], cursor := 1, recs := [⟨0, 1⟩], expected := none }

/-- Node B with that slot. -/
def nodeSlot : State := { nodeB with reasm := [(0x1234, slot61)] }

/-- Node A with one cache entry, 192.168.1.1. -/
def nodeCache : State := { nodeA with cache := [(0xC0A80101, ⟨0x0200000000fe, .static⟩)] }

/-- A node with one element in every queue. -/
def nodeFull : State := { nodeA with
  queues := ⟨[⟨2, 0x0800, []⟩], [⟨2, 0x0806, rep⟩], [⟨6, [1]⟩], [zeros 60], [rep], [0xC0A80114], [[1]]⟩ }

/-- A capacity of one entry in every table, a depth of one in every queue, LEN_CHECK as in the reference. -/
def tight : Config.Params :=
  { queueDepth := ⟨some 1, some 1, some 1, some 1, some 1, some 1, some 1⟩, lenCheck := Config.Params.reference.lenCheck,
    arpCap := some 1, reasmSlots := some 1 }

/-- LEN_CHECK everywhere. -/
def checkedAll : Config.Params := { Config.Params.reference with lenCheck := ⟨true, true, true, true, true, true, true⟩ }

/-! ## Well-formedness: each check refuses an ill-formed term -/

theorem test_wellFormed_refuses :
    (Instr.csrr 0x0B).wellFormed = false ∧ (Instr.csrw 0xFF).wellFormed = false ∧ (Instr.qadd 7).wellFormed = false ∧
      (Instr.qpop 15).wellFormed = false ∧ (Instr.qempty 7).wellFormed = false ∧ (Instr.arpins 3).wellFormed = false ∧
      (Instr.arpupd 3).wellFormed = false := by decide

theorem test_wellFormed_accepts :
    (Instr.csrr 0x0A).wellFormed = true ∧ (Instr.qadd 6).wellFormed = true ∧ (Instr.arpins 2).wellFormed = true := by decide

/-! ## Decoding: words of R116 and of 95_test_vectors.md -/

theorem test_decode_system : decode 0x000A0001#32 = .ok (.csrr 0x0A) ∧ decode 0x00090002#32 = .ok (.csrw 0x09) ∧
    decode 0b00000000000000000000000000000011#32 = .ok .start := by decide
theorem test_decode_crc : decode 0b00000000000000000000000000001000#32 = .ok .crc32 ∧
    decode 0b00000000000000000000000000001001#32 = .ok .crcchk := by decide
theorem test_decode_queue : decode 0b00000000000000000000001100010000#32 = .ok (.qadd 3) ∧
    decode 0b00000000000000000000011000010001#32 = .ok (.qpop 6) ∧ decode 0x00000612#32 = .ok (.qempty 6) := by decide
theorem test_decode_frame : decode 0b00000000000000000000000000100000#32 = .ok .fenc ∧
    decode 0b00000000000000000000000000100001#32 = .ok .fdec := by decide
theorem test_decode_arp : decode 0x00000030#32 = .ok .arpfind ∧ decode 0b00000000000000000010000000110001#32 = .ok (.arpins 2) ∧
    decode 0x00001032#32 = .ok (.arpupd 1) ∧ decode 0x00000033#32 = .ok .arprx ∧ decode 0x00000034#32 = .ok .arpreq := by decide
theorem test_decode_ip : decode 0b00000000000000000000000001000000#32 = .ok .ipcsum ∧ decode 0x00000041#32 = .ok .ipfrag ∧
    decode 0x00000042#32 = .ok .ipreasm := by decide
/-- VI1 to VI12 of 95_test_vectors.md section 8.1. -/
theorem test_decode_illegal : ([0x00000000#32, 0x00000004#32, 0x000000FF#32, 0x00004008#32, 0x01000003#32, 0x00000108#32, 0x00001030#32,
    0x00010003#32, 0x00000710#32, 0x00003031#32, 0x000B0001#32, 0x00FF0002#32].map
      (fun w => match decode w with | .error e => some e | .ok _ => none)) =
    [some .unknownOpcode, some .unknownOpcode, some .unknownOpcode, some .reservedBits, some .reservedBits, some .unusedField,
      some .unusedField, some .unusedField, some .queueRange, some .tagRange, some .csrRange, some .csrRange] := by decide
theorem test_encode_words : encode (.csrr 0x0A) = 0x000A0001#32 ∧ encode (.qadd 3) = 0x00000310#32 ∧
    encode (.arpupd 1) = 0x00001032#32 := by decide
theorem test_table_word : decodeTableWord 32 0x0310 = some (.qadd 3) ∧ decodeTableWord 32 0x0710 = none := by decide
/-- Every row of the opcode table, fields zero, runs as the first instruction after reset. -/
theorem test_rows_run_after_reset : ([0x1, 0x2, 0x3, 0x8, 0x9, 0x10, 0x11, 0x12, 0x20, 0x21, 0x30, 0x31, 0x32, 0x33, 0x34, 0x40, 0x41,
    0x42].all fun w => (nextOf (step (State.reset.withFetchWord 32 w))).isSome) = true := by decide

/-! ## System commands: 95_test_vectors.md section 8.2 -/

/-- VX1, VX2. -/
theorem test_csrr_reset_values : resultsOf (exec (.csrr 0x06) State.reset) = some [{ status := .ok, value := 0xFFFFFFFF }] ∧
    resultsOf (exec (.csrr 0x05) State.reset) = some [{ status := .ok, value := 0x0000FFFF }] := by decide
/-- VX4. -/
theorem test_csrw_mode_mask : (nextOf (exec (.csrw 0x09) (withOps State.reset { val := 0xFFFFFFFF }))).map (·.csrs.mode) = some 1 := by
  decide
/-- VX6. -/
theorem test_csrw_status_read_only : resultsOf (exec (.csrw 0x0A) (withOps State.reset { val := 1 })) = some [{ status := .csrRo }] := by
  decide
/-- VX7. -/
theorem test_start : (nextOf (exec .start State.reset)).map statusWord = some 0x00000001 := by decide

/-! ## CRC: 95_test_vectors.md section 3 -/

/-- VC4. -/
theorem test_crc32_check_value : crc32 [0x31, 0x32, 0x33, 0x34, 0x35, 0x36, 0x37, 0x38, 0x39] = 0xCBF43926#32 := by decide +kernel
/-- The anchors of R160. -/
theorem test_crc_table : crcTable 0 = 0 ∧ crcTable 1 = 0x77073096 ∧ crcTable 8 = 0x0EDB8832 ∧ crcTable 128 = 0xEDB88320 ∧
    crcTable 255 = 0x2D02EF8D := by decide
/-- VK4. -/
theorem test_crcchk_short : resultsOf (exec .crcchk (withOps nodeA { d := [0, 0, 0] })) = some [{ status := .frameShort }] := by decide
/-- VK3. -/
theorem test_crcchk_empty_payload : resultsOf (exec .crcchk (withOps nodeA { d := [0, 0, 0, 0] })) = some [{ status := .ok }] := by
  decide +kernel

/-! ## Queues: 95_test_vectors.md section 4 -/

/-- VQ1. -/
theorem test_qadd_short : resultsOf (exec (.qadd 3) (withOps nodeA { d := zeros 45 })) = some [{ status := .qRejectLen }] := by decide
/-- VQ16: the length test comes before the capacity test. -/
theorem test_qadd_length_first : resultsOf (exec (.qadd 3) { withOps nodeA { d := zeros 45 } with
    params := tight, queues := { Queues.empty with q3 := [zeros 46] } }) = some [{ status := .qRejectLen }] := by decide
/-- VQ13. -/
theorem test_qpop_ip : resultsOf (exec (.qpop 5) { nodeA with queues := { Queues.empty with q5 := [0xC0A80114] } }) =
    some [{ status := .ok, ip := 0xC0A80114 }] := by decide
/-- VQ10. -/
theorem test_qempty_reset : resultsOf (exec (.qempty 6) nodeA) = some [{ status := .ok, value := 1 }] := by decide

/-! ## Frames: 95_test_vectors.md section 5 -/

/-- VE3. -/
theorem test_fenc_empty : resultsOf (exec .fenc (withOps nodeA { mac := 0x020000000002, et := 0x0800 })) =
    some [{ status := .ok, bytes := [0x02, 0, 0, 0, 0, 0x02, 0x02, 0, 0, 0, 0, 0x01, 0x08, 0x00, 0, 0, 0, 0] }] := by decide +kernel
/-- VD8. -/
theorem test_fdec_empty : resultsOf (exec .fdec (withOps nodeB
      { d := [0x02, 0, 0, 0, 0, 0x02, 0x02, 0, 0, 0, 0, 0x01, 0x08, 0x00, 0, 0, 0, 0], wl := 18 })) =
    some [{ status := .ok, et := 0x0800 }] := by decide +kernel

/-! ## ARP: 95_test_vectors.md section 6 -/

/-- VA5. -/
theorem test_arpfind_first_miss : (nextOf (exec .arpfind (withOps nodeA { ip := 0xC0A80114 }))).map
    (fun t => (t.queues.q5, t.pending)) = some ([0xC0A80114], [0xC0A80114]) := by decide
/-- VA6 and VA7: the draw decides a repeated miss. -/
theorem test_arpfind_repeated_miss : ([false, true].map fun b => (nextOf (exec .arpfind { withOps nodeA { ip := 0xC0A80114 } with
    pending := [0xC0A80114], draw := ⟨b, false, false⟩ })).map (·.queues.q5.length)) = [some 0, some 1] := by decide
/-- VA2. -/
theorem test_arpins_present : resultsOf (exec (.arpins 0) (withOps nodeCache { ip := 0xC0A80101, mac := 0x0200000000fe })) =
    some [{ status := .arpExists }] := by decide
/-- VA3. -/
theorem test_arpupd_overwrites : (nextOf (exec (.arpupd 1) (withOps nodeCache { ip := 0xC0A80101, mac := 0x0200000000fd }))).map (·.cache) =
    some [(0xC0A80101, ⟨0x0200000000fd, .dynamic⟩)] := by decide
/-- VA10. -/
theorem test_arprx_answers : resultsOf (exec .arprx (withOps nodeB { d := req })) =
    some [{ status := .ok, mac := 0x020000000001, et := 0x0806, bytes := rep }] := by decide
/-- VA11. -/
theorem test_arprx_learns : (nextOf (exec .arprx { withOps nodeA { d := rep } with pending := [0xC0A80114] })).map
    (fun t => (t.cache, t.pending)) = some ([(0xC0A80114, ⟨0x020000000002, .dynamic⟩)], []) := by decide
/-- VA9. -/
theorem test_arpreq : resultsOf (exec .arpreq (withOps nodeA { ip := 0xC0A80114 })) =
    some [{ status := .ok, mac := 0xffffffffffff, et := 0x0806, ip := 0xC0A80114, bytes := req }] := by decide

/-! ## IP: 95_test_vectors.md section 7 -/

/-- VS6. -/
theorem test_ipcsum_example : csum [0x45, 0, 0, 0x73, 0, 0, 0x40, 0, 0x40, 0x11, 0, 0, 0xc0, 0xa8, 0, 1, 0xc0, 0xa8, 0, 0xc7] = 0xB861#16 := by
  decide +kernel
/-- VS3: an odd length is padded. -/
theorem test_ipcsum_odd : csum [1] = 0xFEFF#16 := by decide +kernel
/-- Section 7.2, the empty payload. -/
theorem test_ipfrag_empty : resultsOf (exec .ipfrag (withOps nodeA { proto := 1 })) =
    some [{ status := .ok, list := [[0x4f, 0, 0, 0x3c, 0x12, 0x34, 0x40, 0, 0x40, 0x01, 0x9b, 0x1e, 0xc0, 0xa8, 0x01, 0x0a, 0xc0, 0xa8, 0x01,
      0x14] ++ zeros 40] }] := by decide +kernel
/-- VF6: an exact multiple of 1400 has an empty last datagram. -/
theorem test_ipfrag_exact_multiple : (resultsOf (exec .ipfrag (withOps nodeA { proto := 6, d := zeros 1400 }))).map
    (fun rs => rs.flatMap fun r => r.list.map List.length) = some [1460, 60] := by decide +kernel
/-- VR9. -/
theorem test_ipreasm_short : resultsOf (exec .ipreasm (withOps nodeB { d := zeros 59 })) = some [{ status := .ipShort }] := by decide
/-- R290: a unit with DF = 1 completes at once. -/
theorem test_ipreasm_whole : resultsOf (exec .ipreasm (withOps nodeB { d := unit61 0x40 0 })) =
    some [{ status := .ok, value := 1, bytes := [7] }] := by decide +kernel
/-- R290, R293: MF = 1 at offset 0 moves the cursor and waits. -/
theorem test_ipreasm_waits : (nextOf (exec .ipreasm (withOps nodeB { d := unit61 0x20 0 }))).map (·.reasm) =
    some [(0x1234, slot61)] := by decide +kernel
theorem test_scan_longest : scan [⟨0, 2⟩, ⟨0, 4⟩, ⟨4, 0⟩, ⟨4, 3⟩, ⟨8, 1⟩] 0 = 7 := by decide
theorem test_memory_overwrite : Memory.readRange (Memory.write (Memory.write [] 4 [1, 2, 3]) 5 [9]) 4 3 = some [1, 9, 3] := by decide

/-! ## Units -/

/-- R311: LS halts on a transport error, and the element is consumed (95_test_vectors.md P4). -/
theorem test_linkSend_fault : (nextOf (step { nodeRun with
    queues := { Queues.empty with q0 := [⟨2, 0x0800, []⟩] }, agenda := [.turn .linkSend ⟨false, false, true⟩] })).map
    (fun t => (statusWord t, t.log, t.queues.q0.length)) = some (0x00000003, [⟨.linkSend, .transportFault⟩], 0) := by decide +kernel
/-- R316: AS broadcasts REQ. -/
theorem test_arpSend_request : (nextOf (step { nodeRun with
    queues := { Queues.empty with q5 := [0xC0A80114] }, agenda := [.turn .arpSend noDraw] })).map (·.queues.q1) =
    some [⟨0xffffffffffff, 0x0806, req⟩] := by decide +kernel
/-- R310: in CONFIG phase no unit steps. -/
theorem test_config_no_step : (nextOf (step { nodeA with
    queues := { Queues.empty with q5 := [0xC0A80114] }, agenda := [.turn .arpSend noDraw] })).map (·.queues.q5.length) = some 1 := by
  decide +kernel
/-- R370: reset discards a capture offered and halts. -/
theorem test_reset_discards : (nextOf (step { nodeRun with
    offered := [.error], halted := ⟨true, true, false, false, false, false⟩, agenda := [.reset] })).map
    (fun t => (t.offered, statusWord t)) = some ([], 0) := by decide +kernel

/-! ## Witnesses: for the hypotheses of each statement of Obligations.lean that has some, states and operands that meet them together,
one for each clause, at the ends of ranges -/

theorem inv_nodeA : nodeA.Inv where
  reserved := by intro n; cases n <;> decide
  cacheSorted := List.Pairwise.nil
  cacheFits := by intro c h; cases h
  pendingSorted := List.Pairwise.nil
  pendingAbsent := by intro ip h; cases h
  queuesFit := by intro q; cases q <;> (intro c h; cases h)
  arpElems := by intro a h; cases h
  lengthsChecked := by intro q _ n h; cases q <;> cases h
  reasmSorted := List.Pairwise.nil
  reasmFits := by intro c h; cases h
  slots := by intro x h; cases h
  haltsLink := ⟨rfl, rfl, rfl, rfl⟩
  configQuiet := fun _ => ⟨rfl, rfl, rfl⟩
  workLens := by intro d h; cases h

theorem inv_nodeB : nodeB.Inv where
  reserved := by intro n; cases n <;> decide
  cacheSorted := List.Pairwise.nil
  cacheFits := by intro c h; cases h
  pendingSorted := List.Pairwise.nil
  pendingAbsent := by intro ip h; cases h
  queuesFit := by intro q; cases q <;> (intro c h; cases h)
  arpElems := by intro a h; cases h
  lengthsChecked := by intro q _ n h; cases q <;> cases h
  reasmSorted := List.Pairwise.nil
  reasmFits := by intro c h; cases h
  slots := by intro x h; cases h
  haltsLink := ⟨rfl, rfl, rfl, rfl⟩
  configQuiet := fun _ => ⟨rfl, rfl, rfl⟩
  workLens := by intro d h; cases h

theorem inv_slot61 : slot61.Inv where
  buf := by decide
  recsSorted := by decide
  recsInside := by decide
  recsWritten := by
    intro r hr i h1 h2
    obtain rfl := List.mem_singleton.1 hr
    obtain rfl : i = 0 := by simpa using h2
    rfl
  cursorChain := Chain.next (c := 0) (L := 1) Chain.start (by decide) (by decide)
  cursorInside := by decide
  cursorWritten := by
    intro i h1 h2
    obtain rfl : i = 0 := by simpa [slot61] using h2
    rfl
  cursorStopped := by decide
  expectedInside := by intro e h; cases h
  incomplete := by decide

theorem inv_nodeSlot : nodeSlot.Inv where
  reserved := by intro n; cases n <;> decide
  cacheSorted := List.Pairwise.nil
  cacheFits := by intro c h; cases h
  pendingSorted := List.Pairwise.nil
  pendingAbsent := by intro ip h; cases h
  queuesFit := by intro q; cases q <;> (intro c h; cases h)
  arpElems := by intro a h; cases h
  lengthsChecked := by intro q _ n h; cases q <;> cases h
  reasmSorted := List.pairwise_singleton _ _
  reasmFits := by intro c h; cases h
  slots := by intro x h; obtain rfl := List.mem_singleton.1 h; exact inv_slot61
  haltsLink := ⟨rfl, rfl, rfl, rfl⟩
  configQuiet := fun _ => ⟨rfl, rfl, rfl⟩
  workLens := by intro d h; cases h

/-- The operand record on the port has no part in the invariant. -/
theorem inv_withOps (s : State) (o : Operands) (h : s.Inv) : (withOps s o).Inv where
  reserved := by intro n; have hn := h.reserved n; cases n <;> exact hn
  cacheSorted := h.cacheSorted
  cacheFits := h.cacheFits
  pendingSorted := h.pendingSorted
  pendingAbsent := h.pendingAbsent
  queuesFit := h.queuesFit
  arpElems := h.arpElems
  lengthsChecked := h.lengthsChecked
  reasmSorted := h.reasmSorted
  reasmFits := h.reasmFits
  slots := h.slots
  haltsLink := h.haltsLink
  configQuiet := h.configQuiet
  workLens := h.workLens

/-- Node A in RUN phase with one move in its agenda. -/
def moved (e : Event) : State := { nodeRun with agenda := [e] }

/-- A frame FENC builds at node A for node B: the payload of a reply, or an IPv4 payload `d`. -/
def sent (et : Half) (d : Bytes) : State := withOps nodeA { mac := 0x020000000002, et := et, d := d }

/-- The frame of `sent`. -/
def sentFrame (et : Half) (d : Bytes) : Bytes := encodeFrame nodeA 0x020000000002 et d

/-- Node B with a capture on its port. -/
def captured (f : Bytes) : State := withOps nodeB { d := f, wl := BitVec.ofNat 32 f.length }

theorem witness_DecodeOfEncodeIsInstruction : [Instr.csrr 0x0A, .csrw 0, .qadd 6, .qpop 0, .qempty 3, .arpins 2, .arpupd 0, .start].all
    (·.wellFormed) = true := by decide

theorem witness_EncodeOfDecodeIsWord : decode 0x000A0001#32 = .ok (.csrr 0x0A) := by decide

theorem witness_StepRunsDecodedInstruction :
    (moved (.command 0x00000610 { d := [1] } noDraw)).agenda = [.command 0x00000610 { d := [1] } noDraw] ∧
      decode 0x00000610#32 = .ok (.qadd 6) ∧ decodeTableWord 32 0x00000610 = some (.qadd 6) := by decide

theorem witness_IllegalWordOnlyReports :
    ((moved (.command 0x00000710 {} noDraw)).agenda = [.command 0x00000710 {} noDraw] ∧ decode 0x00000710#32 = .error .queueRange) ∧
      (Instr.qadd 7).wellFormed = false := by decide

theorem witness_CsrrReturnsMaskedRegister : (0x0A#8 ≤ 0x0A#8) ∧ (0x00#8 ≤ 0x0A#8) := by decide

theorem witness_StatusRegisterBits : nodeA.Inv ∧ 3 ≤ 3 ∧ 6 ≤ 6 := ⟨inv_nodeA, by decide⟩

theorem witness_CsrwWritesUnderMask : nodeA.phase = .config := rfl

theorem witness_CsrWriteReadBack : (withOps nodeA { val := 0xFFFFFFFF }).phase = .config ∧ 0x09#8 ≤ 0x09#8 ∧ 0x0A#8 ≠ 0x09#8 ∧
    0x0A#8 ≤ 0x0A#8 ∧ exec (.csrr 0x0A) (withOps nodeA { val := 0xFFFFFFFF }) =
      .next ((withOps nodeA { val := 0xFFFFFFFF }).respond { status := .ok, value := 0 }) := ⟨rfl, by decide, by decide, by decide, rfl⟩

theorem witness_CsrwRefusedWhereReadOnly : (0x0A#8 ≤ 0x0A#8 ∧ (0x0A#8 = 0x0A#8 ∨ nodeA.phase = .run)) ∧
    (0x00#8 ≤ 0x0A#8 ∧ (0x00#8 = 0x0A#8 ∨ nodeRun.phase = .run)) := by decide

theorem witness_OnlyStartAndResetChangePhase : ∃ t, step { nodeA with agenda := [.command 3 {} noDraw] } = .next t := ⟨_, rfl⟩

theorem witness_ResetRestoresTable : (moved .reset).agenda = .reset :: [] := rfl

theorem witness_CrcDetectsSingleByteChange : (0x00 : Byte) ≠ 0x80 := by decide

theorem witness_CrcchkComparesTrailer :
    (withOps nodeA { d := [0x61] ++ be32 (crc32 [0x61]) }).ops.d = [0x61] ++ be32 (crc32 [0x61]) ∧
      (withOps nodeA { d := [0x61] ++ be32 0 }).ops.d = [0x61] ++ be32 0 ∧ crc32 [0x61] ≠ 0 ∧
      (withOps nodeA { d := [1, 2, 3] }).ops.d.length < 4 := by decide +kernel

/-- A queue of a node has room where its depth is infinite. -/
theorem room_reference (s : State) (q : QueueId) (h : s.params = Config.Params.reference) :
    ∀ c, s.params.queueDepth.get q = some c → s.queues.len q < c := by
  intro c hc
  rw [h] at hc
  cases q <;> cases hc

/-- A queue of node A has room where LEN_CHECK is set everywhere. -/
theorem room_checkedAll (s : State) (q : QueueId) (h : s.params = checkedAll) :
    ∀ c, s.params.queueDepth.get q = some c → s.queues.len q < c := by
  intro c hc
  rw [h] at hc
  cases q <;> cases hc

/-- A bad length (Q3, 45 bytes), a full queue (Q6, one element under a depth of one), an admitted element (Q4, 28 bytes). -/
theorem witness_QaddFollowsAdmission :
    (∃ s : State, queueOf 3 = some .q3 ∧ 45 = s.ops.d.length ∧ s.params.lenCheck.get .q3 = true) ∧
    (∃ s : State, queueOf 6 = some .q6 ∧ 1 = s.ops.d.length ∧ s.params.lenCheck.get .q6 = false ∧
      ∃ c, s.params.queueDepth.get .q6 = some c ∧ ¬ s.queues.len .q6 < c) ∧
    ∃ s : State, queueOf 4 = some .q4 ∧ 28 = s.ops.d.length ∧ s.params.lenCheck.get .q4 = false ∧
      ¬ ∃ c, s.params.queueDepth.get .q4 = some c ∧ ¬ s.queues.len .q4 < c :=
  ⟨⟨withOps nodeA { d := zeros 45 }, by decide⟩,
    ⟨{ withOps nodeFull { d := [1] } with params := tight }, rfl, rfl, rfl, 1, rfl, by decide⟩,
    ⟨withOps nodeA { d := rep }, rfl, rfl, rfl, fun ⟨c, h, _⟩ => by cases h⟩⟩

theorem witness_QaddLengthBoundary (q : QueueId) :
    checkedAll.lenCheck.get q = true ∧
      (∀ c, ({ nodeA with params := checkedAll } : State).params.queueDepth.get q = some c →
        ({ nodeA with params := checkedAll } : State).queues.len q < c) ∧
      [45, 46, 1500, 1501].map (fun n => (withOps { nodeA with params := checkedAll } { d := zeros n }).ops.d.length) =
        [45, 46, 1500, 1501] ∧
      queueOf 0 = some .q0 ∧ queueOf 4 = some .q4 ∧ queueOf 5 = some .q5 :=
  ⟨by cases q <;> rfl, room_checkedAll _ q rfl, by simp [withOps, zeros], rfl, rfl, rfl⟩

/-- Two elements through Q0. -/
theorem witness_QueueDeliversInOrder : queueOf 0 = some .q0 ∧ nodeRun.queues.len .q0 = 0 ∧
    (∀ o ∈ [({ d := [1] } : Operands), { d := [2] }], lengthRefused .q0 o nodeRun = false) ∧
    (∀ c, nodeRun.params.queueDepth.get .q0 = some c → [({ d := [1] } : Operands), { d := [2] }].length ≤ c) :=
  ⟨rfl, rfl, by decide, by intro c hc; cases hc⟩

theorem witness_QpopTakesHead : (queueOf 6 = some .q6 ∧ nodeA.queues.len .q6 = 0) ∧ nodeFull.queues.q0 = [⟨2, 0x0800, []⟩] ∧
    nodeFull.queues.q1 = [⟨2, 0x0806, rep⟩] ∧ nodeFull.queues.q2 = [⟨6, [1]⟩] ∧ nodeFull.queues.q3 = [zeros 60] ∧
    nodeFull.queues.q4 = [rep] ∧ nodeFull.queues.q5 = [0xC0A80114] ∧ nodeFull.queues.q6 = [[1]] := by decide

theorem witness_QemptyReportsEmptiness : queueOf 0 = some .q0 ∧ queueOf 6 = some .q6 := by decide

theorem witness_FdecGates : (captured (zeros 17)).ops.d = zeros 17 ∧ (zeros 17).length = 17 ∧ (captured (zeros 18)).ops.d.length = 18 := by
  decide

/-- IPv4; ARP with 28 bytes; ARP with 23 bytes. -/
theorem witness_FrameRoundTrip :
    (exec .fenc (sent 0x0800 [1]) = .next ((sent 0x0800 [1]).respond { status := .ok, bytes := sentFrame 0x0800 [1] }) ∧
      (sent 0x0800 [1]).ops.mac = localMac (captured (sentFrame 0x0800 [1])) ∧ (sent 0x0800 [1]).ops.et = 0x0800#16 ∧
      (sentFrame 0x0800 [1]).length < 2 ^ 32 ∧ (captured (sentFrame 0x0800 [1])).ops.d = sentFrame 0x0800 [1] ∧
      (captured (sentFrame 0x0800 [1])).ops.wl.toNat = (sentFrame 0x0800 [1]).length) ∧
    (exec .fenc (sent 0x0806 req) = .next ((sent 0x0806 req).respond { status := .ok, bytes := sentFrame 0x0806 req }) ∧
      (sent 0x0806 req).ops.mac = localMac (captured (sentFrame 0x0806 req)) ∧ (sent 0x0806 req).ops.et = 0x0806#16 ∧
      24 ≤ (sent 0x0806 req).ops.d.length ∧ (sentFrame 0x0806 req).length < 2 ^ 32 ∧
      (captured (sentFrame 0x0806 req)).ops.wl.toNat = (sentFrame 0x0806 req).length) ∧
    (sent 0x0806 (zeros 23)).ops.et = 0x0806#16 ∧ (sent 0x0806 (zeros 23)).ops.d.length < 24 ∧
      (captured (sentFrame 0x0806 (zeros 23))).ops.wl.toNat = (sentFrame 0x0806 (zeros 23)).length :=
  ⟨⟨rfl, by decide +kernel⟩, ⟨rfl, by decide +kernel⟩, by decide +kernel⟩

/-- The last header byte, the first payload byte, the last trailer byte. -/
theorem witness_FrameByteErrorCoverage :
    exec .fenc (sent 0x0800 [1]) = .next ((sent 0x0800 [1]).respond { status := .ok, bytes := sentFrame 0x0800 [1] }) ∧
    ([13, 14, 18].all fun i => decide (i < (sentFrame 0x0800 [1]).length) && byteAt (sentFrame 0x0800 [1]) i != 0xEE &&
      (captured ((sentFrame 0x0800 [1]).set i 0xEE)).ops.d == (sentFrame 0x0800 [1]).set i 0xEE) = true :=
  ⟨rfl, by decide +kernel⟩

theorem witness_ArpfindHit : cacheFind (withOps nodeCache { ip := 0xC0A80101 }) 0xC0A80101 = some ⟨0x0200000000fe, .static⟩ := by decide

/-- A first miss enqueues; a miss for a pending IP without the draw, and one on a full Q5, do not. -/
theorem witness_ArpfindMiss :
    (∃ s : State, cacheFind s s.ops.ip = none ∧ (s.ops.ip ∉ s.pending ∨ s.draw.arpRedundant = true) ∧ s.params.lenCheck.q5 = false ∧
      ∀ c, s.params.queueDepth.q5 = some c → s.queues.q5.length < c) ∧
    (∃ s : State, cacheFind s s.ops.ip = none ∧ ¬ (s.ops.ip ∉ s.pending ∨ s.draw.arpRedundant = true)) ∧
    ∃ s : State, cacheFind s s.ops.ip = none ∧ s.ops.ip ∉ s.pending ∧ ¬ ∀ c, s.params.queueDepth.q5 = some c → s.queues.q5.length < c :=
  ⟨⟨withOps nodeA { ip := 0xC0A80114 }, by decide, by decide, rfl, by intro c h; cases h⟩,
    ⟨{ withOps nodeA { ip := 0xC0A80114 } with pending := [0xC0A80114] }, by decide⟩,
    ⟨{ withOps nodeFull { ip := 0xC0A80114 } with params := tight }, by decide, by decide, fun h => absurd (h 1 rfl) (by decide)⟩⟩

/-- The IP present; absent and the table full; absent with room for one. -/
theorem witness_ArpinsInserts : tagOf 2 = some .logged ∧
    (∃ s : State, cacheFind s s.ops.ip ≠ none) ∧
    (∃ s : State, cacheFind s s.ops.ip = none ∧ s.params.arpCap = some s.cache.length) ∧
    ∃ s : State, cacheFind s s.ops.ip = none ∧ s.params.arpCap = some 1 ∧ ∀ c, s.params.arpCap = some c → s.cache.length < c :=
  ⟨by decide, ⟨withOps nodeCache { ip := 0xC0A80101 }, by decide⟩,
    ⟨{ withOps nodeCache { ip := 0xC0A80114 } with params := tight }, by decide⟩,
    ⟨{ withOps nodeA { ip := 0xC0A80114 } with params := tight }, by decide, rfl, by intro c h; cases h; decide⟩⟩

theorem witness_ArpupdUpdates : tagOf 0 = some .static ∧ (∃ s : State, cacheFind s s.ops.ip = none) ∧
    ∃ s : State, cacheFind s s.ops.ip ≠ none :=
  ⟨rfl, ⟨nodeCache, by decide⟩, ⟨withOps nodeCache { ip := 0xC0A80101 }, by decide⟩⟩

/-- A full table without the sender; a full table that holds it; room for it. -/
theorem witness_ArprxLearnsReply :
    (∃ s : State, s.csrs.mode.getLsbD 0 = false ∧ 28 ≤ s.ops.d.length ∧ rd16 s.ops.d 6 = 2#16 ∧
      cacheFind s (rd32 s.ops.d 14) = none ∧ s.params.arpCap = some s.cache.length) ∧
    (∃ s : State, s.csrs.mode.getLsbD 0 = false ∧ 28 ≤ s.ops.d.length ∧ rd16 s.ops.d 6 = 2#16 ∧
      cacheFind s (rd32 s.ops.d 14) ≠ none ∧ s.params.arpCap = some s.cache.length) ∧
    ∃ s : State, s.csrs.mode.getLsbD 0 = false ∧ 28 ≤ s.ops.d.length ∧ rd16 s.ops.d 6 = 2#16 ∧
      ∀ c, s.params.arpCap = some c → s.cache.length < c :=
  ⟨⟨{ withOps nodeCache { d := rep } with params := tight }, by decide⟩,
    ⟨{ withOps nodeA { d := rep } with params := tight, cache := [(0xC0A80114, ⟨1, .static⟩)] }, by decide⟩,
    ⟨{ withOps nodeA { d := rep } with params := tight }, by decide, by decide, by decide, by intro c h; cases h; decide⟩⟩

theorem witness_ArprxAnswersRequest : ∃ s : State, s.csrs.mode.getLsbD 0 = true ∧ 28 ≤ s.ops.d.length ∧ rd16 s.ops.d 6 = 1#16 ∧
    rd32 s.ops.d 24 = s.csrs.lip := ⟨withOps nodeB { d := req }, by decide⟩

/-- 27 bytes; a reply at a peer; a request at an originator; a request for another IP. -/
theorem witness_ArprxRefusals :
    (∃ s : State, s.ops.d.length = 27 ∧ s.ops.d.length < 28) ∧
    (∃ s : State, 28 ≤ s.ops.d.length ∧ isPeer s = true ∧ rd16 s.ops.d 6 ≠ (if s.csrs.mode.getLsbD 0 then 1#16 else 2#16)) ∧
    (∃ s : State, 28 ≤ s.ops.d.length ∧ isPeer s = false ∧ rd16 s.ops.d 6 ≠ (if s.csrs.mode.getLsbD 0 then 1#16 else 2#16)) ∧
    ∃ s : State, 28 ≤ s.ops.d.length ∧ s.csrs.mode.getLsbD 0 = true ∧ rd16 s.ops.d 6 = 1#16 ∧ rd32 s.ops.d 24 ≠ s.csrs.lip :=
  ⟨⟨withOps nodeB { d := zeros 27 }, by decide⟩, ⟨withOps nodeB { d := rep }, by decide⟩, ⟨withOps nodeA { d := req }, by decide⟩,
    ⟨withOps { nodeB with csrs := { nodeB.csrs with lip := 5 } } { d := req }, by decide⟩⟩

/-- On the subnet, and off it. -/
theorem witness_ArpreqBroadcastsRequest :
    (∃ s : State, 0xC0A80114#32 = (if s.ops.ip &&& s.csrs.netmask = s.csrs.lip &&& s.csrs.netmask then s.ops.ip else s.csrs.gwip)) ∧
    ∃ s : State, s.ops.ip = 0x08080808#32 ∧
      0xC0A80101#32 = (if s.ops.ip &&& s.csrs.netmask = s.csrs.lip &&& s.csrs.netmask then s.ops.ip else s.csrs.gwip) :=
  ⟨⟨withOps nodeA { ip := 0xC0A80114 }, by decide⟩, ⟨withOps nodeA { ip := 0x08080808 }, by decide⟩⟩

/-- Node A in RUN phase with a reply on Q4 and no move to come: AR is the one enabled unit, whatever the free choice. -/
theorem step_arpRecv_alone : step { nodeRun with queues := { Queues.empty with q4 := [rep] } } =
    .next (stepArpRecv { nodeRun with queues := { Queues.empty with q4 := [rep] }, draw := Config.freeDraws 0, draws := 1 }) := by
  have h : enabledUnits { nodeRun with queues := { Queues.empty with q4 := [rep] } } = [.arpRecv] := by decide
  rw [step_of_nil _ rfl, autonomousStep, h]
  simp only [List.length_nil, Nat.zero_add, Nat.mod_one]
  rfl

/-- A command that writes the table, a turn of AR that does, and a step that AR, the one enabled unit, takes with an empty agenda. -/
theorem witness_CacheWritersOnly :
    (∃ s t : State, step s = .next t ∧ (∀ rest, s.agenda ≠ .reset :: rest) ∧ cacheFind s 0xC0A80101 ≠ none ∧ t.cache ≠ s.cache) ∧
    (∃ s t : State, step s = .next t ∧ (∀ rest, s.agenda ≠ .reset :: rest) ∧ t.cache ≠ s.cache) ∧
    ∃ s t : State, step s = .next t ∧ (∀ rest, s.agenda ≠ .reset :: rest) ∧ s.agenda = [] ∧ t.cache ≠ s.cache :=
  ⟨⟨{ nodeCache with agenda := [.command 0x00000031 { ip := 5, mac := 6 } noDraw] }, _, rfl, (fun _ h => by cases h), by decide, by decide⟩,
    ⟨{ moved (.turn .arpRecv noDraw) with queues := { Queues.empty with q4 := [rep] } }, _, rfl, (fun _ h => by cases h), by decide⟩,
    ⟨{ nodeRun with queues := { Queues.empty with q4 := [rep] } },
      stepArpRecv { nodeRun with queues := { Queues.empty with q4 := [rep] }, draw := Config.freeDraws 0, draws := 1 },
      step_arpRecv_alone, (fun _ h => by cases h), rfl, by decide⟩⟩

theorem witness_IpcsumFoldedSum : (0x0102 + 0x0300 : Nat) =
    ((List.range (((withOps nodeA { d := [1, 2, 3] }).ops.d.length + 1) / 2)).map
      (fun k => (rd16 ((withOps nodeA { d := [1, 2, 3] }).ops.d ++ [0]) (2 * k)).toNat)).sum := by decide

/-- IPFRAG lists datagrams for every payload of at most 65536 bytes. -/
theorem ipfrag_lists (s : State) (h : s.ops.d.length ≤ 65536) :
    exec .ipfrag s = .next (s.respond { status := .ok, list := (fragment s s.ops.proto s.ops.d).list }) := by
  simp [exec, execIpfrag, fragment, Config.reasmBufLen, Nat.not_lt.2 h]

theorem witness_HeadersVerify : ∃ l, exec .ipfrag (withOps nodeA { d := [1], proto := 6 }) =
    .next ((withOps nodeA { d := [1], proto := 6 }).respond { status := .ok, list := l }) ∧ l ≠ [] :=
  ⟨_, ipfrag_lists _ (by decide), by decide +kernel⟩

theorem witness_IpfragDatagrams : (withOps nodeA { d := zeros 65537 }).ops.d.length = 65537 ∧
    (withOps nodeA { d := zeros 65536 }).ops.d.length = 65536 ∧ 65536 < 65537 ∧ 65536 ≤ 65536 :=
  ⟨zeros_length _, zeros_length _, by decide, by decide⟩

theorem witness_IpfragPayloadsJoin : (withOps nodeA { d := zeros 65536 }).ops.d.length ≤ 65536 :=
  Nat.le_of_eq (zeros_length _)

theorem witness_IpfragScenario3000 : (withOps nodeA { d := zeros 3000 }).ops.d.length = 3000 := zeros_length _

/-- An IP unit with given total length and flags word, for ID 0x1234. -/
def unitWith (tl fw : Half) (n : Nat) : Bytes := [0x4F, 0] ++ be16 tl ++ [0x12, 0x34] ++ be16 fw ++ zeros n

/-- 59 bytes; a total length of 59, and one over the unit; a last byte at 65537; no slot free at a last byte at 65536. -/
theorem witness_IpreasmDropsUnchanged :
    (∃ s : State, s.ops.d.length < 60) ∧
    (∃ s : State, 60 ≤ s.ops.d.length ∧ (rd16 s.ops.d 2).toNat < 60) ∧
    (∃ s : State, 60 ≤ s.ops.d.length ∧ s.ops.d.length < (rd16 s.ops.d 2).toNat) ∧
    (∃ s : State, 60 ≤ (rd16 s.ops.d 2).toNat ∧ (rd16 s.ops.d 2).toNat ≤ s.ops.d.length ∧
      65536 < (rd16 s.ops.d 6).toNat % 8192 * 8 + ((rd16 s.ops.d 2).toNat - 60)) ∧
    ∃ s : State, 60 ≤ (rd16 s.ops.d 2).toNat ∧ (rd16 s.ops.d 2).toNat ≤ s.ops.d.length ∧
      (rd16 s.ops.d 6).toNat % 8192 * 8 + ((rd16 s.ops.d 2).toNat - 60) ≤ 65536 ∧ slotFind s (rd16 s.ops.d 4) = none ∧
      s.params.reasmSlots = some s.reasm.length :=
  ⟨⟨withOps nodeB { d := zeros 59 }, by decide⟩, ⟨withOps nodeB { d := unitWith 59 0 52 }, by decide⟩,
    ⟨withOps nodeB { d := unitWith 61 0 52 }, by decide⟩, ⟨withOps nodeB { d := unitWith 69 0x1FFF 61 }, by decide⟩,
    ⟨{ withOps nodeSlot { d := unitWith 68 0x1FFF 60 } with params := tight, reasm := [(0x9999, slot61)] }, by decide⟩⟩

/-- A new slot and an existing one, both left incomplete. -/
theorem witness_IpreasmStoresFragment :
    (∃ s : State, 60 ≤ (rd16 s.ops.d 2).toNat ∧ (rd16 s.ops.d 2).toNat ≤ s.ops.d.length ∧
      (rd16 s.ops.d 6).toNat % 8192 * 8 + ((rd16 s.ops.d 2).toNat - 60) ≤ 65536 ∧
      false = ((rd16 s.ops.d 6).getLsbD 14 || !(rd16 s.ops.d 6).getLsbD 13) ∧ slotFind s (rd16 s.ops.d 4) = none ∧
      (∀ c, s.params.reasmSlots = some c → s.reasm.length < c) ∧
      (slotInsert Slot.fresh ((rd16 s.ops.d 6).toNat % 8192 * 8) (slice s.ops.d 60 (rd16 s.ops.d 2).toNat) false).expected = none) ∧
    ∃ s : State, 60 ≤ (rd16 s.ops.d 2).toNat ∧ (rd16 s.ops.d 2).toNat ≤ s.ops.d.length ∧
      (rd16 s.ops.d 6).toNat % 8192 * 8 + ((rd16 s.ops.d 2).toNat - 60) ≤ 65536 ∧
      true = ((rd16 s.ops.d 6).getLsbD 14 || !(rd16 s.ops.d 6).getLsbD 13) ∧ slotFind s (rd16 s.ops.d 4) = some slot61 ∧
      (slotInsert slot61 ((rd16 s.ops.d 6).toNat % 8192 * 8) (slice s.ops.d 60 (rd16 s.ops.d 2).toNat) true).expected = some 9 ∧
      (slotInsert slot61 ((rd16 s.ops.d 6).toNat % 8192 * 8) (slice s.ops.d 60 (rd16 s.ops.d 2).toNat) true).cursor = 1 :=
  ⟨⟨withOps nodeB { d := unit61 0x20 0 }, by decide, by decide, by decide, by decide, by decide, (by intro c h; cases h), by decide⟩,
    ⟨withOps nodeSlot { d := unit61 0x00 1 }, by decide⟩⟩

/-- A whole datagram in a new slot, and one that ends an existing slot. -/
theorem witness_IpreasmDeliversComplete :
    (∃ (s : State) (sl : Slot), s.Inv ∧ 60 ≤ (rd16 s.ops.d 2).toNat ∧ (rd16 s.ops.d 2).toNat ≤ s.ops.d.length ∧
      (rd16 s.ops.d 6).toNat % 8192 * 8 + ((rd16 s.ops.d 2).toNat - 60) ≤ 65536 ∧
      true = ((rd16 s.ops.d 6).getLsbD 14 || !(rd16 s.ops.d 6).getLsbD 13) ∧
      (slotFind s (rd16 s.ops.d 4) = none ∧ ∀ c, s.params.reasmSlots = some c → s.reasm.length < c) ∧
      sl = slotInsert Slot.fresh ((rd16 s.ops.d 6).toNat % 8192 * 8) (slice s.ops.d 60 (rd16 s.ops.d 2).toNat) true ∧
      sl.expected = some sl.cursor) ∧
    ∃ (s : State) (sl : Slot), s.Inv ∧ 60 ≤ (rd16 s.ops.d 2).toNat ∧ (rd16 s.ops.d 2).toNat ≤ s.ops.d.length ∧
      (rd16 s.ops.d 6).toNat % 8192 * 8 + ((rd16 s.ops.d 2).toNat - 60) ≤ 65536 ∧
      true = ((rd16 s.ops.d 6).getLsbD 14 || !(rd16 s.ops.d 6).getLsbD 13) ∧ slotFind s (rd16 s.ops.d 4) = some slot61 ∧
      sl = slotInsert slot61 ((rd16 s.ops.d 6).toNat % 8192 * 8) (slice s.ops.d 60 (rd16 s.ops.d 2).toNat) true ∧
      sl.expected = some sl.cursor :=
  ⟨⟨withOps nodeB { d := unit61 0x40 0 }, _, inv_withOps _ _ inv_nodeB, by decide, by decide, by decide, by decide,
      ⟨by decide, by intro c h; cases h⟩, rfl, by decide⟩,
    ⟨withOps nodeSlot { d := unit61 0x40 0 }, _, inv_withOps _ _ inv_nodeSlot, by decide, by decide, by decide, by decide, by decide,
      rfl, by decide⟩⟩

theorem witness_IpreasmIdempotent : ∃ s : State, s.Inv ∧ 60 ≤ (rd16 s.ops.d 2).toNat ∧ (rd16 s.ops.d 2).toNat ≤ s.ops.d.length ∧
    slotFind s (rd16 s.ops.d 4) = some slot61 ∧ ⟨(rd16 s.ops.d 6).toNat % 8192 * 8, (rd16 s.ops.d 2).toNat - 60⟩ ∈ slot61.recs ∧
    (∀ i, i < (rd16 s.ops.d 2).toNat - 60 → slot61.buf.read ((rd16 s.ops.d 6).toNat % 8192 * 8 + i) = some (byteAt s.ops.d (60 + i))) ∧
    ((rd16 s.ops.d 6).getLsbD 14 = true ∨ (rd16 s.ops.d 6).getLsbD 13 = false →
      slot61.expected = some ((rd16 s.ops.d 6).toNat % 8192 * 8 + ((rd16 s.ops.d 2).toNat - 60))) :=
  ⟨withOps nodeSlot { d := unit61 0x20 0 }, inv_withOps _ _ inv_nodeSlot, by decide⟩

/-- Two datagrams, delivered in reverse. -/
theorem witness_ReassemblyAnyOrder : ∃ l, exec .ipfrag (withOps nodeA { d := zeros 1400, proto := 6 }) =
      .next ((withOps nodeA { d := zeros 1400, proto := 6 }).respond { status := .ok, list := l }) ∧
    l.reverse.Perm l ∧ l.length = 2 ∧ slotFind nodeB (nodeA.csrs.txcfg.extractLsb' 0 16) = none ∧
    ∀ c, nodeB.params.reasmSlots = some c → nodeB.reasm.length < c :=
  ⟨_, ipfrag_lists _ (by decide +kernel), List.reverse_perm _, by decide +kernel, by decide, by intro c h; cases h⟩

/-- No record at the cursor but one of length 0; the longest of two. -/
theorem witness_ScanFollowsLongestRecord :
    (∀ r ∈ ([⟨8, 4⟩, ⟨0, 0⟩] : List FragRec), r.off = 0 → r.len = 0) ∧
    (0 < 4 ∧ (⟨0, 4⟩ : FragRec) ∈ ([⟨0, 2⟩, ⟨0, 4⟩] : List FragRec) ∧ ∀ r ∈ ([⟨0, 2⟩, ⟨0, 4⟩] : List FragRec), r.off = 0 → r.len ≤ 4) := by
  decide

/-- Q0 alone, and Q1 chosen where both hold an element. -/
theorem witness_LinkSendStep :
    (∃ (s : State) (draw : Config.Draws) (rest : List Event), s.agenda = .turn .linkSend draw :: rest ∧ s.phase = .run ∧
      s.halted.linkSend = false ∧ s.queues.q0 = ⟨2, 0x0800, []⟩ :: [] ∧ s.queues.q1 = []) ∧
    ∃ (s : State) (draw : Config.Draws) (rest : List Event), s.agenda = .turn .linkSend draw :: rest ∧ s.phase = .run ∧
      s.halted.linkSend = false ∧ s.queues.q1 = ⟨2, 0x0806, rep⟩ :: [] ∧ s.queues.q0 ≠ [] ∧ draw.serveArp = true :=
  ⟨⟨{ moved (.turn .linkSend noDraw) with queues := { Queues.empty with q0 := [⟨2, 0x0800, []⟩] } }, noDraw, [], by decide⟩,
    ⟨{ moved (.turn .linkSend ⟨false, true, true⟩) with queues := nodeFull.queues }, ⟨false, true, true⟩, [], by decide⟩⟩

/-- LR of node B in RUN phase, with one capture offered. -/
def receiving (c : Capture) : State := { nodeB with phase := .run, offered := [c], agenda := [.turn .linkRecv noDraw] }

/-- An offer; an error; a frame dropped; an IPv4 payload; an ARP frame. -/
theorem witness_LinkRecvStep :
    (moved (.offer .error)).agenda = .offer .error :: [] ∧
    (∀ c, (receiving c).agenda = .turn .linkRecv noDraw :: [] ∧ (receiving c).phase = .run ∧ (receiving c).halted.linkRecv = false ∧
      (receiving c).offered = c :: []) ∧
    (∀ d wl, exec .fdec { receiving (.frame d wl) with ops := { d := d, wl := wl } } =
      .next ((receiving (.frame d wl)).respond (decodeFrame (receiving (.frame d wl)) d wl))) ∧
    (decodeFrame (receiving .error) [] 0).status ≠ .ok ∧
    ((decodeFrame (receiving .error) (sentFrame 0x0800 [1]) 19).status = .ok ∧
      (decodeFrame (receiving .error) (sentFrame 0x0800 [1]) 19).et = 0x0800#16) ∧
    (decodeFrame (receiving .error) (sentFrame 0x0806 req) 46).status = .ok ∧
      (decodeFrame (receiving .error) (sentFrame 0x0806 req) 46).et = 0x0806#16 :=
  ⟨rfl, fun _ => ⟨rfl, rfl, rfl, rfl⟩, fun _ _ => rfl, by decide +kernel, by decide +kernel, by decide +kernel⟩

/-- A payload to take; a hit; a miss. -/
theorem witness_IpSendStep :
    (∃ s : State, s.agenda = .turn .ipSend noDraw :: [] ∧ s.phase = .run ∧ s.halted.ipSend = false ∧ s.isWork = [] ∧
      s.queues.q2 = ⟨6, [1]⟩ :: []) ∧
    (∃ s : State, s.agenda = .turn .ipSend noDraw :: [] ∧ s.phase = .run ∧ s.halted.ipSend = false ∧ s.isWork = zeros 60 :: [] ∧
      cacheFind s s.csrs.dip = some ⟨0x020000000002, .dynamic⟩) ∧
    ∃ s : State, s.agenda = .turn .ipSend noDraw :: [] ∧ s.phase = .run ∧ s.halted.ipSend = false ∧ s.isWork = zeros 60 :: [] ∧
      cacheFind s s.csrs.dip = none :=
  ⟨⟨{ moved (.turn .ipSend noDraw) with queues := nodeFull.queues }, by decide⟩,
    ⟨{ moved (.turn .ipSend noDraw) with isWork := [zeros 60], cache := [(0xC0A80114, ⟨0x020000000002, .dynamic⟩)] }, by decide⟩,
    ⟨{ moved (.turn .ipSend noDraw) with isWork := [zeros 60] }, by decide⟩⟩

/-- A delivery; a fragment that waits; a drop. -/
theorem witness_IpRecvStep (d : Bytes) :
    (∃ s t : State, s.agenda = .turn .ipRecv noDraw :: [] ∧ s.phase = .run ∧ s.halted.ipRecv = false ∧ s.queues.q3 = d :: [] ∧
      t = { s with agenda := [], draw := noDraw, queues := { s.queues with q3 := [] } } ∧ t = nodeRun) ∧
    (∃ res u, reasmBody (unit61 0x40 0) nodeRun = .next (res, u) ∧ res.value = 1) ∧
    (∃ res u, reasmBody (unit61 0x20 0) nodeRun = .next (res, u) ∧ res.value = 0) ∧
    ∃ res u, reasmBody (zeros 60) nodeRun = .next (res, u) ∧ res.status ≠ .ok :=
  ⟨⟨{ moved (.turn .ipRecv noDraw) with queues := { Queues.empty with q3 := [d] } }, _, rfl, rfl, rfl, rfl, rfl, rfl⟩,
    ⟨_, _, rfl, by decide⟩, ⟨_, _, rfl, by decide⟩, ⟨_, _, rfl, by decide⟩⟩

/-- AS: a request. AR: a reply learned, a request refused by an originator, and a reply sent by a peer. -/
theorem witness_ArpUnitSteps :
    (∃ s t : State, s.agenda = .turn .arpSend noDraw :: [] ∧ s.phase = .run ∧ s.halted.arpSend = false ∧
      s.queues.q5 = 0xC0A80114 :: [] ∧ t = { s with agenda := [], draw := noDraw, queues := { s.queues with q5 := [] } } ∧
      exec .arpreq { t with ops := { ip := 0xC0A80114 } } = .next (t.respond (arpRequest t 0xC0A80114))) ∧
    (∃ s t u : State, ∃ res, s.agenda = .turn .arpRecv noDraw :: [] ∧ s.phase = .run ∧ s.halted.arpRecv = false ∧
      s.queues.q4 = rep :: [] ∧ t = { s with agenda := [], draw := noDraw, queues := { s.queues with q4 := [] } } ∧
      arprxBody rep t = (res, u) ∧ res.status = .ok ∧ res.bytes = []) ∧
    (∃ s t u : State, ∃ res, s.agenda = .turn .arpRecv noDraw :: [] ∧ s.phase = .run ∧ s.halted.arpRecv = false ∧
      s.queues.q4 = req :: [] ∧ t = { s with agenda := [], draw := noDraw, queues := { s.queues with q4 := [] } } ∧
      arprxBody req t = (res, u) ∧ res.status ≠ .ok) ∧
    ∃ s t u : State, ∃ res, s.agenda = .turn .arpRecv noDraw :: [] ∧ s.phase = .run ∧ s.halted.arpRecv = false ∧
      s.queues.q4 = req :: [] ∧ t = { s with agenda := [], draw := noDraw, queues := { s.queues with q4 := [] } } ∧
      arprxBody req t = (res, u) ∧ res.status = .ok ∧ res.bytes ≠ [] :=
  ⟨⟨{ moved (.turn .arpSend noDraw) with queues := { Queues.empty with q5 := [0xC0A80114] } }, _, rfl, rfl, rfl, rfl, rfl, rfl⟩,
    ⟨{ moved (.turn .arpRecv noDraw) with queues := { Queues.empty with q4 := [rep] } }, _, _, _, rfl, rfl, rfl, rfl, rfl, rfl, by decide⟩,
    ⟨{ moved (.turn .arpRecv noDraw) with queues := { Queues.empty with q4 := [req] } }, _, _, _, rfl, rfl, rfl, rfl, rfl, rfl, by decide⟩,
    ⟨{ nodeB with phase := .run, agenda := [.turn .arpRecv noDraw], queues := { Queues.empty with q4 := [req] } }, _, _, _, rfl, rfl, rfl,
      rfl, rfl, rfl, by decide⟩⟩

/-- Q4 refuses 27 bytes; Q6 is full; Q6 has room. -/
theorem witness_HandOffPushesOrDrops :
    (∃ o : Operands, QueueId.q4 = .q4 ∧ o.d.length ≠ 28) ∧
    (∃ (s : State) (o : Operands),
      ¬ ((QueueId.q6 = .q4 ∧ o.d.length ≠ 28) ∨ (s.params.lenCheck.get .q6 = true ∧ (o.d.length < 46 ∨ 1500 < o.d.length))) ∧
      ∃ c, s.params.queueDepth.get .q6 = some c ∧ ¬ s.queues.len .q6 < c) ∧
    ∃ (s : State) (o : Operands),
      ¬ ((QueueId.q6 = .q4 ∧ o.d.length ≠ 28) ∨ (s.params.lenCheck.get .q6 = true ∧ (o.d.length < 46 ∨ 1500 < o.d.length))) ∧
      ∀ c, s.params.queueDepth.get .q6 = some c → s.queues.len .q6 < c :=
  ⟨⟨{ d := zeros 27 }, by decide⟩, ⟨{ nodeFull with params := tight }, {}, by decide, 1, rfl, by decide⟩,
    ⟨nodeA, {}, by decide, room_reference _ _ rfl⟩⟩

theorem noUnitWork_nodeRun : NoUnitWork nodeRun := fun u => .inr (by cases u <;> simp [NoInput, nodeRun, nodeA, State.reset, State.resetWith, Queues.empty])

/-- A turn in CONFIG phase, of a halted unit, of a unit whose own input is empty while another has work; a block that waits; a block with
an enabled unit. -/
theorem witness_OnlyEnabledUnitsStep :
    (∃ s : State, s.agenda = .turn .arpSend noDraw :: [] ∧ s.phase = .config) ∧
    (∃ s : State, s.agenda = .turn .linkRecv noDraw :: [] ∧ s.phase = .run ∧ s.halted.get .linkRecv = true) ∧
    (∃ s : State, s.agenda = .turn .linkSend noDraw :: [] ∧ s.phase = .run ∧ s.halted.get .linkSend = false ∧ NoInput .linkSend s ∧
      unitEnabled .arpSend s = true) ∧
    (∃ s : State, s.agenda = [] ∧ s.phase = .run ∧ NoUnitWork s) ∧
    ∃ s : State, s.agenda = [] ∧ s.phase = .run ∧ ¬ NoUnitWork s :=
  ⟨⟨{ nodeA with agenda := [.turn .arpSend noDraw] }, rfl, rfl⟩,
    ⟨{ moved (.turn .linkRecv noDraw) with halted := Halts.none.set .linkRecv }, rfl, rfl, rfl⟩,
    ⟨{ moved (.turn .linkSend noDraw) with queues := { Queues.empty with q5 := [5] } }, rfl, rfl, rfl, ⟨rfl, rfl⟩, rfl⟩,
    ⟨nodeRun, rfl, rfl, noUnitWork_nodeRun⟩,
    ⟨{ nodeRun with queues := { Queues.empty with q5 := [5] } }, rfl, rfl, fun h => by rcases h .arpSend with h | h <;> cases h⟩⟩

/-- A halted LR with a capture offered: its turn, and START. -/
theorem witness_HaltsAreSticky :
    (∃ s t : State, step s = .next t ∧ s.halted.get .linkRecv = true ∧ (∀ rest, s.agenda ≠ .reset :: rest) ∧
      s.agenda = .turn .linkRecv noDraw :: []) ∧
    ∃ s t : State, step s = .next t ∧ s.halted.get .linkRecv = true ∧ (∀ rest, s.agenda ≠ .reset :: rest) ∧
      s.agenda = .command 3 {} noDraw :: [] :=
  ⟨⟨{ moved (.turn .linkRecv noDraw) with halted := Halts.none.set .linkRecv, offered := [.error] }, _, rfl, rfl,
      (fun _ h => by cases h), rfl⟩,
    ⟨{ moved (.command 3 {} noDraw) with halted := Halts.none.set .linkRecv }, _, rfl, rfl, (fun _ h => by cases h), rfl⟩⟩

/-- A turn that logs, and a command. -/
theorem witness_LogAppendOnly :
    (∃ s t : State, step s = .next t ∧ (∀ rest, s.agenda ≠ .reset :: rest) ∧ t.log.length = 1) ∧
    ∃ s t : State, step s = .next t ∧ (∀ rest, s.agenda ≠ .reset :: rest) ∧ s.agenda = .command 3 {} noDraw :: [] :=
  ⟨⟨{ moved (.turn .linkRecv noDraw) with offered := [.error] }, _, rfl, (fun _ h => by cases h), rfl⟩,
    ⟨moved (.command 3 {} noDraw), _, rfl, (fun _ h => by cases h), rfl⟩⟩

theorem witness_ErrorStatusWritesNoState : ∃ t, exec (.csrw 0x0A) nodeA = .next t := ⟨_, rfl⟩

theorem witness_InvariantKeptByEveryStep : nodeA.Inv ∧ nodeSlot.Inv := ⟨inv_nodeA, inv_nodeSlot⟩

end Sys2Proof.Tests
end

section
/-! PROOFS. The CSRs (R32, R33, R43, R355, R356): the field number of each, what a read returns after a write, the STATUS word bit by bit. -/

namespace Sys2Proof.Machine

/-! ## Field numbers of the CSRs (R32) -/

/-- The N field that selects a CSR (R32). -/
def CsrId.field : CsrId → BitVec 8
  | .lmacHi => 0x00
  | .lmacLo => 0x01
  | .lip => 0x02
  | .gwip => 0x03
  | .netmask => 0x04
  | .bmacHi => 0x05
  | .bmacLo => 0x06
  | .dip => 0x07
  | .txcfg => 0x08
  | .mode => 0x09
  | .status => 0x0A

@[simp] theorem csrOf_field (id : CsrId) : csrOf id.field = some id := by cases id <;> rfl

theorem eq_field_of_csrOf {n : BitVec 8} {id : CsrId} (h : csrOf n = some id) : n = id.field := by
  unfold csrOf at h
  split at h <;> cases h <;> rfl

theorem csrOf_ne_none {n : BitVec 8} (h : n ≤ 0x0A#8) : csrOf n ≠ none := by
  intro hc
  unfold csrOf at hc
  split at hc <;> simp at hc
  simp only [imp_false] at *
  bv_omega

/-- An implemented N field is the number of a CSR (R115.6). -/
theorem exists_field_eq {n : BitVec 8} (h : n ≤ 0x0A#8) : ∃ id : CsrId, n = id.field := by
  obtain ⟨id, hid⟩ := Option.ne_none_iff_exists'.1 (csrOf_ne_none h)
  exact ⟨id, eq_field_of_csrOf hid⟩

/-! ## CSRR and CSRW by the CSR they name -/

theorem exec_csrr_field (id : CsrId) (s : State) :
    exec (.csrr id.field) s = .next (s.respond { status := .ok, value := csrRead id s }) := by
  simp [exec, execCsrr]

/-- R33, R356: a write is refused for STATUS and in RUN phase. -/
theorem exec_csrw_field_refused {id : CsrId} {s : State} (h : id = .status ∨ s.phase = .run) :
    exec (.csrw id.field) s = .next (s.respond { status := .csrRo }) := by
  simp [exec, execCsrw, h]

theorem exec_csrw_field_config {id : CsrId} {s : State} (hid : id ≠ .status) (hp : s.phase = .config) :
    exec (.csrw id.field) s = .next ((s.csrWrite id s.ops.val).respond { status := .ok }) := by
  simp [exec, execCsrw, hid, hp]

/-! ## A read after a write -/

@[simp] theorem csrRead_respond (id : CsrId) (s : State) (r : Result) : csrRead id (s.respond r) = csrRead id s := rfl

theorem csrRaw_of_csrs_eq {id : CsrId} (hid : id ≠ .status) {s t : State} (h : t.csrs = s.csrs) : csrRaw id t = csrRaw id s := by
  cases id with
  | status => exact absurd rfl hid
  | _ => simp only [csrRaw, h]

theorem csrRaw_csrWrite_self {id : CsrId} (hid : id ≠ .status) (s : State) (v : Word) :
    csrRaw id (s.csrWrite id v) = v &&& id.wmask := by
  cases id with
  | status => exact absurd rfl hid
  | _ => rfl

/-- STATUS is among the others: no CSR write touches PHASE, a halt bit or `is_work`. -/
theorem csrRaw_csrWrite_other {id id' : CsrId} (h : id' ≠ id) (s : State) (v : Word) :
    csrRaw id' (s.csrWrite id v) = csrRaw id' s := by
  cases id <;> cases id' <;> simp [csrRaw, Csrs.set, statusWord] at h ⊢

theorem csrRead_csrWrite_self {id : CsrId} (hid : id ≠ .status) (s : State) (v : Word) :
    csrRead id (s.csrWrite id v) = v &&& id.wmask := by
  rw [csrRead, csrRaw_csrWrite_self hid, BitVec.and_assoc, BitVec.and_self]

theorem csrRead_csrWrite_other {id id' : CsrId} (h : id' ≠ id) (s : State) (v : Word) :
    csrRead id' (s.csrWrite id v) = csrRead id' s := by
  rw [csrRead, csrRaw_csrWrite_other h, csrRead]

/-- Settles O12: CSRW is refused for STATUS and in RUN phase (R33, R43). -/
theorem csrwRefusedWhereReadOnly : Obligations.CsrwRefusedWhereReadOnly := by
  intro s n hn h
  obtain ⟨id, rfl⟩ := exists_field_eq hn
  refine exec_csrw_field_refused (h.imp_left fun hid => ?_)
  have : csrOf id.field = csrOf (CsrId.field .status) := congrArg csrOf hid
  simpa using this

/-- Settles O11: the CSR written reads back under its mask, and a CSR with another number reads as before. -/
theorem csrWriteReadBack : Obligations.CsrWriteReadBack := by
  intro s n hp hn
  obtain ⟨id, rfl⟩ := exists_field_eq (n := n) (by bv_omega)
  have hid : id ≠ .status := by rintro rfl; exact absurd hn (by decide)
  refine ⟨_, exec_csrw_field_config hid hp, ?_, fun m v hm hle hread => ?_⟩
  · have hmask : id.wmask = if id.field = 0x00#8 ∨ id.field = 0x05#8 then 0x0000FFFF#32
        else if id.field = 0x09#8 then 0x00000001#32 else 0xFFFFFFFF#32 := by cases id <;> rfl
    rw [exec_csrr_field, csrRead_respond, csrRead_csrWrite_self hid, hmask]
  · obtain ⟨id', rfl⟩ := exists_field_eq hle
    have hne : id' ≠ id := fun h => hm (congrArg CsrId.field h)
    rw [exec_csrr_field] at hread
    obtain rfl : csrRead id' s = v := by simpa [State.respond] using hread
    rw [exec_csrr_field, csrRead_respond, csrRead_csrWrite_other hne]

/-! ## STATUS (R43) -/

theorem getLsbD_flagBit (b : Bool) {j : Nat} (hj : j < 32) (k : Nat) : (flagBit b j).getLsbD k = (b && decide (k = j)) := by
  cases b with
  | false => simp [flagBit]
  | true => simpa [flagBit, BitVec.twoPow, hj, eq_comm] using BitVec.getLsbD_twoPow (w := 32) j k

/-- STATUS has no reserved bits to mask. -/
theorem csrRead_status (s : State) : csrRead .status s = statusWord s := BitVec.and_allOnes

/-- Each bit of STATUS is the flag placed there (R43). -/
theorem getLsbD_statusWord (s : State) (k : Nat) : (statusWord s).getLsbD k =
    match k with
    | 0 => s.phase == .run
    | 1 => s.halted.linkSend
    | 2 => s.halted.linkRecv
    | 3 => s.halted.ipSend
    | 4 => s.halted.ipRecv
    | 5 => s.halted.arpSend
    | 6 => s.halted.arpRecv
    | 7 => !s.isWork.isEmpty
    | _ => false := by
  simp (disch := decide) only [statusWord, BitVec.getLsbD_or, getLsbD_flagBit]
  rcases k with _ | _ | _ | _ | _ | _ | _ | _ | k <;> simp

theorem statusWord_resetWith (p : Config.Params) : statusWord (State.resetWith p) = 0 := by
  simp [statusWord, State.resetWith, Halts.none, flagBit]

/-- In a state that meets the invariant IS, IR, AS and AR are not halted, so bits 3 to 6 read 0. -/
theorem getLsbD_statusWord_of_inv {s : State} (h : s.Inv) {k : Nat} (h3 : 3 ≤ k) (h6 : k ≤ 6) :
    (statusWord s).getLsbD k = false := by
  obtain ⟨hIs, hIr, hAs, hAr⟩ := h.haltsLink
  rw [getLsbD_statusWord]
  interval_cases k <;> assumption

/-- Settles O9: STATUS by its bits; bits 3 to 6 by the invariant that only LS and LR halt. -/
theorem statusRegisterBits : Obligations.StatusRegisterBits := by
  refine ⟨getLsbD_statusWord, fun s => ⟨?_, exec_csrw_field_refused (id := .status) (.inl rfl)⟩,
    fun s k h h3 h6 => getLsbD_statusWord_of_inv h h3 h6, statusWord_resetWith⟩
  rw [← csrRead_status]
  exact exec_csrr_field .status s

end Sys2Proof.Machine
end

section
/-! PROOFS. What a command and a unit step can do, said once: the writes a command makes before its result is returned (`CommandEffect`), the
writes of a unit step in their order (`UnitRun`), and the transitions of the block (`Transition`), each with the guards it was made under. -/

namespace Sys2Proof.Machine

open Sys2Proof.Config (Draws)

/-! ## Commands -/

/-- What the body of a command writes, its result record apart; `keep` is a command that writes nothing. -/
inductive CommandEffect (s : State) : Instr → State → Prop where
  | keep {i : Instr} : CommandEffect s i s
  | csrw {n : BitVec 8} {id : CsrId} (hid : id ≠ .status) (hp : s.phase = .config) (v : Word) : CommandEffect s (.csrw n) (s.csrWrite id v)
  | start : CommandEffect s .start { s with phase := .run }
  | qadd {n : BitVec 4} {q : QueueId} {o : Operands} (hn : queueOf n = some q) (hl : lengthRefused q o s = false)
      (hf : queueFull q s = false) : CommandEffect s (.qadd n) (s.pushElem q o)
  | qpop {n : BitVec 4} {q : QueueId} {r : Result} {qs : Queues} (hn : queueOf n = some q) (hq : s.queues.pop q = some (r, qs)) :
      CommandEffect s (.qpop n) { s with queues := qs }
  | arpfind {ip : IpAddr} (hc : cacheFind s ip = none) (hl : lengthRefused .q5 { ip := ip } s = false)
      (hf : queueFull .q5 s = false) : CommandEffect s .arpfind ((s.pushElem .q5 { ip := ip }).pendingAdd ip)
  | arpins {t : BitVec 2} {ip : IpAddr} (e : CacheEntry) (hr : atCapacity s.params.arpCap s.cache.length = false) :
      CommandEffect s (.arpins t) ((s.cachePut ip e).pendingDel ip)
  | arpupd {t : BitVec 2} {ip : IpAddr} (e : CacheEntry) (hc : cacheFind s ip ≠ none) : CommandEffect s (.arpupd t) (s.cachePut ip e)
  | arprx {ip : IpAddr} (e : CacheEntry) (hr : cacheFind s ip ≠ none ∨ atCapacity s.params.arpCap s.cache.length = false) :
      CommandEffect s .arprx ((s.cachePut ip e).pendingDel ip)
  | reasmKeep {d : Bytes} {sl : Slot} (hd : reasmDrop d s = none)
      (hsl : sl = slotInsert ((slotFind s (ipId d)).getD Slot.fresh) (ipOffset d) (slice d Config.ipHdrLen (ipTotalLen d)) (ipDf d || !ipMf d))
      (he : sl.expected ≠ some sl.cursor) : CommandEffect s .ipreasm (s.slotPut (ipId d) sl)
  | reasmDeliver (id : Half) : CommandEffect s .ipreasm (s.slotDel id)

/-! ### What no command body writes -/

theorem CommandEffect.isWork_eq {s m : State} {i : Instr} (h : CommandEffect s i m) : m.isWork = s.isWork := by cases h <;> rfl

theorem CommandEffect.log_eq {s m : State} {i : Instr} (h : CommandEffect s i m) : m.log = s.log := by cases h <;> rfl

/-- Only START writes PHASE, and it writes RUN (R44, R357). -/
theorem CommandEffect.phase_eq {s m : State} {i : Instr} (h : CommandEffect s i m) :
    m.phase = s.phase ∨ (m.phase = .run ∧ i = .start) := by
  cases h with
  | start => exact .inr ⟨rfl, rfl⟩
  | _ => exact .inl rfl

/-! ### The effect of each body -/

theorem qaddBody_effect {n : BitVec 4} {q : QueueId} (hn : queueOf n = some q) (o : Operands) (s : State) :
    CommandEffect s (.qadd n) (qaddBody q o s).2 := by
  rcases qaddBody_cases q o s with ⟨h, _⟩ | ⟨h, _⟩ | ⟨h, hl, hf⟩ <;> rw [h]
  · exact .keep
  · exact .keep
  · exact .qadd hn hl hf

theorem arpfindBody_effect (ip : IpAddr) (s : State) : CommandEffect s .arpfind (arpfindBody ip s).2 := by
  rcases arpfindBody_cases ip s with ⟨e, _, h⟩ | ⟨_, h⟩ | ⟨hc, hf, hl, h⟩ <;> rw [h]
  · exact .keep
  · exact .keep
  · exact .arpfind hc hl hf

theorem arpinsBody_effect (t : BitVec 2) (tag : Tag) (ip : IpAddr) (mac : Mac) (s : State) :
    CommandEffect s (.arpins t) (arpinsBody tag ip mac s).2 := by
  rcases arpinsBody_cases tag ip mac s with ⟨h, _⟩ | ⟨h, _⟩ | ⟨h, _, hr⟩ <;> rw [h]
  · exact .keep
  · exact .keep
  · exact .arpins _ hr

theorem arpupdBody_effect (t : BitVec 2) (tag : Tag) (ip : IpAddr) (mac : Mac) (s : State) :
    CommandEffect s (.arpupd t) (arpupdBody tag ip mac s).2 := by
  rcases arpupdBody_cases tag ip mac s with ⟨h, _⟩ | ⟨h, hc⟩ <;> rw [h]
  · exact .keep
  · exact .arpupd _ hc

theorem arprxBody_effect (d : Bytes) (s : State) : CommandEffect s .arprx (arprxBody d s).2 := by
  rcases arprxBody_cases d s with h | ⟨_, _, hr, h⟩ <;> rw [h]
  · exact .keep
  · exact .arprx _ hr

theorem reasmBody_effect {d : Bytes} {s t : State} {r : Result} (h : reasmBody d s = .next (r, t)) : CommandEffect s .ipreasm t := by
  rcases reasmBody_cases d s with ⟨c, _, hb⟩ | ⟨hd, sl, hsl, ⟨he, hb⟩ | ⟨_, b, _, hb⟩ | ⟨_, _, hb⟩⟩ <;> rw [hb] at h <;> cases h
  · exact .keep
  · exact .reasmKeep hd hsl he
  · exact .reasmDeliver _

/-- A command that answers a next state makes its write and returns one result record (R110). -/
def CommandAnswers (i : Instr) (s t : State) : Prop := ∃ m r, CommandEffect s i m ∧ t = m.respond r

/-- A command that writes nothing but its result record. -/
theorem CommandAnswers.reports {i : Instr} {s : State} (r : Result) : CommandAnswers i s (s.respond r) := ⟨s, r, .keep, rfl⟩

theorem execCsrr_commandAnswers {n : BitVec 8} {s t : State} (h : execCsrr n s = .next t) : CommandAnswers (.csrr n) s t := by
  unfold execCsrr at h
  split at h <;> cases h <;> exact .reports _

theorem execCsrw_commandAnswers {n : BitVec 8} {s t : State} (h : execCsrw n s = .next t) : CommandAnswers (.csrw n) s t := by
  unfold execCsrw at h
  split at h
  · cases h; exact .reports _
  · split at h <;> cases h
    · exact .reports _
    · rename_i hid
      obtain ⟨hid, hp⟩ := not_or.1 hid
      exact ⟨_, _, .csrw hid (by cases hs : s.phase <;> simp_all) _, rfl⟩

theorem execQadd_commandAnswers {n : BitVec 4} {s t : State} (h : execQadd n s = .next t) : CommandAnswers (.qadd n) s t := by
  unfold execQadd at h
  split at h <;> cases h
  · exact .reports _
  · rename_i hn
    exact ⟨_, _, qaddBody_effect hn _ _, rfl⟩

theorem execQpop_commandAnswers {n : BitVec 4} {s t : State} (h : execQpop n s = .next t) : CommandAnswers (.qpop n) s t := by
  unfold execQpop at h
  split at h
  · cases h; exact .reports _
  · rename_i hn
    split at h <;> cases h
    · exact .reports _
    · rename_i hq
      exact ⟨_, _, .qpop hn hq, rfl⟩

theorem execQempty_commandAnswers {n : BitVec 4} {s t : State} (h : execQempty n s = .next t) : CommandAnswers (.qempty n) s t := by
  unfold execQempty at h
  split at h <;> cases h <;> exact .reports _

theorem execArpins_commandAnswers {f : BitVec 2} {s t : State} (h : execArpins f s = .next t) : CommandAnswers (.arpins f) s t := by
  unfold execArpins at h
  split at h <;> cases h
  · exact .reports _
  · exact ⟨_, _, arpinsBody_effect _ _ _ _ _, rfl⟩

theorem execArpupd_commandAnswers {f : BitVec 2} {s t : State} (h : execArpupd f s = .next t) : CommandAnswers (.arpupd f) s t := by
  unfold execArpupd at h
  split at h <;> cases h
  · exact .reports _
  · exact ⟨_, _, arpupdBody_effect _ _ _ _ _, rfl⟩

theorem execIpreasm_commandAnswers {s t : State} (h : execIpreasm s = .next t) : CommandAnswers .ipreasm s t := by
  unfold execIpreasm at h
  split at h <;> cases h
  rename_i hb
  exact ⟨_, _, reasmBody_effect hb, rfl⟩

/-- Every command that answers a next state answers by its effect and one result record. -/
theorem exec_commandAnswers {i : Instr} {s t : State} (h : exec i s = .next t) : CommandAnswers i s t := by
  cases i with
  | csrr n => exact execCsrr_commandAnswers h
  | csrw n => exact execCsrw_commandAnswers h
  | start => cases h; exact ⟨_, _, .start, rfl⟩
  | qadd q => exact execQadd_commandAnswers h
  | qpop q => exact execQpop_commandAnswers h
  | qempty q => exact execQempty_commandAnswers h
  | arpfind => cases h; exact ⟨_, _, arpfindBody_effect _ _, rfl⟩
  | arpins f => exact execArpins_commandAnswers h
  | arpupd f => exact execArpupd_commandAnswers h
  | arprx => cases h; exact ⟨_, _, arprxBody_effect _ _, rfl⟩
  | ipreasm => exact execIpreasm_commandAnswers h
  | crc32 | crcchk | fenc | fdec | arpreq | ipcsum | ipfrag => cases h; exact .reports _

/-! ## Units -/

/-- The command bodies the rule of a unit names (R311 to R317). -/
def UnitCalls (u : Agent) (i : Instr) : Prop :=
  match i with
  | .qadd _ | .qpop _ => True
  | .arpfind => u = .ipSend
  | .ipreasm => u = .ipRecv
  | .arprx => u = .arpRecv
  | .csrr _ | .csrw _ | .start | .crc32 | .crcchk | .qempty _ | .fenc | .fdec | .arpins _ | .arpupd _ | .arpreq | .ipcsum | .ipfrag => False

/-- The length of a datagram of IPFRAG: the header and at most one slice (R280). -/
def DatagramLen (n : Nat) : Prop := Config.ipHdrLen ≤ n ∧ n ≤ Config.ipHdrLen + Config.maxSlice

/-- The writes of a step of unit `u` from `s`, in their order, with the log events they append. A drop and a halt stand only where
nothing has been logged, so no step appends a second event (R343, R345). -/
inductive UnitRun (u : Agent) (s : State) : List LogEvent → State → Prop where
  | done : UnitRun u s [] s
  | body {l : List LogEvent} {m m' : State} {i : Instr} (h : UnitRun u s l m) (hi : UnitCalls u i) (he : CommandEffect m i m') : UnitRun u s l m'
  | drop {m : State} (h : UnitRun u s [] m) (c : Status) : UnitRun u s [⟨u, c⟩] (m.logEvent u c)
  | halt {m : State} (h : UnitRun u s [] m) (hu : u = .linkSend ∨ u = .linkRecv) : UnitRun u s [⟨u, .transportFault⟩] (m.haltUnit u)
  | ports {l : List LogEvent} {m : State} (h : UnitRun u s l m) (offered : List Capture) (wire : List Bytes) :
      UnitRun u s l { m with offered := offered, wire := wire }
  | work {l : List LogEvent} {m : State} {w : List Bytes} (h : UnitRun u s l m) (hw : ∀ dg ∈ w, dg ∈ m.isWork ∨ DatagramLen dg.length) :
      UnitRun u s l { m with isWork := w }

/-- Every queue has a Q field. -/
theorem exists_queueOf_eq (q : QueueId) : ∃ n, queueOf n = some q := by
  cases q
  · exact ⟨0, rfl⟩
  · exact ⟨1, rfl⟩
  · exact ⟨2, rfl⟩
  · exact ⟨3, rfl⟩
  · exact ⟨4, rfl⟩
  · exact ⟨5, rfl⟩
  · exact ⟨6, rfl⟩

/-- A unit pops the head of a queue. -/
theorem UnitRun.pop {u : Agent} {s m : State} {l : List LogEvent} (h : UnitRun u s l m) {q : QueueId} {r : Result} {qs : Queues}
    (hq : m.queues.pop q = some (r, qs)) : UnitRun u s l { m with queues := qs } := by
  obtain ⟨n, hn⟩ := exists_queueOf_eq q
  exact h.body (i := .qpop n) trivial (.qpop hn hq)

/-- A hand-off ends a run that has logged nothing. -/
theorem UnitRun.handOff {u : Agent} {s m : State} (h : UnitRun u s [] m) (q : QueueId) (o : Operands) :
    ∃ l, UnitRun u s l (m.handOff u q o) := by
  rcases handOff_cases u q o m with ⟨he, hl, hf⟩ | he | he <;> rw [he]
  · obtain ⟨n, hn⟩ := exists_queueOf_eq q
    exact ⟨_, h.body (i := .qadd n) trivial (.qadd hn hl hf)⟩
  · exact ⟨_, h.drop _⟩
  · exact ⟨_, h.drop _⟩

theorem linkSendPop_eq_some {s t : State} {e : LinkElem} (h : linkSendPop s = some (e, t)) :
    ∃ q r qs, s.queues.pop q = some (r, qs) ∧ t = { s with queues := qs } := by
  have pop0 {f : LinkElem} {rest : List LinkElem} (hq : s.queues.q0 = f :: rest) :
      ∃ r, s.queues.pop .q0 = some (r, { s.queues with q0 := rest }) := by simp [Queues.pop, hq]
  have pop1 {f : LinkElem} {rest : List LinkElem} (hq : s.queues.q1 = f :: rest) :
      ∃ r, s.queues.pop .q1 = some (r, { s.queues with q1 := rest }) := by simp [Queues.pop, hq]
  unfold linkSendPop at h
  split at h
  case h_1 => cases h
  case h_2 h0 _ =>
    cases h
    obtain ⟨r, hr⟩ := pop0 h0
    exact ⟨_, r, _, hr, rfl⟩
  case h_3 _ h1 =>
    cases h
    obtain ⟨r, hr⟩ := pop1 h1
    exact ⟨_, r, _, hr, rfl⟩
  case h_4 h0 h1 =>
    split at h <;> cases h
    · obtain ⟨r, hr⟩ := pop1 h1
      exact ⟨_, r, _, hr, rfl⟩
    · obtain ⟨r, hr⟩ := pop0 h0
      exact ⟨_, r, _, hr, rfl⟩

theorem stepLinkSend_run (s : State) : ∃ l, UnitRun .linkSend s l (stepLinkSend s) := by
  unfold stepLinkSend
  split
  · exact ⟨_, .done⟩
  · rename_i e t hp
    obtain ⟨q, r, qs, hq, rfl⟩ := linkSendPop_eq_some hp
    have run : UnitRun .linkSend s [] { s with queues := qs } := UnitRun.done.pop hq
    split
    · exact ⟨_, run.halt (.inl rfl)⟩
    · exact ⟨_, run.ports _ _⟩

theorem stepLinkRecv_run (s : State) : ∃ l, UnitRun .linkRecv s l (stepLinkRecv s) := by
  unfold stepLinkRecv
  split
  · exact ⟨_, .done⟩
  · rename_i c rest _
    have run : UnitRun .linkRecv s [] { s with offered := rest } := UnitRun.done.ports rest s.wire
    unfold linkReceive
    split
    · exact ⟨_, run.halt (.inr rfl)⟩
    · dsimp only
      split
      · exact ⟨_, run.drop _⟩
      · exact run.handOff _ _

/-! ### The datagrams IS holds -/

theorem ipHeader_length (s : State) (proto : Byte) (tl : Nat) (df mf : Bool) (off : Nat) :
    (ipHeader s proto tl df mf off).length = Config.ipHdrLen := by
  simp [ipHeader, headerWith, Config.ipHdrLen]

theorem slicePayload_length_le (d : Bytes) (i : Nat) : (slicePayload d i).length ≤ Config.maxSlice := by
  rw [slicePayload, slice_length]
  omega

theorem datagram_datagramLen (s : State) (proto : Byte) (d : Bytes) (i : Nat) : DatagramLen (datagram s proto d i).length := by
  have hp := slicePayload_length_le d i
  have hl : (datagram s proto d i).length = Config.ipHdrLen + (slicePayload d i).length := by
    simp only [datagram, List.length_append]
    split <;> rw [ipHeader_length]
  rw [DatagramLen, hl]
  omega

theorem fragment_datagramLen {s : State} {proto : Byte} {d dg : Bytes} (h : dg ∈ (fragment s proto d).list) : DatagramLen dg.length := by
  unfold fragment at h
  split at h
  · simp at h
  · obtain ⟨i, _, rfl⟩ := List.mem_map.1 h
    exact datagram_datagramLen s proto d i

theorem ipSendTake_run (s : State) : ∃ l, UnitRun .ipSend s l (ipSendTake s) := by
  unfold ipSendTake
  split
  · exact ⟨_, .done⟩
  · rename_i e rest hq
    have run : UnitRun .ipSend s [] { s with queues := { s.queues with q2 := rest } } :=
      UnitRun.done.pop (q := .q2) (by simp only [Queues.pop, hq]; rfl)
    dsimp only
    split
    · exact ⟨_, run.drop _⟩
    · exact ⟨_, run.work fun dg hd => .inr (fragment_datagramLen hd)⟩

theorem handOff_isWork (s : State) (u : Agent) (q : QueueId) (o : Operands) : (s.handOff u q o).isWork = s.isWork := by
  rcases handOff_cases u q o s with ⟨h, _⟩ | h | h <;> rw [h] <;> rfl

theorem ipSendResolve_run {s : State} {dg : Bytes} {rest : List Bytes} (hw : s.isWork = dg :: rest) :
    ∃ l, UnitRun .ipSend s l (ipSendResolve dg rest s) := by
  have run : UnitRun .ipSend s [] (arpfindBody (destIp s) s).2 := UnitRun.done.body (i := .arpfind) rfl (arpfindBody_effect _ _)
  unfold ipSendResolve
  dsimp only
  split
  · obtain ⟨l, run⟩ := run.handOff .q0 { mac := (arpfindBody (destIp s) s).1.mac, et := Config.ethertypeIpv4, d := dg }
    have hm : ((arpfindBody (destIp s) s).2.handOff .ipSend .q0
        { mac := (arpfindBody (destIp s) s).1.mac, et := Config.ethertypeIpv4, d := dg }).isWork = dg :: rest := by
      rw [handOff_isWork, (arpfindBody_effect _ _).isWork_eq, hw]
    exact ⟨l, run.work fun x hx => .inl (hm ▸ List.mem_cons_of_mem _ hx)⟩
  · exact ⟨_, run⟩

theorem stepIpSend_run (s : State) : ∃ l, UnitRun .ipSend s l (stepIpSend s) := by
  unfold stepIpSend
  split
  · exact ipSendTake_run s
  · rename_i hw
    exact ipSendResolve_run hw

theorem stepIpRecv_run {s t : State} (h : stepIpRecv s = .next t) : ∃ l, UnitRun .ipRecv s l t := by
  unfold stepIpRecv at h
  split at h
  · cases h; exact ⟨_, .done⟩
  · rename_i d rest hq
    have run : UnitRun .ipRecv s [] { s with queues := { s.queues with q3 := rest } } :=
      UnitRun.done.pop (q := .q3) (by simp only [Queues.pop, hq]; rfl)
    split at h <;> cases h
    rename_i r m hb
    have run := run.body (i := .ipreasm) rfl (reasmBody_effect hb)
    unfold ipReceiveDeliver
    split
    · exact ⟨_, run.drop _⟩
    · split
      · exact run.handOff _ _
      · exact ⟨_, run⟩

theorem stepArpSend_run (s : State) : ∃ l, UnitRun .arpSend s l (stepArpSend s) := by
  unfold stepArpSend
  split
  · exact ⟨_, .done⟩
  · rename_i ip rest hq
    have run : UnitRun .arpSend s [] { s with queues := { s.queues with q5 := rest } } :=
      UnitRun.done.pop (q := .q5) (by simp only [Queues.pop, hq]; rfl)
    exact run.handOff _ _

theorem stepArpRecv_run (s : State) : ∃ l, UnitRun .arpRecv s l (stepArpRecv s) := by
  unfold stepArpRecv
  split
  · exact ⟨_, .done⟩
  · rename_i a rest hq
    have run : UnitRun .arpRecv s [] { s with queues := { s.queues with q4 := rest } } :=
      UnitRun.done.pop (q := .q4) (by simp only [Queues.pop, hq]; rfl)
    have run := run.body (i := .arprx) rfl (arprxBody_effect a _)
    dsimp only
    split
    · exact ⟨_, run.drop _⟩
    · split
      · exact run.handOff _ _
      · exact ⟨_, run⟩

/-- Every unit step that answers a next state is a run of its unit. -/
theorem unitStep_run {u : Agent} {s t : State} (h : unitStep u s = .next t) : ∃ l, UnitRun u s l t := by
  cases u with
  | linkSend => cases h; exact stepLinkSend_run s
  | linkRecv => cases h; exact stepLinkRecv_run s
  | ipSend => cases h; exact stepIpSend_run s
  | ipRecv => exact stepIpRecv_run h
  | arpSend => cases h; exact stepArpSend_run s
  | arpRecv => cases h; exact stepArpRecv_run s

/-! ## The block -/

/-- What one step of the block can do (R310): the move at the head of the agenda, or a step of its own. -/
inductive Transition (s : State) : State → Prop where
  | illegal {w : Word} {ops : Operands} {draw : Draws} {rest : List Event} {e : Illegal} (ha : s.agenda = .command w ops draw :: rest)
      (hd : decode w = .error e) : Transition s (State.illegal { s with agenda := rest, ops := ops, draw := draw })
  | command {w : Word} {ops : Operands} {draw : Draws} {rest : List Event} {i : Instr} {t : State}
      (ha : s.agenda = .command w ops draw :: rest) (hd : decode w = .ok i)
      (hc : CommandAnswers i { s with agenda := rest, ops := ops, draw := draw } t) : Transition s t
  | offer {c : Capture} {rest : List Event} (ha : s.agenda = .offer c :: rest) :
      Transition s { s with agenda := rest, offered := s.offered ++ [c] }
  | idleTurn {u : Agent} {draw : Draws} {rest : List Event} (ha : s.agenda = .turn u draw :: rest) : Transition s { s with agenda := rest }
  | turn {u : Agent} {draw : Draws} {rest : List Event} {l : List LogEvent} {t : State} (ha : s.agenda = .turn u draw :: rest)
      (hu : unitEnabled u s = true) (hr : UnitRun u { s with agenda := rest, draw := draw } l t) : Transition s t
  | reset {rest : List Event} (ha : s.agenda = .reset :: rest) : Transition s (State.resetBlock { s with agenda := rest })
  | wait (ha : s.agenda = []) : Transition s s
  | own {u : Agent} {l : List LogEvent} {t : State} (ha : s.agenda = []) (hu : unitEnabled u s = true)
      (hs : step s = unitStep u { s with draw := Config.freeDraws s.draws, draws := s.draws + 1 })
      (hr : UnitRun u { s with draw := Config.freeDraws s.draws, draws := s.draws + 1 } l t) : Transition s t

theorem step_transition_of_nil {s t : State} (h : step s = .next t) (ha : s.agenda = []) : Transition s t := by
  have hs := step_of_nil s ha
  rcases autonomousStep_cases s with ⟨_, hw⟩ | ⟨u, hu, ho⟩
  · rw [hs, hw] at h
    cases h
    exact .wait ha
  · have hs' := hs.trans ho
    obtain ⟨l, hr⟩ := unitStep_run (hs'.symm.trans h)
    exact .own ha hu hs' hr

theorem step_transition_of_command {s t : State} {w : Word} {ops : Operands} {draw : Draws} {rest : List Event} (h : step s = .next t)
    (ha : s.agenda = .command w ops draw :: rest) : Transition s t := by
  rw [step_of_agenda s _ _ ha, perform, runCommand] at h
  dsimp only at h
  split at h
  · rename_i hd
    cases h
    exact .illegal ha hd
  · rename_i hd
    exact .command ha hd (exec_commandAnswers h)

theorem step_transition_of_turn {s t : State} {u : Agent} {draw : Draws} {rest : List Event} (h : step s = .next t)
    (ha : s.agenda = .turn u draw :: rest) : Transition s t := by
  rw [step_of_agenda s _ _ ha, perform, runTurn] at h
  split at h
  · rename_i hu
    obtain ⟨l, hr⟩ := unitStep_run h
    exact .turn ha hu hr
  · cases h
    exact .idleTurn ha

/-- Every step that answers a next state is one of the transitions. -/
theorem step_transition {s t : State} (h : step s = .next t) : Transition s t := by
  match ha : s.agenda with
  | [] => exact step_transition_of_nil h ha
  | .command _ _ _ :: _ => exact step_transition_of_command h ha
  | .turn _ _ :: _ => exact step_transition_of_turn h ha
  | .offer _ :: _ =>
    rw [step_of_agenda s _ _ ha] at h
    cases h
    exact .offer ha
  | .reset :: _ =>
    rw [step_of_agenda s _ _ ha] at h
    cases h
    exact .reset ha

end Sys2Proof.Machine
end

section
/-! PROOFS. PHASE, the log and the cache through every transition (R44, R345, R46), from what a command and a unit step can do. -/

namespace Sys2Proof.Machine

/-! ## PHASE -/

/-- No unit's rule names START. -/
theorem UnitCalls.ne_start {u : Agent} {i : Instr} (h : UnitCalls u i) : i ≠ .start := by rintro rfl; exact h

theorem UnitRun.phase_eq {u : Agent} {s t : State} {l : List LogEvent} (h : UnitRun u s l t) : t.phase = s.phase := by
  induction h with
  | done => rfl
  | body _ hi he ih => exact (he.phase_eq.resolve_right fun hs => hi.ne_start hs.2).trans ih
  | drop _ _ ih | halt _ _ ih | ports _ _ _ ih | work _ _ ih => exact ih

/-- Settles O14: each transition by what it can do; only START's effect and the reset block write PHASE. -/
theorem onlyStartAndResetChangePhase : Obligations.OnlyStartAndResetChangePhase := by
  intro s t h
  cases step_transition h with
  | command ha hd hc =>
    obtain ⟨m, r, he, rfl⟩ := hc
    rcases he.phase_eq with hp | ⟨hp, rfl⟩
    · exact .inl hp
    · exact .inr (.inl ⟨hp, _, _, _, _, ha, hd⟩)
  | turn _ _ hr => exact .inl hr.phase_eq
  | own _ _ _ hr => exact .inl hr.phase_eq
  | reset ha => exact .inr (.inr ⟨rfl, _, ha⟩)
  | illegal | offer | idleTurn | wait => exact .inl rfl

/-! ## The log -/

theorem UnitRun.log_eq {u : Agent} {s t : State} {l : List LogEvent} (h : UnitRun u s l t) : t.log = s.log ++ l := by
  induction h with
  | done => simp
  | body _ _ he ih => rw [he.log_eq, ih]
  | drop _ _ ih | halt _ _ ih => simp [ih]
  | ports _ _ _ ih | work _ _ ih => exact ih

theorem UnitRun.length_le_one {u : Agent} {s t : State} {l : List LogEvent} (h : UnitRun u s l t) : l.length ≤ 1 := by
  induction h with
  | done => simp
  | drop | halt => simp
  | body _ _ _ ih | ports _ _ _ ih | work _ _ ih => exact ih

/-- Settles O57: a command's effect keeps the log, a unit's run appends at most one event, and a host move none. -/
theorem logAppendOnly : Obligations.LogAppendOnly := by
  intro s t h hreset
  have keeps (hl : t.log = s.log) : ∃ l, t.log = s.log ++ l ∧ l.length ≤ 1 ∧
      ∀ w ops draw rest, s.agenda = .command w ops draw :: rest → l = [] :=
    ⟨[], by simpa using hl, by simp, fun _ _ _ _ _ => rfl⟩
  cases step_transition h with
  | command _ _ hc =>
    obtain ⟨m, r, he, rfl⟩ := hc
    exact keeps he.log_eq
  | turn ha _ hr => exact ⟨_, hr.log_eq, hr.length_le_one, by simp [ha]⟩
  | own ha _ _ hr => exact ⟨_, hr.log_eq, hr.length_le_one, by simp [ha]⟩
  | reset ha => exact absurd ha (hreset _)
  | illegal | offer | idleTurn | wait => exact keeps rfl

/-! ## The cache -/

/-- The commands that write the cache (R46). -/
def CacheWriter (i : Instr) : Prop := (∃ f, i = .arpins f) ∨ (∃ f, i = .arpupd f) ∨ i = .arprx

/-- AR is the one unit whose rule names a command that writes the cache (R317). -/
theorem UnitCalls.eq_arpRecv {u : Agent} {i : Instr} (h : UnitCalls u i) (hi : CacheWriter i) : u = .arpRecv := by
  rcases hi with ⟨f, rfl⟩ | ⟨f, rfl⟩ | rfl
  · exact h.elim
  · exact h.elim
  · exact h

theorem CommandEffect.cacheWriter {s m : State} {i : Instr} (h : CommandEffect s i m) (hc : m.cache ≠ s.cache) : CacheWriter i := by
  cases h with
  | arpins => exact .inl ⟨_, rfl⟩
  | arpupd => exact .inr (.inl ⟨_, rfl⟩)
  | arprx => exact .inr (.inr rfl)
  | _ => exact absurd rfl hc

/-- The IPs `s` holds `t` holds too. -/
def CacheKept (s t : State) : Prop := ∀ ip, cacheFind s ip ≠ none → cacheFind t ip ≠ none

theorem CacheKept.of_cache_eq {s t : State} (h : t.cache = s.cache) : CacheKept s t := by
  intro ip hip
  rwa [cacheFind, h]

theorem CacheKept.trans {s m t : State} (h : CacheKept s m) (h' : CacheKept m t) : CacheKept s t := fun ip hip => h' ip (h ip hip)

/-- A put overwrites or adds an entry and takes none away. -/
theorem cacheKept_cachePut (s : State) (ip : IpAddr) (e : CacheEntry) : CacheKept s (s.cachePut ip e) := by
  intro k hk
  rw [cacheFind_cachePut]
  split
  · simp
  · exact hk

theorem CommandEffect.cacheKept {s m : State} {i : Instr} (h : CommandEffect s i m) : CacheKept s m := by
  cases h with
  | arpins | arpupd | arprx => exact cacheKept_cachePut s _ _
  | _ => exact .of_cache_eq rfl

theorem UnitRun.cacheKept {u : Agent} {s t : State} {l : List LogEvent} (h : UnitRun u s l t) : CacheKept s t := by
  induction h with
  | done => exact .of_cache_eq rfl
  | body _ _ he ih => exact ih.trans he.cacheKept
  | drop _ _ ih | halt _ _ ih | ports _ _ _ ih | work _ _ ih => exact ih

theorem UnitRun.eq_arpRecv {u : Agent} {s t : State} {l : List LogEvent} (h : UnitRun u s l t) (hc : t.cache ≠ s.cache) :
    u = .arpRecv := by
  induction h with
  | done => exact absurd rfl hc
  | @body _ m m' _ _ hi he ih =>
    by_cases hm : m'.cache = m.cache
    · exact ih (hm ▸ hc)
    · exact hi.eq_arpRecv (he.cacheWriter hm)
  | drop _ _ ih | halt _ _ ih | ports _ _ _ ih | work _ _ ih => exact ih hc

theorem Transition.cacheKept {s t : State} (h : Transition s t) (hreset : ∀ rest, s.agenda ≠ .reset :: rest) : CacheKept s t := by
  cases h with
  | command _ _ hc =>
    obtain ⟨m, r, he, rfl⟩ := hc
    exact he.cacheKept
  | turn _ _ hr => exact hr.cacheKept
  | own _ _ _ hr => exact hr.cacheKept
  | reset ha => exact absurd ha (hreset _)
  | illegal | offer | idleTurn | wait => exact .of_cache_eq rfl

/-- Settles O37: every transition keeps the IPs held, and one that changes the table ran a writer of it or is AR's. -/
theorem cacheWritersOnly : Obligations.CacheWritersOnly := by
  intro s t h hreset
  refine ⟨(step_transition h).cacheKept hreset, fun hne => ?_⟩
  cases step_transition h with
  | command ha hd hc =>
    obtain ⟨m, r, he, rfl⟩ := hc
    refine .inl ⟨_, _, _, _, ha, ?_⟩
    rcases he.cacheWriter hne with ⟨f, rfl⟩ | ⟨f, rfl⟩ | rfl
    · exact .inl ⟨f, hd⟩
    · exact .inr (.inl ⟨f, hd⟩)
    · exact .inr (.inr hd)
  | turn ha _ hr =>
    obtain rfl := hr.eq_arpRecv hne
    exact .inr (.inl ⟨_, _, ha⟩)
  | own ha hu hs hr =>
    obtain rfl := hr.eq_arpRecv hne
    exact .inr (.inr ⟨ha, hu, hs⟩)
  | reset ha => exact absurd ha (hreset _)
  | illegal | offer | idleTurn | wait => exact absurd rfl hne

end Sys2Proof.Machine
end

section
/-! PROOFS. The reassembly slots under the invariant (R50 to R52, R290, R293): an insertion keeps a slot's invariant but for its being
incomplete, and a complete slot can be read out. -/

namespace Sys2Proof.Machine

/-! ## Rising lists -/

/-- An insertion keeps a list rising by a strict order that is total on unequal entries. -/
theorem pairwise_insertSorted {α : Type} {lt : α → α → Bool} (htrans : ∀ a b c, lt a b = true → lt b c = true → lt a c = true)
    (heq : ∀ a b, lt a b = false → lt b a = false → b = a) (a : α) {l : List α} (h : l.Pairwise (fun x y => lt x y = true)) :
    (insertSorted lt a l).Pairwise (fun x y => lt x y = true) := by
  induction l with
  | nil => simp [insertSorted]
  | cons b l ih =>
    obtain ⟨hb, hl⟩ := List.pairwise_cons.1 h
    cases hab : lt a b with
    | true =>
      simp only [insertSorted, hab, if_true]
      refine List.pairwise_cons.2 ⟨fun y hy => ?_, h⟩
      rcases List.mem_cons.1 hy with rfl | hy
      · exact hab
      · exact htrans a b y hab (hb y hy)
    | false =>
      cases hba : lt b a with
      | true =>
        simp only [insertSorted, hab, hba, Bool.false_eq_true, if_true, if_false]
        refine List.pairwise_cons.2 ⟨fun y hy => ?_, ih hl⟩
        rcases mem_insertSorted _ _ _ _ hy with rfl | hy
        · exact hba
        · exact hb y hy
      | false =>
        obtain rfl := heq a b hab hba
        simpa only [insertSorted, hab, Bool.false_eq_true, if_false] using h

theorem recLt_trans (a b c : FragRec) (hab : recLt a b = true) (hbc : recLt b c = true) : recLt a c = true := by
  rw [recLt_iff] at *
  omega

theorem eq_of_not_recLt (a b : FragRec) (hab : recLt a b = false) (hba : recLt b a = false) : b = a := by
  have hab : ¬ recLt a b = true := by simp [hab]
  have hba : ¬ recLt b a = true := by simp [hba]
  rw [recLt_iff] at hab hba
  obtain ⟨oa, la⟩ := a
  obtain ⟨ob, lb⟩ := b
  simp only [FragRec.mk.injEq]
  dsimp only at hab hba
  omega

/-! ## Chains and written cells -/

theorem Chain.mono {recs recs' : List FragRec} {c : Nat} (h : Chain recs c) (hsub : ∀ r ∈ recs, r ∈ recs') : Chain recs' c := by
  induction h with
  | start => exact .start
  | next _ hr hL ih => exact .next ih (hsub _ hr) hL

/-- A chain ends inside the buffer where its records do. -/
theorem Chain.le {recs : List FragRec} {c N : Nat} (h : Chain recs c) (hin : ∀ r ∈ recs, r.off + r.len ≤ N) : c ≤ N := by
  cases h with
  | start => exact Nat.zero_le N
  | next _ hr _ => exact hin _ hr

/-- The cells below the end of a chain are written where those of its records are (R52). -/
theorem Chain.written {recs : List FragRec} {c : Nat} {m : Memory} (h : Chain recs c)
    (hw : ∀ r ∈ recs, Written m r.off (r.off + r.len)) : Written m 0 c := by
  induction h with
  | start => exact fun i _ hi => absurd hi (Nat.not_lt_zero i)
  | @next c L _ hr _ ih =>
    intro i h0 hi
    by_cases hc : i < c
    · exact ih i h0 hc
    · exact hw _ hr i (Nat.le_of_not_lt hc) hi

theorem written_write_self (m : Memory) (o : Nat) (p : Bytes) : Written (m.write o p) o (o + p.length) := by
  intro i ho hi
  obtain ⟨k, rfl⟩ := Nat.exists_eq_add_of_le ho
  have hk : k < p.length := by omega
  simp [Memory.read_write_inside m o k p hk, hk]

/-- A write leaves written cells written. -/
theorem Written.write {m : Memory} {a b : Nat} (h : Written m a b) (o : Nat) (p : Bytes) : Written (m.write o p) a b := by
  intro i ha hb
  by_cases hin : o ≤ i ∧ i < o + p.length
  · exact written_write_self m o p i hin.1 hin.2
  · rw [Memory.read_write_outside m o i p (by omega)]
    exact h i ha hb

/-! ## Insertion into a slot -/

theorem Slot.inv_fresh : Slot.fresh.Inv where
  buf := Memory.wf_nil
  recsSorted := .nil
  recsInside := by simp [Slot.fresh]
  recsWritten := by simp [Slot.fresh]
  cursorChain := .start
  cursorInside := Nat.zero_le _
  cursorWritten := Chain.start.written (recs := []) (by simp)
  cursorStopped := by simp [Slot.fresh]
  expectedInside := by simp [Slot.fresh]
  incomplete := by simp [Slot.fresh]

section Insert

variable {sl : Slot} {o : Nat} {p : Bytes} {last : Bool}

theorem mem_slotInsert_recs {r : FragRec} (h : r ∈ (slotInsert sl o p last).recs) : r = ⟨o, p.length⟩ ∨ r ∈ sl.recs :=
  mem_insertSorted _ _ _ _ h

theorem recs_subset_slotInsert (sl : Slot) (o : Nat) (p : Bytes) (last : Bool) : ∀ r ∈ sl.recs, r ∈ (slotInsert sl o p last).recs :=
  fun _ hr => old_mem_insertSorted _ _ _ _ (eq_of_not_recLt _) hr

theorem slotInsert_buf_wf (h : sl.Inv) (hp : o + p.length ≤ Config.reasmBufLen) : (slotInsert sl o p last).buf.wf :=
  Memory.write_wf _ _ _ h.buf hp

theorem slotInsert_recsInside (h : sl.Inv) (hp : o + p.length ≤ Config.reasmBufLen) :
    ∀ r ∈ (slotInsert sl o p last).recs, r.off + r.len ≤ Config.reasmBufLen := by
  intro r hr
  rcases mem_slotInsert_recs hr with rfl | hr
  · exact hp
  · exact h.recsInside r hr

theorem slotInsert_recsWritten (h : sl.Inv) :
    ∀ r ∈ (slotInsert sl o p last).recs, Written (slotInsert sl o p last).buf r.off (r.off + r.len) := by
  intro r hr
  rcases mem_slotInsert_recs hr with rfl | hr
  · exact written_write_self _ _ _
  · exact (h.recsWritten r hr).write _ _

theorem slotInsert_cursorChain (h : sl.Inv) : Chain (slotInsert sl o p last).recs (slotInsert sl o p last).cursor :=
  scan_chain _ _ (h.cursorChain.mono (recs_subset_slotInsert sl o p last))

theorem slotInsert_cursorWritten (h : sl.Inv) : Written (slotInsert sl o p last).buf 0 (slotInsert sl o p last).cursor :=
  (slotInsert_cursorChain h).written (slotInsert_recsWritten h)

/-- An insertion inside the buffer that does not complete the slot keeps its invariant (R290 steps 2 to 5). -/
theorem slotInsert_inv (h : sl.Inv) (hp : o + p.length ≤ Config.reasmBufLen)
    (he : (slotInsert sl o p last).expected ≠ some (slotInsert sl o p last).cursor) : (slotInsert sl o p last).Inv where
  buf := slotInsert_buf_wf h hp
  recsSorted := pairwise_insertSorted recLt_trans eq_of_not_recLt _ h.recsSorted
  recsInside := slotInsert_recsInside h hp
  recsWritten := slotInsert_recsWritten h
  cursorChain := slotInsert_cursorChain h
  cursorInside := (slotInsert_cursorChain h).le (slotInsert_recsInside h hp)
  cursorWritten := slotInsert_cursorWritten h
  cursorStopped := fun r hr hc => Nat.eq_zero_of_le_zero (scan_stopped _ _ ▸ longestAt_ge _ _ r hr hc)
  expectedInside := by
    intro e hexp
    cases last with
    | true => cases hexp; exact hp
    | false => exact h.expectedInside e hexp
  incomplete := he

/-- The cells a delivery reads are written: it cannot take the fault of R82. -/
theorem readRange_slotInsert_ne_none (h : sl.Inv) (hp : o + p.length ≤ Config.reasmBufLen) :
    (slotInsert sl o p last).buf.readRange 0 (slotInsert sl o p last).cursor ≠ none := by
  have hw : Written (slotInsert sl o p last).buf 0 (0 + (slotInsert sl o p last).cursor) := by
    simpa using slotInsert_cursorWritten h
  exact Option.isSome_iff_ne_none.1 (Memory.readRange_isSome _ _ _ (slotInsert_buf_wf h hp).1 hw)

end Insert

/-! ## The unit inserted -/

/-- A unit that is not dropped lies inside the buffer, and there is a slot for it (R290 step 1). -/
theorem reasmDrop_eq_none {d : Bytes} {s : State} (h : reasmDrop d s = none) :
    ipOffset d + (slice d Config.ipHdrLen (ipTotalLen d)).length ≤ Config.reasmBufLen ∧
      (slotFind s (ipId d) ≠ none ∨ atCapacity s.params.reasmSlots s.reasm.length = false) := by
  unfold reasmDrop at h
  split_ifs at h with hshort hlen hover hslot
  rw [slice_length]
  exact ⟨by omega, by simpa [imp_iff_not_or] using hslot⟩

theorem mem_of_lookup_eq_some {w : Nat} {β : Type} {l : List (BitVec w × β)} {k : BitVec w} {v : β} (h : l.lookup k = some v) : (k, v) ∈ l := by
  obtain ⟨l₁, l₂, rfl, _⟩ := List.lookup_eq_some_iff.1 h
  simp

/-- The slot a unit is inserted into, the one in place or a new one, meets the slot invariant. -/
theorem State.Inv.slot {s : State} (h : s.Inv) (id : Half) : ((slotFind s id).getD Slot.fresh).Inv := by
  cases hf : slotFind s id with
  | none => exact Slot.inv_fresh
  | some sl => exact h.slots _ (mem_of_lookup_eq_some hf)

/-- IPREASM-body answers in every state that meets the invariant. -/
theorem State.Inv.reasmBody_answers {s : State} (h : s.Inv) (d : Bytes) : ∃ r t, reasmBody d s = .next (r, t) := by
  rcases reasmBody_cases d s with ⟨c, _, hb⟩ | ⟨hd, sl, rfl, ⟨_, hb⟩ | ⟨_, b, _, hb⟩ | ⟨_, hn, _⟩⟩
  · exact ⟨_, _, hb⟩
  · exact ⟨_, _, hb⟩
  · exact ⟨_, _, hb⟩
  · exact absurd hn (readRange_slotInsert_ne_none (h.slot _) (reasmDrop_eq_none hd).1)

end Sys2Proof.Machine
end

section
/-! PROOFS. The invariant of the block (R33, R43 to R52, R181): one rule per state operation, then per command effect, unit run and transition. -/

namespace Sys2Proof.Machine

open Sys2Proof.Config (Draws)

/-! ## Capacities and tables -/

theorem Fits.mono {cap : Option Nat} {n k : Nat} (h : Fits cap n) (hk : k ≤ n) : Fits cap k := fun c hc => hk.trans (h c hc)

/-- One more entry fits where there is room. -/
theorem fits_succ {cap : Option Nat} {n : Nat} (h : atCapacity cap n = false) : Fits cap (n + 1) := by
  rintro c rfl
  exact Nat.succ_le_of_lt (by simpa [atCapacity] using h)

/-- A put fits where its key is present or there is room. -/
theorem fits_insertSorted {w : Nat} {β : Type} {cap : Option Nat} {l : List (BitVec w × β)} {k : BitVec w} (v : β) (hs : SortedKeys l)
    (hf : Fits cap l.length) (hr : l.lookup k ≠ none ∨ atCapacity cap l.length = false) : Fits cap (insertSorted keyLt (k, v) l).length := by
  by_cases hk : l.lookup k = none
  · rw [length_insertSorted_absent k v l hk]
    exact fits_succ (hr.resolve_left fun hn => hn hk)
  · rwa [length_insertSorted_present k v l hs hk]

/-- The pending set stays rising. -/
theorem pending_sorted_insert (ip : IpAddr) {l : List IpAddr} (h : l.Pairwise (fun x y => x.toNat < y.toNat)) :
    (insertSorted BitVec.ult ip l).Pairwise (fun x y => x.toNat < y.toNat) := by
  simp only [← ult_iff] at h ⊢
  refine pairwise_insertSorted (fun a b c hab hbc => ?_) (fun a b hab hba => ?_) ip h
  · rw [ult_iff] at *
    exact hab.trans hbc
  · have hab : ¬ a.ult b = true := by simp [hab]
    have hba : ¬ b.ult a = true := by simp [hba]
    rw [ult_iff] at hab hba
    exact BitVec.eq_of_toNat_eq (by omega)

/-! ## Queues by their payload lengths -/

theorem Queues.length_payloadLens (qs : Queues) (q : QueueId) : (qs.payloadLens q).length = qs.len q := by
  cases q <;> simp [payloadLens, len]

theorem Queues.payloadLens_push (qs : Queues) (q q' : QueueId) (o : Operands) :
    (qs.push q o).payloadLens q' = if q' = q then qs.payloadLens q' ++ [elementLen q o] else qs.payloadLens q' := by
  cases q <;> cases q' <;> simp [push, payloadLens, elementLen]

/-- A pop takes elements from no queue but at the head. -/
theorem Queues.payloadLens_pop {qs qs' : Queues} {q : QueueId} {r : Result} (h : qs.pop q = some (r, qs')) (q' : QueueId) :
    (qs'.payloadLens q').Sublist (qs.payloadLens q') := by
  cases q <;> simp only [pop] at h <;> split at h <;> cases h <;> rename_i hq <;> cases q' <;> simp [payloadLens, hq]

/-- What the invariant says of the queues, by the payload lengths they hold (R48, R49, R181). -/
structure QueueLens (p : Config.Params) (lens : QueueId → List Nat) : Prop where
  fit : ∀ q, Fits (p.queueDepth.get q) (lens q).length
  arp : ∀ n ∈ lens .q4, n = Config.arpLen
  checked : ∀ q, p.lenCheck.get q = true → ∀ n ∈ lens q, Config.payloadMin ≤ n ∧ n ≤ Config.payloadMax

theorem State.Inv.queueLens {s : State} (h : s.Inv) : QueueLens s.params s.queues.payloadLens where
  fit q := by rw [Queues.length_payloadLens]; exact h.queuesFit q
  arp n hn := by
    obtain ⟨a, ha, rfl⟩ := List.mem_map.1 hn
    exact h.arpElems a ha
  checked := h.lengthsChecked

theorem State.Inv.setQueues {s : State} (h : s.Inv) {qs : Queues} (hq : QueueLens s.params qs.payloadLens) :
    State.Inv { s with queues := qs } :=
  { h with
    queuesFit := fun q => Queues.length_payloadLens qs q ▸ hq.fit q
    arpElems := fun _ ha => hq.arp _ (List.mem_map_of_mem ha)
    lengthsChecked := hq.checked }

theorem QueueLens.sublist {p : Config.Params} {lens lens' : QueueId → List Nat} (h : QueueLens p lens)
    (hs : ∀ q, (lens' q).Sublist (lens q)) : QueueLens p lens' where
  fit q := (h.fit q).mono (hs q).length_le
  arp n hn := h.arp n ((hs .q4).subset hn)
  checked q hq n hn := h.checked q hq n ((hs q).subset hn)

/-- An admitted element keeps the lengths in order (R181). -/
theorem QueueLens.push {s : State} (h : QueueLens s.params s.queues.payloadLens) {q : QueueId} {o : Operands}
    (hl : lengthRefused q o s = false) (hf : queueFull q s = false) : QueueLens s.params (s.queues.push q o).payloadLens := by
  have hl : ¬ lengthRefused q o s = true := by simp [hl]
  rw [lengthRefused_iff, not_or, not_and, not_and] at hl
  obtain ⟨harp, hcheck⟩ := hl
  refine ⟨fun q' => ?_, fun n hn => ?_, fun q' hq' n hn => ?_⟩
  · rw [Queues.payloadLens_push]
    split
    · rename_i hq
      subst hq
      rw [List.length_append, List.length_singleton, Queues.length_payloadLens]
      exact fits_succ hf
    · exact h.fit q'
  · rw [Queues.payloadLens_push] at hn
    split at hn
    · rename_i hq
      rcases List.mem_append.1 hn with hn | hn
      · exact h.arp n hn
      · obtain rfl := List.mem_singleton.1 hn
        exact not_not.1 (harp hq.symm)
    · exact h.arp n hn
  · rw [Queues.payloadLens_push] at hn
    split at hn
    · rename_i hq
      subst hq
      rcases List.mem_append.1 hn with hn | hn
      · exact h.checked _ hq' n hn
      · obtain rfl := List.mem_singleton.1 hn
        have := hcheck hq'
        simp only [Config.payloadMin, Config.payloadMax]
        omega
    · exact h.checked _ hq' n hn

/-! ## One rule per state operation -/

namespace State.Inv

variable {s : State}

/-- The ports, the moves to come and the draws are no part of the invariant. -/
theorem ports (h : s.Inv) (offered : List Capture) (ops : Operands) (draw : Draws) (results : List Result) (wire : List Bytes)
    (agenda : List Event) (draws : Nat) :
    State.Inv { s with offered := offered, ops := ops, draw := draw, results := results, wire := wire, agenda := agenda, draws := draws } :=
  { h with reserved := h.reserved }

theorem respond (h : s.Inv) (r : Result) : (s.respond r).Inv := h.ports _ _ _ _ _ _ _

theorem resetWith (p : Config.Params) : (State.resetWith p).Inv where
  reserved n := by cases n <;> simp [csrRaw, State.resetWith, Csrs.reset, CsrId.wmask]
  cacheSorted := .nil
  cacheFits _ _ := Nat.zero_le _
  pendingSorted := .nil
  pendingAbsent := by simp [State.resetWith]
  queuesFit q _ _ := by cases q <;> exact Nat.zero_le _
  arpElems := by simp [State.resetWith, Queues.empty]
  lengthsChecked q := by cases q <;> simp [State.resetWith, Queues.empty, Queues.payloadLens]
  reasmSorted := .nil
  reasmFits _ _ := Nat.zero_le _
  slots := by simp [State.resetWith]
  haltsLink := ⟨rfl, rfl, rfl, rfl⟩
  configQuiet _ := ⟨rfl, rfl, rfl⟩
  workLens := by simp [State.resetWith]

theorem resetBlock (s : State) : s.resetBlock.Inv := (resetWith s.params).ports _ _ _ _ _ _ _

/-- The reserved bits are those of the CSR bank: STATUS has none. -/
theorem reserved_of_csrs (h : s.Inv) {t : State} (hc : t.csrs = s.csrs) (n : CsrId) : csrRaw n t &&& ~~~ n.wmask = 0 := by
  by_cases hn : n = .status
  · subst hn
    simp [CsrId.wmask]
  · rw [csrRaw_of_csrs_eq hn hc]
    exact h.reserved n

/-- A write under the mask leaves reserved bits 0 (R356). -/
theorem csrWrite (h : s.Inv) (id : CsrId) (v : Word) : (s.csrWrite id v).Inv :=
  { h with
    reserved := fun n => by
      by_cases hid : id = .status
      · subst hid
        exact h.reserved_of_csrs rfl n
      by_cases hn : n = id
      · subst hn
        rw [csrRaw_csrWrite_self hid, BitVec.and_assoc, BitVec.and_not_self]
        exact BitVec.and_zero
      · rw [csrRaw_csrWrite_other hn]
        exact h.reserved n }

theorem start (h : s.Inv) : State.Inv { s with phase := .run } :=
  { h with
    reserved := h.reserved_of_csrs rfl
    configQuiet := nofun }

theorem pushElem (h : s.Inv) {q : QueueId} {o : Operands} (hl : lengthRefused q o s = false) (hf : queueFull q s = false) :
    (s.pushElem q o).Inv := h.setQueues (h.queueLens.push hl hf)

theorem pop (h : s.Inv) {q : QueueId} {r : Result} {qs : Queues} (hq : s.queues.pop q = some (r, qs)) :
    State.Inv { s with queues := qs } := h.setQueues (h.queueLens.sublist (Queues.payloadLens_pop hq))

theorem pendingAdd (h : s.Inv) {ip : IpAddr} (hc : cacheFind s ip = none) : (s.pendingAdd ip).Inv :=
  { h with
    pendingSorted := pending_sorted_insert ip h.pendingSorted
    pendingAbsent := fun k hk => by
      rcases mem_insertSorted _ _ _ _ hk with rfl | hk
      · exact hc
      · exact h.pendingAbsent k hk }

/-- A put for an IP that is not pending (R45, R47). -/
theorem cachePut (h : s.Inv) {ip : IpAddr} (e : CacheEntry)
    (hr : cacheFind s ip ≠ none ∨ atCapacity s.params.arpCap s.cache.length = false) (hp : ip ∉ s.pending) : (s.cachePut ip e).Inv :=
  { h with
    cacheSorted := sorted_insertSorted _ _ h.cacheSorted
    cacheFits := fits_insertSorted e h.cacheSorted h.cacheFits hr
    pendingAbsent := fun k hk => by
      rw [cacheFind_cachePut, if_neg (by rintro rfl; exact hp hk)]
      exact h.pendingAbsent k hk }

theorem pendingDel (h : s.Inv) (ip : IpAddr) : (s.pendingDel ip).Inv :=
  { h with
    pendingSorted := h.pendingSorted.filter _
    pendingAbsent := fun k hk => h.pendingAbsent k (List.mem_of_mem_filter hk) }

/-- A put that takes the IP out of Pending (R237, R239). -/
theorem cachePut_pendingDel (h : s.Inv) {ip : IpAddr} (e : CacheEntry)
    (hr : cacheFind s ip ≠ none ∨ atCapacity s.params.arpCap s.cache.length = false) : ((s.cachePut ip e).pendingDel ip).Inv :=
  (h.pendingDel ip).cachePut e hr (by simp)

/-- An IP the cache holds is not pending (R47). -/
theorem not_mem_pending (h : s.Inv) {ip : IpAddr} (hc : cacheFind s ip ≠ none) : ip ∉ s.pending := fun hp => hc (h.pendingAbsent ip hp)

theorem slotPut (h : s.Inv) {id : Half} {sl : Slot} (hs : sl.Inv)
    (hr : slotFind s id ≠ none ∨ atCapacity s.params.reasmSlots s.reasm.length = false) : (s.slotPut id sl).Inv :=
  { h with
    reasmSorted := sorted_insertSorted _ _ h.reasmSorted
    reasmFits := fits_insertSorted sl h.reasmSorted h.reasmFits hr
    slots := fun x hx => by
      rcases mem_insertSorted _ _ _ _ hx with rfl | hx
      · exact hs
      · exact h.slots x hx }

theorem slotDel (h : s.Inv) (id : Half) : (s.slotDel id).Inv :=
  { h with
    reasmSorted := h.reasmSorted.filter _
    reasmFits := h.reasmFits.mono (List.length_filter_le _ _)
    slots := fun x hx => h.slots x (List.mem_of_mem_filter hx) }

/-- In RUN phase the log is free (R44). -/
theorem logEvent (h : s.Inv) (hp : s.phase = .run) (u : Agent) (c : Status) : (s.logEvent u c).Inv :=
  { h with
    reserved := h.reserved_of_csrs rfl
    configQuiet := fun hc => nomatch hp.symm.trans hc }

theorem haltUnit (h : s.Inv) (hp : s.phase = .run) {u : Agent} (hu : u = .linkSend ∨ u = .linkRecv) : (s.haltUnit u).Inv :=
  { h with
    reserved := h.reserved_of_csrs rfl
    haltsLink := by rcases hu with rfl | rfl <;> exact h.haltsLink
    configQuiet := fun hc => nomatch hp.symm.trans hc }

theorem setWork (h : s.Inv) (hp : s.phase = .run) {w : List Bytes} (hw : ∀ dg ∈ w, DatagramLen dg.length) :
    State.Inv { s with isWork := w } :=
  { h with
    reserved := h.reserved_of_csrs rfl
    configQuiet := fun hc => nomatch hp.symm.trans hc
    workLens := hw }

end State.Inv

/-! ## Commands, unit runs, transitions -/

theorem CommandEffect.inv {s m : State} {i : Instr} (he : CommandEffect s i m) (h : s.Inv) : m.Inv := by
  cases he with
  | keep => exact h
  | csrw _ _ v => exact h.csrWrite _ v
  | start => exact h.start
  | qadd _ hl hf => exact h.pushElem hl hf
  | qpop _ hq => exact h.pop hq
  | arpfind hc hl hf => exact (h.pushElem hl hf).pendingAdd hc
  | arpins e hr => exact h.cachePut_pendingDel e (.inr hr)
  | arpupd e hc => exact h.cachePut e (.inl hc) (h.not_mem_pending hc)
  | arprx e hr => exact h.cachePut_pendingDel e hr
  | reasmKeep hd hsl hi =>
    obtain ⟨hlen, hroom⟩ := reasmDrop_eq_none hd
    subst hsl
    exact h.slotPut (slotInsert_inv (h.slot _) hlen hi) hroom
  | reasmDeliver id => exact h.slotDel id

theorem CommandAnswers.inv {s t : State} {i : Instr} (ha : CommandAnswers i s t) (h : s.Inv) : t.Inv := by
  obtain ⟨m, r, he, rfl⟩ := ha
  exact (he.inv h).respond r

/-- A run that starts in RUN phase keeps the invariant. -/
theorem UnitRun.inv {u : Agent} {s t : State} {l : List LogEvent} (hr : UnitRun u s l t) (hp : s.phase = .run) (h : s.Inv) : t.Inv := by
  induction hr with
  | done => exact h
  | body _ _ he ih => exact he.inv ih
  | drop run c ih => exact ih.logEvent (run.phase_eq.trans hp) u c
  | halt run hu ih => exact ih.haltUnit (run.phase_eq.trans hp) hu
  | ports _ offered wire ih => exact ih.ports _ _ _ _ _ _ _
  | work run hw ih => exact ih.setWork (run.phase_eq.trans hp) fun dg hd => (hw dg hd).elim (ih.workLens dg) id

/-- An enabled unit steps in RUN phase. -/
theorem phase_eq_run_of_unitEnabled {u : Agent} {s : State} (h : unitEnabled u s = true) : s.phase = .run := ((unitEnabled_iff u s).1 h).1

theorem Transition.inv {s t : State} (ht : Transition s t) (h : s.Inv) : t.Inv := by
  cases ht with
  | illegal => exact (h.ports _ _ _ _ _ _ _).respond _
  | command _ _ hc => exact hc.inv (h.ports _ _ _ _ _ _ _)
  | offer => exact h.ports _ _ _ _ _ _ _
  | idleTurn => exact h.ports _ _ _ _ _ _ _
  | turn _ hu hr => exact hr.inv (phase_eq_run_of_unitEnabled hu) (h.ports _ _ _ _ _ _ _)
  | reset => exact .resetBlock _
  | wait => exact h
  | own _ hu _ hr => exact hr.inv (phase_eq_run_of_unitEnabled hu) (h.ports _ _ _ _ _ _ _)

/-! ## No step faults -/

namespace State.Inv

variable {s : State}

theorem execIpreasm_answers (h : s.Inv) : ∃ t, execIpreasm s = .next t := by
  obtain ⟨r, t, hb⟩ := h.reasmBody_answers s.ops.d
  exact ⟨_, by rw [execIpreasm, hb]⟩

/-- Every command answers: of the 18 only IPREASM has a path to a fault. -/
theorem exec_answers (h : s.Inv) (i : Instr) : ∃ t, exec i s = .next t := by
  cases i with
  | ipreasm => exact h.execIpreasm_answers
  | csrr | csrw | qadd | qpop | qempty | arpins | arpupd =>
    simp only [exec, execCsrr, execCsrw, execQadd, execQpop, execQempty, execArpins, execArpupd]
    repeat' split
    all_goals exact ⟨_, rfl⟩
  | start | crc32 | crcchk | fenc | fdec | arpfind | arprx | arpreq | ipcsum | ipfrag => exact ⟨_, rfl⟩

theorem stepIpRecv_answers (h : s.Inv) : ∃ t, stepIpRecv s = .next t := by
  unfold stepIpRecv
  split
  · exact ⟨_, rfl⟩
  · rename_i d rest hq
    obtain ⟨r, t, hb⟩ := (h.pop (q := .q3) (by simp only [Queues.pop, hq]; rfl)).reasmBody_answers d
    rw [hb]
    exact ⟨_, rfl⟩

theorem unitStep_answers (h : s.Inv) (u : Agent) : ∃ t, unitStep u s = .next t := by
  cases u with
  | ipRecv => exact h.stepIpRecv_answers
  | linkSend | linkRecv | ipSend | arpSend | arpRecv => exact ⟨_, rfl⟩

theorem perform_answers (h : s.Inv) (e : Event) : ∃ t, perform e s = .next t := by
  cases e with
  | command w ops draw =>
    simp only [perform, runCommand]
    split
    · exact ⟨_, rfl⟩
    · exact (h.ports _ _ _ _ _ _ _).exec_answers _
  | turn u draw =>
    simp only [perform, runTurn]
    split
    · exact (h.ports _ _ _ _ _ _ _).unitStep_answers u
    · exact ⟨_, rfl⟩
  | offer c => exact ⟨_, rfl⟩
  | reset => exact ⟨_, rfl⟩

/-- Every step answers a next state. -/
theorem step_answers (h : s.Inv) : ∃ t, step s = .next t := by
  cases ha : s.agenda with
  | cons e rest =>
    rw [step_of_agenda s e rest ha]
    exact (h.ports _ _ _ _ _ _ _).perform_answers e
  | nil =>
    rw [step_of_nil s ha]
    rcases autonomousStep_cases s with ⟨_, hw⟩ | ⟨u, _, ho⟩
    · exact ⟨s, hw⟩
    · rw [ho]
      exact (h.ports _ _ _ _ _ _ _).unitStep_answers u

end State.Inv

/-- Settles O60: the step answers, since no delivery reads an unwritten cell, and every transition keeps the invariant. -/
theorem invariantKeptByEveryStep : Obligations.InvariantKeptByEveryStep := by
  intro s h
  obtain ⟨t, ht⟩ := h.step_answers
  exact ⟨t, ht, (step_transition ht).inv h⟩

end Sys2Proof.Machine
end

section
/-! PROOFS. FIFO delivery through a queue (R91, R182, R183): a submitted command runs as the next step, and pushes at the tail commute with
pops at the head. -/

namespace Sys2Proof.Machine

/-! ## A submitted command runs -/

/-- The decoder takes back every command whose fields are in range (R111, R115, R116). -/
theorem decode_encode {i : Instr} (h : i.wellFormed = true) : decode (encode i) = .ok i := by
  cases i with
  | csrr n | csrw n =>
    have hn : ¬ 0x0A#8 < n := by simpa [Instr.wellFormed] using h
    simp [decode, encode, operationOf, opcodeOf, unusedFieldSet, usesQueue, usesTag, usesCsr, rangeCheck, hn]
  | qadd q | qpop q | qempty q =>
    have hq : ¬ 6#4 < q := by simpa [Instr.wellFormed] using h
    simp [decode, encode, operationOf, opcodeOf, unusedFieldSet, usesQueue, usesTag, usesCsr, rangeCheck, hq]
  | arpins t | arpupd t =>
    have ht : t ≠ 3#2 := by simpa [Instr.wellFormed] using h
    simp [decode, encode, operationOf, opcodeOf, unusedFieldSet, usesQueue, usesTag, usesCsr, rangeCheck, ht]
  | start | crc32 | crcchk | fenc | fdec | arpfind | arprx | arpreq | ipcsum | ipfrag | ipreasm => decide

/-- The state in which a submitted command runs: its operand record and draws on the port. -/
theorem step_submitOf {i : Instr} (hi : i.wellFormed = true) {s : State} {o : Operands} {rest : List Event}
    (ha : s.agenda = submitOf i o :: rest) :
    step s = exec i { s with agenda := rest, ops := o, draw := ⟨false, false, false⟩ } := by
  rw [step_of_agenda s _ _ ha, submitOf, perform, runCommand, decode_encode hi]

theorem run_succ_of_step {M : Host.Core} {s t : M.State} (h : M.step s = .next t) (k : Nat) : M.run (k + 1) s = M.run k t := by
  rw [Host.Core.run, h]

/-- A run is resumed where it stands. -/
theorem run_add {M : Host.Core} {k : Nat} {s t : M.State} (h : M.run k s = .next t) (k' : Nat) : M.run (k + k') s = M.run k' t := by
  induction k generalizing s with
  | zero =>
    cases h
    rw [Nat.zero_add]
  | succ k ih =>
    rw [Host.Core.run] at h
    split at h
    · rename_i m hm
      rw [Nat.add_right_comm, run_succ_of_step hm, ih h]
    · cases h
    · cases h

/-! ## Push and pop -/

/-- A Q field that names a queue is in range (R115.4). -/
theorem le_six_of_queueOf {f : BitVec 4} {q : QueueId} (h : queueOf f = some q) : f ≤ 6#4 := by
  unfold queueOf at h
  split at h
  case h_8 => cases h
  all_goals decide

/-- In an empty queue the element pushed is the head. -/
theorem Queues.pop_push_of_empty {qs : Queues} {q : QueueId} (h : qs.len q = 0) (o : Operands) :
    (qs.push q o).pop q = some (elementResult q o, qs) := by
  obtain ⟨q0, q1, q2, q3, q4, q5, q6⟩ := qs
  cases q <;> obtain rfl := List.eq_nil_of_length_eq_zero h <;> rfl

/-- A push leaves the head where it is. -/
theorem Queues.pop_push {qs qs' : Queues} {q : QueueId} {r : Result} (h : qs.pop q = some (r, qs')) (o : Operands) :
    (qs.push q o).pop q = some (r, qs'.push q o) := by
  cases q <;> simp only [pop] at h <;> split at h <;> cases h <;> rename_i hq <;> simp [pop, push, hq]

/-- The queues after the elements of `os` are pushed on `q` in turn. -/
def Queues.pushAll (q : QueueId) (qs : Queues) (os : List Operands) : Queues := os.foldl (fun qs o => qs.push q o) qs

@[simp] theorem Queues.pushAll_nil (q : QueueId) (qs : Queues) : qs.pushAll q [] = qs := rfl

@[simp] theorem Queues.pushAll_cons (q : QueueId) (qs : Queues) (o : Operands) (os : List Operands) :
    qs.pushAll q (o :: os) = (qs.push q o).pushAll q os := rfl

theorem Queues.pop_pushAll {qs qs' : Queues} {q : QueueId} {r : Result} (h : qs.pop q = some (r, qs')) (os : List Operands) :
    (qs.pushAll q os).pop q = some (r, qs'.pushAll q os) := by
  induction os generalizing qs qs' with
  | nil => exact h
  | cons o os ih => exact ih (pop_push h o)

/-- The first of the elements pushed on an empty queue is popped first, and the rest are as if it had never been there. -/
theorem Queues.pop_pushAll_cons {qs : Queues} {q : QueueId} (h : qs.len q = 0) (o : Operands) (os : List Operands) :
    (qs.pushAll q (o :: os)).pop q = some (elementResult q o, qs.pushAll q os) :=
  pop_pushAll (pop_push_of_empty h o) os

/-! ## QADD and QPOP -/

theorem exec_qadd_admitted {f : BitVec 4} {q : QueueId} (hf : queueOf f = some q) {s : State} (hl : lengthRefused q s.ops s = false)
    (hr : queueFull q s = false) : exec (.qadd f) s = .next ((s.pushElem q s.ops).respond { status := .ok }) := by
  simp [exec, execQadd, hf, qaddBody, hl, hr]

theorem exec_qpop {f : BitVec 4} {q : QueueId} (hf : queueOf f = some q) {s : State} {r : Result} {qs : Queues}
    (hp : s.queues.pop q = some (r, qs)) : exec (.qpop f) s = .next (({ s with queues := qs } : State).respond r) := by
  simp [exec, execQpop, hf, hp]

/-- A QADD submitted for an admitted element appends it and answers OK (R182). -/
theorem step_qadd {f : BitVec 4} {q : QueueId} (hf : queueOf f = some q) {s : State} {o : Operands} {rest : List Event}
    (hl : lengthRefused q o s = false) (hr : queueFull q s = false) (ha : s.agenda = submitOf (.qadd f) o :: rest) :
    ∃ t, step s = .next t ∧ t.results = s.results ++ [{ status := .ok }] ∧ t.queues = s.queues.push q o ∧ t.agenda = rest ∧
      t.params = s.params := by
  have hw : (Instr.qadd f).wellFormed = true := decide_eq_true (le_six_of_queueOf hf)
  exact ⟨_, (step_submitOf hw ha).trans (exec_qadd_admitted hf hl hr), rfl, rfl, rfl, rfl⟩

/-- A QPOP submitted for a queue with a head takes it and reports it (R183). -/
theorem step_qpop {f : BitVec 4} {q : QueueId} (hf : queueOf f = some q) {s : State} {o : Operands} {rest : List Event} {r : Result}
    {qs : Queues} (hp : s.queues.pop q = some (r, qs)) (ha : s.agenda = submitOf (.qpop f) o :: rest) :
    ∃ t, step s = .next t ∧ t.results = s.results ++ [r] ∧ t.queues = qs ∧ t.agenda = rest := by
  have hw : (Instr.qpop f).wellFormed = true := decide_eq_true (le_six_of_queueOf hf)
  exact ⟨_, (step_submitOf hw ha).trans (exec_qpop hf hp), rfl, rfl, rfl⟩

/-- A queue with room for one more element of a list is not full. -/
theorem queueFull_eq_false {q : QueueId} {s : State} {n : Nat} (h : Fits (s.params.queueDepth.get q) (s.queues.len q + (n + 1))) :
    queueFull q s = false := by
  rw [← Bool.not_eq_true, queueFull_iff]
  rintro ⟨c, hc, hle⟩
  have := h c hc
  omega

/-- QADDs of admitted elements for which there is room: each answers OK, and the elements stand in the queue in turn (R182). -/
theorem run_qadds {f : BitVec 4} {q : QueueId} (hf : queueOf f = some q) {os : List Operands} {rest : List Event} {s : State}
    (hl : ∀ o ∈ os, lengthRefused q o s = false) (hr : Fits (s.params.queueDepth.get q) (s.queues.len q + os.length))
    (ha : s.agenda = os.map (submitOf (.qadd f)) ++ rest) :
    ∃ t, Host.Core.run core os.length s = .next t ∧ t.results = s.results ++ os.map (fun _ => { status := .ok }) ∧
      t.queues = s.queues.pushAll q os ∧ t.agenda = rest := by
  induction os generalizing s with
  | nil => exact ⟨s, rfl, by simp, rfl, ha⟩
  | cons o os ih =>
    obtain ⟨m, hstep, hmres, hmqs, hmag, hmp⟩ := step_qadd hf (hl o List.mem_cons_self) (queueFull_eq_false hr) ha
    have hmlen : m.queues.len q + os.length = s.queues.len q + (o :: os).length := by
      rw [hmqs, len_push, if_pos rfl, List.length_cons]
      omega
    have hml : ∀ p ∈ os, lengthRefused q p m = false := fun p hp => by
      rw [lengthRefused, hmp]
      exact hl p (List.mem_cons_of_mem o hp)
    obtain ⟨t, hrun, hres, hqs, hag⟩ := ih hml (by rwa [hmp, hmlen]) hmag
    exact ⟨t, (run_succ_of_step (M := core) hstep _).trans hrun, by simp [hres, hmres], by rw [hqs, hmqs, Queues.pushAll_cons], hag⟩

/-- QPOPs of the elements pushed on an empty queue report them in turn, and the queues are as they were before (R183). -/
theorem run_qpops {f : BitVec 4} {q : QueueId} (hf : queueOf f = some q) {qs : Queues} (hqs : qs.len q = 0) {os : List Operands}
    {rest : List Event} {s : State} (hq : s.queues = qs.pushAll q os)
    (ha : s.agenda = os.map (fun _ => submitOf (.qpop f) {}) ++ rest) :
    ∃ t, Host.Core.run core os.length s = .next t ∧ t.results = s.results ++ os.map (elementResult q) ∧
      t.queues = qs ∧ t.agenda = rest := by
  induction os generalizing s with
  | nil => exact ⟨s, rfl, by simp, hq, ha⟩
  | cons o os ih =>
    obtain ⟨m, hstep, hmres, hmqs, hmag⟩ := step_qpop hf (hq ▸ Queues.pop_pushAll_cons hqs o os) ha
    obtain ⟨t, hrun, hres, htqs, hag⟩ := ih hmqs hmag
    exact ⟨t, (run_succ_of_step (M := core) hstep _).trans hrun, by simp [hres, hmres], htqs, hag⟩

/-- Settles O22: the QADDs lay the elements in the queue in turn, and the QPOPs take them from its head. -/
theorem queueDeliversInOrder : Obligations.QueueDeliversInOrder := by
  intro s f q os hf hempty hl hroom
  obtain ⟨m, hrun, hres, hqs, hag⟩ := run_qadds hf
    (s := { s with agenda := os.map (submitOf (.qadd f)) ++ os.map (fun _ => submitOf (.qpop f) {}) ++ s.agenda })
    hl (by simpa [Fits, hempty] using hroom) (List.append_assoc ..)
  obtain ⟨t, hrun', hres', hqs', hag'⟩ := run_qpops hf hempty hqs hag
  exact ⟨t, (run_add (M := core) hrun _).trans hrun', by rw [hres', hres], hqs', hag'⟩

end Sys2Proof.Machine
end

section
/-! PROOFS. IPREASM of a fragment the slot already holds (R89, R296): a write of the bytes a buffer holds, an insertion of a record or slot
that stands, and a scan from a stopped cursor leave each as it is. -/

namespace Sys2Proof.Machine

/-! ## Operations that change nothing -/

/-- Putting an entry that stands in a rising list leaves the list as it is. -/
theorem insertSorted_eq_self {α : Type} {lt : α → α → Bool} (hasymm : ∀ a b, lt a b = true → lt b a = false) {a : α} {l : List α}
    (hs : l.Pairwise (fun x y => lt x y = true)) (h : a ∈ l) : insertSorted lt a l = l := by
  induction l with
  | nil => cases h
  | cons b l ih =>
    obtain ⟨hb, hl⟩ := List.pairwise_cons.1 hs
    rcases List.mem_cons.1 h with rfl | h
    · have hirrefl : lt a a = false := Bool.eq_false_iff.2 fun hlt => by simp [hasymm a a hlt] at hlt
      simp [insertSorted, hirrefl]
    · simp [insertSorted, hb a h, hasymm b a (hb a h), ih hl h]

theorem recLt_asymm (a b : FragRec) (h : recLt a b = true) : recLt b a = false := by
  rw [← Bool.not_eq_true, recLt_iff]
  rw [recLt_iff] at h
  omega

theorem keyLt_asymm {w : Nat} {β : Type} (a b : BitVec w × β) (h : keyLt a b = true) : keyLt b a = false := by
  rw [← Bool.not_eq_true, keyLt_iff]
  rw [keyLt_iff] at h
  omega

/-- Putting the slot an ID has already leaves the state as it is. -/
theorem State.slotPut_eq_self {s : State} (hs : SortedKeys s.reasm) {id : Half} {sl : Slot} (h : slotFind s id = some sl) :
    s.slotPut id sl = s := by
  have hs : s.reasm.Pairwise (fun x y => keyLt x y = true) := hs.imp (keyLt_iff _ _).2
  rw [State.slotPut, insertSorted_eq_self keyLt_asymm hs (mem_of_lookup_eq_some h)]

/-- A buffer in canonical form holds the cells it reads. -/
theorem Memory.mem_iff_read {m : Memory} (hm : m.wf) (c : Host.Cell) : c ∈ m ↔ m.read c.1 = some c.2 := by
  have hmem : ∀ v, m.read c.1 = some v → (c.1, v) ∈ m := by
    intro v hv
    obtain ⟨l₁, l₂, rfl, _⟩ := List.lookup_eq_some_iff.1 hv
    simp
  refine ⟨fun hc => ?_, hmem c.2⟩
  cases hr : m.read c.1 with
  | none => exact absurd (List.lookup_eq_none_iff.1 hr c hc) (by simp)
  | some v => rw [← List.inj_on_of_nodup_map hm.1.nodup (hmem v hr) hc rfl]

/-- Buffers in canonical form that read alike are the same. -/
theorem Memory.ext_read {m m' : Memory} (hm : m.wf) (hm' : m'.wf) (h : ∀ a, m.read a = m'.read a) : m = m' := by
  have hperm : m.Perm m' := (List.perm_ext_iff_of_nodup hm.1.nodup.of_map hm'.1.nodup.of_map).2 fun c => by
    rw [mem_iff_read hm, mem_iff_read hm', h]
  exact hperm.eq_of_pairwise (fun _ _ _ _ hab hba => absurd hab hba.asymm) (List.pairwise_map.1 hm.1) (List.pairwise_map.1 hm'.1)

/-- Writing the bytes that stand in a buffer leaves it as it is (R82). -/
theorem Memory.write_eq_self {m : Memory} (hm : m.wf) {a : Nat} {v : Bytes} (hin : a + v.length ≤ Config.reasmBufLen)
    (h : ∀ i, i < v.length → m.read (a + i) = v[i]?) : m.write a v = m := by
  refine ext_read (write_wf m a v hm hin) hm fun b => ?_
  by_cases hb : a ≤ b ∧ b < a + v.length
  · obtain ⟨i, rfl⟩ := Nat.exists_eq_add_of_le hb.1
    have hi : i < v.length := by omega
    rw [read_write_inside m a i v hi, h i hi]
  · exact read_write_outside m a b v (by omega)

/-- A scan from where it stopped stays (R293). -/
theorem scan_eq_self {recs : List FragRec} {c : Nat} (h : ∀ r ∈ recs, r.off = c → r.len = 0) : scan recs c = c := by
  have hz : longestAt recs c = 0 := by
    by_contra hne
    exact hne (h _ (longestAt_mem recs c hne) rfl)
  unfold scan
  cases recs.length <;> simp [scanFuel, hz]

/-- Inserting a fragment a slot holds, with no new expected length, leaves the slot as it is (R296). -/
theorem slotInsert_eq_self {sl : Slot} (h : sl.Inv) {o : Nat} {p : Bytes} {last : Bool} (hrec : ⟨o, p.length⟩ ∈ sl.recs)
    (hbytes : ∀ i, i < p.length → sl.buf.read (o + i) = p[i]?) (hexp : last = true → sl.expected = some (o + p.length)) :
    slotInsert sl o p last = sl := by
  have hbuf : sl.buf.write o p = sl.buf := Memory.write_eq_self h.buf (h.recsInside _ hrec) hbytes
  have hrecs : insertSorted recLt ⟨o, p.length⟩ sl.recs = sl.recs := insertSorted_eq_self recLt_asymm h.recsSorted hrec
  have hexpected : (if last then some (o + p.length) else sl.expected) = sl.expected := by
    cases last with
    | true => exact (hexp rfl).symm
    | false => rfl
  simp only [slotInsert, hbuf, hrecs, scan_eq_self h.cursorStopped, hexpected]

/-! ## The unit delivered again -/

/-- The byte offset of a unit in the words of R124. -/
theorem ipOffset_eq (d : Bytes) : ipOffset d = (rd16 d 6).toNat % 8192 * 8 := by
  simp [ipOffset, BitVec.extractLsb'_toNat]

/-- Where a unit's length fields are in order, its payload has the bytes behind the header. -/
theorem getElem?_ipPayload {d : Bytes} (hd : ipTotalLen d ≤ d.length) {i : Nat} (hi : i < ipTotalLen d - Config.ipHdrLen) :
    (slice d Config.ipHdrLen (ipTotalLen d))[i]? = some (byteAt d (Config.ipHdrLen + i)) := by
  have hlt : Config.ipHdrLen + i < d.length := by omega
  simp [slice, byteAt, List.getElem?_take_of_lt hi, hlt]

theorem ipPayload_length {d : Bytes} (hd : ipTotalLen d ≤ d.length) :
    (slice d Config.ipHdrLen (ipTotalLen d)).length = ipTotalLen d - Config.ipHdrLen := by
  rw [slice_length, Nat.min_eq_left (Nat.sub_le_sub_right hd _)]

/-- Inserting a unit whose record and bytes a slot holds, and which sets no new expected length, leaves the slot as it is (R296). -/
theorem slotInsert_unit_eq_self {d : Bytes} {sl : Slot} (h : sl.Inv) (hd : ipTotalLen d ≤ d.length)
    (hrec : ⟨ipOffset d, ipTotalLen d - Config.ipHdrLen⟩ ∈ sl.recs)
    (hbytes : ∀ i, i < ipTotalLen d - Config.ipHdrLen → sl.buf.read (ipOffset d + i) = some (byteAt d (Config.ipHdrLen + i)))
    (hexp : (ipDf d || !ipMf d) = true → sl.expected = some (ipOffset d + (ipTotalLen d - Config.ipHdrLen))) :
    slotInsert sl (ipOffset d) (slice d Config.ipHdrLen (ipTotalLen d)) (ipDf d || !ipMf d) = sl := by
  rw [← ipPayload_length hd] at hrec hexp
  refine slotInsert_eq_self h hrec (fun i hi => ?_) hexp
  rw [ipPayload_length hd] at hi
  rw [hbytes i hi, getElem?_ipPayload hd hi]

/-- A unit inside the buffer whose ID has a slot is not dropped (R290 step 1). -/
theorem reasmDrop_eq_none_of_slot {d : Bytes} {s : State} (hlo : Config.ipHdrLen ≤ ipTotalLen d) (hhi : ipTotalLen d ≤ d.length)
    (hin : ipOffset d + (ipTotalLen d - Config.ipHdrLen) ≤ Config.reasmBufLen) (hslot : slotFind s (ipId d) ≠ none) :
    reasmDrop d s = none := by
  unfold reasmDrop
  rw [if_neg (by omega), if_neg (by omega), if_neg (by omega), if_neg (by simp [hslot])]

/-- A unit that is not dropped and does not complete its slot is answered 0, and the slot is kept (R290). -/
theorem reasmBody_of_kept {d : Bytes} {s : State} {sl : Slot} (hd : reasmDrop d s = none)
    (hsl : slotInsert ((slotFind s (ipId d)).getD Slot.fresh) (ipOffset d) (slice d Config.ipHdrLen (ipTotalLen d)) (ipDf d || !ipMf d) = sl)
    (hi : sl.expected ≠ some sl.cursor) : reasmBody d s = .next ({ status := .ok, value := 0 }, s.slotPut (ipId d) sl) := by
  simp [reasmBody, hd, hsl, slotFinish, hi]

/-- Settles O46: the fragment is not dropped, its insertion leaves its slot as it is, and the slot, incomplete under the invariant, is put
back in its place. -/
theorem ipreasmIdempotent : Obligations.IpreasmIdempotent := by
  rintro s _ _ _ sl hinv rfl rfl rfl hlo hhi hslot hrec hbytes hexp
  rw [← ipOffset_eq] at hrec hbytes hexp
  have hsl : sl.Inv := hinv.slots _ (mem_of_lookup_eq_some hslot)
  have hdrop : reasmDrop s.ops.d s = none := reasmDrop_eq_none_of_slot hlo hhi (hsl.recsInside _ hrec) (by simp [ipId, hslot])
  have hins := slotInsert_unit_eq_self hsl hhi hrec hbytes fun h => hexp (by simpa [ipDf, ipMf] using h)
  have hbody := reasmBody_of_kept hdrop (by rw [ipId, hslot]; exact hins) hsl.incomplete
  rw [exec, execIpreasm, hbody, ipId, State.slotPut_eq_self hinv.reasmSorted hslot]

end Sys2Proof.Machine
end

section
/-! PROOFS. The decoder (R111, R115, R116): what OPC selects, said once by the fields of the word; the two directions of the encoding; and the
six refusals of R115 in the bits of the word. -/

namespace Sys2Proof

/-! ## What OPC selects -/

/-- The field the operation uses holds what `w` has there (R111). -/
def UsesFieldOf (w : Word) : Instr → Prop
  | .csrr n | .csrw n => csrField w = n
  | .qadd q | .qpop q | .qempty q => queueField w = q
  | .arpins t | .arpupd t => tagField w = t
  | .start | .crc32 | .crcchk | .fenc | .fdec | .arpfind | .arprx | .arpreq | .ipcsum | .ipfrag | .ipreasm => True

/-- OPC selects the operation with that number, its field taken from the word. -/
theorem operationOf_eq_some {w : Word} {i : Instr} (h : operationOf w = some i) : opcField w = opcodeOf i ∧ UsesFieldOf w i := by
  unfold operationOf at h
  split at h
  case h_19 => cases h
  all_goals
    rename_i hopc
    cases h
    exact ⟨hopc, by trivial⟩

/-! ## What the decoder accepts -/

theorem rangeCheck_eq_ok {i j : Instr} (h : rangeCheck i = .ok j) : i = j ∧ j.wellFormed = true := by
  cases i with
  | csrr _ | csrw _ | qadd _ | qpop _ | qempty _ | arpins _ | arpupd _ =>
    simp only [rangeCheck] at h
    split at h <;> cases h
    rename_i hrange
    exact ⟨rfl, by simpa [Instr.wellFormed, BitVec.not_lt] using hrange⟩
  | start | crc32 | crcchk | fenc | fdec | arpfind | arprx | arpreq | ipcsum | ipfrag | ipreasm =>
    cases h
    exact ⟨rfl, rfl⟩

/-- A word decodes only where OPC selects an operation and none of R115.2 to R115.6 holds. -/
theorem decode_eq_ok {w : Word} {i : Instr} (h : decode w = .ok i) :
    operationOf w = some i ∧ (reservedLow w = 0 ∧ reservedHigh w = 0) ∧ unusedFieldSet i w = false ∧ i.wellFormed = true := by
  unfold decode at h
  split at h
  · cases h
  · rename_i hop
    split at h
    · cases h
    · rename_i hreserved
      split at h
      · cases h
      · rename_i hunused
        obtain ⟨rfl, hwf⟩ := rangeCheck_eq_ok h
        exact ⟨hop, by simpa using hreserved, by simpa using hunused, hwf⟩

/-- Where a word sets no field but the one the operation uses, the operation's word is made of the fields of that word. -/
theorem encode_eq_wordOf_fields {w : Word} {i : Instr} (hopc : opcField w = opcodeOf i) (hfield : UsesFieldOf w i)
    (hunused : unusedFieldSet i w = false) : encode i = wordOf (opcField w) (queueField w) (tagField w) (csrField w) := by
  cases i with
  | csrr _ | csrw _ | qadd _ | qpop _ | qempty _ | arpins _ | arpupd _ =>
    cases hfield
    simp [unusedFieldSet, usesQueue, usesTag, usesCsr] at hunused
    simp [encode, hopc, hunused]
  | start | crc32 | crcchk | fenc | fdec | arpfind | arprx | arpreq | ipcsum | ipfrag | ipreasm =>
    simp [unusedFieldSet, usesQueue, usesTag, usesCsr] at hunused
    simp [encode, hopc, hunused]

/-! ## Masks and fields -/

/-- The bits under the mask of a field are zero where the field is. -/
theorem and_mask_eq_zero_iff (w : Word) {k n : Nat} (h : k + n ≤ 32) :
    w &&& (BitVec.allOnes n).setWidth 32 <<< k = 0 ↔ w.extractLsb' k n = 0 := by
  constructor <;> intro h0 <;> apply BitVec.eq_of_getLsbD_eq <;> intro i hi
  · have hbit := congrArg (·.getLsbD (k + i)) h0
    have hki : k + i < 32 := by omega
    simpa [BitVec.getLsbD_extractLsb', hi, hki] using hbit
  · have hbit := congrArg (·.getLsbD (i - k)) h0
    simp only [BitVec.getLsbD_extractLsb', BitVec.getLsbD_and, BitVec.getLsbD_shiftLeft, BitVec.getLsbD_setWidth,
      BitVec.getLsbD_allOnes] at hbit ⊢
    grind

/-- A field shifted down and masked is the field. -/
theorem shiftRight_and_mask (w : Word) (k n : Nat) :
    w >>> k &&& (BitVec.allOnes n).setWidth 32 = (w.extractLsb' k n).setWidth 32 := by
  apply BitVec.eq_of_getLsbD_eq
  intro i hi
  by_cases hn : i < n <;> simp [hi, hn, BitVec.getLsbD_extractLsb']

theorem setWidth_injective {v w : Nat} (h : v ≤ w) : Function.Injective (BitVec.setWidth (w := v) w) := by
  intro x y hxy
  simpa [h] using congrArg (BitVec.setWidth v) hxy

/-- OPC is one of some bytes where the masked word is one of them widened. -/
theorem opcode_mem_iff (w : Word) {l : List (BitVec 8)} {l' : List Word} (hl : l.map (BitVec.setWidth 32) = l') :
    w &&& 0xFF#32 ∈ l' ↔ opcField w ∈ l := by
  have hopc : w &&& 0xFF#32 = (opcField w).setWidth 32 := shiftRight_and_mask w 0 8
  rw [hopc, ← hl]
  exact List.mem_map_of_injective (setWidth_injective (by decide))

theorem queueField_eq_zero_iff (w : Word) : w &&& 0x00000F00#32 = 0 ↔ queueField w = 0 :=
  and_mask_eq_zero_iff w (k := 8) (n := 4) (by decide)

theorem tagField_eq_zero_iff (w : Word) : w &&& 0x00003000#32 = 0 ↔ tagField w = 0 :=
  and_mask_eq_zero_iff w (k := 12) (n := 2) (by decide)

theorem csrField_eq_zero_iff (w : Word) : w &&& 0x00FF0000#32 = 0 ↔ csrField w = 0 :=
  and_mask_eq_zero_iff w (k := 16) (n := 8) (by decide)

theorem reserved_eq_zero_iff (w : Word) : w &&& 0xFF00C000#32 = 0 ↔ reservedLow w = 0 ∧ reservedHigh w = 0 := by
  have hmask : 0xFF00C000#32 = (BitVec.allOnes 2).setWidth 32 <<< 14 ||| (BitVec.allOnes 8).setWidth 32 <<< 24 := by decide
  rw [hmask, BitVec.and_or_distrib_left]
  exact BitVec.or_eq_zero_iff.trans (and_congr (and_mask_eq_zero_iff w (by decide)) (and_mask_eq_zero_iff w (by decide)))

theorem queueField_gt_iff (w : Word) : 6#32 < w >>> 8 &&& 0xF#32 ↔ 6#4 < queueField w := by
  have hq : w >>> 8 &&& 0xF#32 = (queueField w).setWidth 32 := shiftRight_and_mask w 8 4
  rw [hq]
  bv_omega

theorem tagField_eq_three_iff (w : Word) : w >>> 12 &&& 0x3#32 = 3#32 ↔ tagField w = 3#2 := by
  have ht : w >>> 12 &&& 0x3#32 = (tagField w).setWidth 32 := shiftRight_and_mask w 12 2
  rw [ht]
  bv_omega

theorem csrField_gt_iff (w : Word) : 0x0A#32 < w >>> 16 &&& 0xFF#32 ↔ 0x0A#8 < csrField w := by
  have hn : w >>> 16 &&& 0xFF#32 = (csrField w).setWidth 32 := shiftRight_and_mask w 16 8
  rw [hn]
  bv_omega

/-! ## The six refusals in the bits of the word -/

/-- Which condition of R115 a decoder's answer names, if any. -/
def refusal : Except Illegal Instr → Option Illegal
  | .error e => some e
  | .ok _ => none

/-- The range conditions R115.4 to R115.6, each on the field the operation uses. -/
theorem refusal_rangeCheck {w : Word} {i : Instr} (hfield : UsesFieldOf w i) : refusal (rangeCheck i) =
    if usesQueue i = true ∧ 6#4 < queueField w then some .queueRange
    else if usesTag i = true ∧ tagField w = 3#2 then some .tagRange
    else if usesCsr i = true ∧ 0x0A#8 < csrField w then some .csrRange
    else none := by
  cases i with
  | csrr _ | csrw _ | qadd _ | qpop _ | qempty _ | arpins _ | arpupd _ =>
    cases hfield
    simp only [rangeCheck, apply_ite refusal]
    simp [refusal, usesQueue, usesTag, usesCsr]
  | start | crc32 | crcchk | fenc | fdec | arpfind | arprx | arpreq | ipcsum | ipfrag | ipreasm => rfl

/-- The conditions of R115 in their order, on the fields of the word. -/
theorem refusal_decode {w : Word} {i : Instr} (hop : operationOf w = some i) : refusal (decode w) =
    if ¬ (reservedLow w = 0 ∧ reservedHigh w = 0) then some .reservedBits
    else if unusedFieldSet i w = true then some .unusedField
    else refusal (rangeCheck i) := by
  simp only [decode, hop, apply_ite refusal, ne_eq, ← not_and_or]
  rfl

theorem refusal_decode_of_none {w : Word} (hop : operationOf w = none) : refusal (decode w) = some .unknownOpcode := by
  rw [decode, hop]
  rfl

theorem unusedFieldSet_iff (i : Instr) (w : Word) : unusedFieldSet i w = true ↔
    (¬ usesQueue i = true ∧ queueField w ≠ 0) ∨ (¬ usesTag i = true ∧ tagField w ≠ 0) ∨ (¬ usesCsr i = true ∧ csrField w ≠ 0) := by
  simp [unusedFieldSet, or_assoc]

/-- R115.1: an OPC outside the table of R116 selects nothing. -/
theorem operationOf_eq_none_iff (w : Word) : operationOf w = none ↔
    w &&& 0xFF#32 ∉ [0x01#32, 0x02#32, 0x03#32, 0x08#32, 0x09#32, 0x10#32, 0x11#32, 0x12#32, 0x20#32, 0x21#32, 0x30#32, 0x31#32, 0x32#32,
      0x33#32, 0x34#32, 0x40#32, 0x41#32, 0x42#32] := by
  refine Iff.trans ?_ (not_congr (opcode_mem_iff w (l := [0x01, 0x02, 0x03, 0x08, 0x09, 0x10, 0x11, 0x12, 0x20, 0x21, 0x30, 0x31, 0x32,
    0x33, 0x34, 0x40, 0x41, 0x42]) rfl).symm)
  unfold operationOf
  split
  case h_19 => simp_all
  all_goals
    rename_i hopc
    simp [hopc]

theorem usesQueue_iff {w : Word} {i : Instr} (hopc : opcField w = opcodeOf i) :
    usesQueue i = true ↔ w &&& 0xFF#32 ∈ [0x10#32, 0x11#32, 0x12#32] := by
  refine Iff.trans ?_ (opcode_mem_iff w (l := [0x10, 0x11, 0x12]) rfl).symm
  rw [hopc]
  cases i <;> simp [usesQueue, opcodeOf]

theorem usesTag_iff {w : Word} {i : Instr} (hopc : opcField w = opcodeOf i) :
    usesTag i = true ↔ w &&& 0xFF#32 ∈ [0x31#32, 0x32#32] := by
  refine Iff.trans ?_ (opcode_mem_iff w (l := [0x31, 0x32]) rfl).symm
  rw [hopc]
  cases i <;> simp [usesTag, opcodeOf]

theorem usesCsr_iff {w : Word} {i : Instr} (hopc : opcField w = opcodeOf i) :
    usesCsr i = true ↔ w &&& 0xFF#32 ∈ [0x01#32, 0x02#32] := by
  refine Iff.trans ?_ (opcode_mem_iff w (l := [0x01, 0x02]) rfl).symm
  rw [hopc]
  cases i <;> simp [usesCsr, opcodeOf]

end Sys2Proof

namespace Sys2Proof.Machine

/-! ## The obligations of the encoding -/

/-- Settles O1: the fields of the word are those the encoder laid out, and the range checks pass. -/
theorem decodeOfEncodeIsInstruction : Obligations.DecodeOfEncodeIsInstruction := fun _ hwf => decode_encode hwf

/-- Settles O2: an accepted word has its operation's field, zeros elsewhere, and is the word of its fields. -/
theorem encodeOfDecodeIsWord : Obligations.EncodeOfDecodeIsWord := by
  intro w i h
  obtain ⟨hop, ⟨hlow, hhigh⟩, hunused, hwf⟩ := decode_eq_ok h
  obtain ⟨hopc, hfield⟩ := operationOf_eq_some hop
  exact ⟨(encode_eq_wordOf_fields hopc hfield hunused).trans (wordOf_fields w hlow hhigh), hwf⟩

/-- Settles O3: OPC is outside the table, or it selects an operation and the other five conditions, on its fields, are those on the bits. -/
theorem decodeFollowsIllegalOrder : Obligations.DecodeFollowsIllegalOrder := by
  intro w
  show refusal (decode w) = _
  dsimp only
  cases hop : operationOf w with
  | none => rw [refusal_decode_of_none hop, if_pos ((operationOf_eq_none_iff w).1 hop)]
  | some i =>
    obtain ⟨hopc, hfield⟩ := operationOf_eq_some hop
    rw [refusal_decode hop, refusal_rangeCheck hfield, if_neg (mt (operationOf_eq_none_iff w).2 (by simp [hop]))]
    simp only [unusedFieldSet_iff, usesQueue_iff hopc, usesTag_iff hopc, usesCsr_iff hopc, ne_eq, reserved_eq_zero_iff,
      queueField_eq_zero_iff, tagField_eq_zero_iff, csrField_eq_zero_iff, queueField_gt_iff, tagField_eq_three_iff, csrField_gt_iff]

end Sys2Proof.Machine
end

section
/-! PROOFS. A command on the port (R110, R114, R115, R340): the numbers its fields stand for, the step that runs it, the illegal command, the
frame FENC returns, and the one result record that an error status leaves as the only change. -/

namespace Sys2Proof.Machine

open Sys2Proof.Config (Draws)

/-! ## Words and numbers written out -/

/-- Settles O4: the decoder evaluated on the ten legal words and the six illegal ones. -/
theorem sampleWordsDecode : Obligations.SampleWordsDecode := by
  unfold Obligations.SampleWordsDecode
  decide

/-- Settles O5: the 16, 4 and 256 values of the three fields, evaluated. -/
theorem fieldNumbersSelect : Obligations.FieldNumbersSelect := ⟨by decide, by decide, by decide⟩

/-! ## The step that runs a command -/

theorem step_command {s : State} {w : Word} {ops : Operands} {draw : Draws} {rest : List Event}
    (ha : s.agenda = .command w ops draw :: rest) : step s = runCommand w ops draw { s with agenda := rest } :=
  step_of_agenda s _ rest ha

theorem runCommand_of_decode_ok {w : Word} {i : Instr} (hd : decode w = .ok i) (ops : Operands) (draw : Draws) (s : State) :
    runCommand w ops draw s = exec i { s with ops := ops, draw := draw } := by
  rw [runCommand, hd]

theorem runCommand_of_decode_error {w : Word} {e : Illegal} (hd : decode w = .error e) (ops : Operands) (draw : Draws) (s : State) :
    runCommand w ops draw s = .next (State.respond { s with draw := draw } { status := .illegalCmd }) := by
  rw [runCommand, hd]
  rfl

theorem decode_of_decodeTableWord {nbits w : Nat} {i : Instr} (h : decodeTableWord nbits w = some i) : decode (BitVec.ofNat 32 w) = .ok i := by
  unfold decodeTableWord at h
  split at h
  · cases hd : decode (BitVec.ofNat 32 w) with
    | error e => simp [hd, Except.toOption] at h
    | ok j => simpa [hd, Except.toOption] using h
  · cases h

/-- Settles O6: the step performs the command at the head of the agenda, which `withFetchWord` puts there with the port's own record. -/
theorem stepRunsDecodedInstruction : Obligations.StepRunsDecodedInstruction := by
  refine ⟨fun s w ops draw rest i ha hd => ?_, fun s nbits w i hd => ?_⟩
  · rw [step_command ha, runCommand_of_decode_ok hd]
  · rw [State.withFetchWord, State.submit, step_command rfl, runCommand_of_decode_ok (decode_of_decodeTableWord hd)]

/-! ## The illegal command -/

theorem csrOf_eq_none {n : BitVec 8} (h : ¬ n ≤ 0x0A#8) : csrOf n = none := by
  by_contra hne
  obtain ⟨id, hid⟩ := Option.ne_none_iff_exists'.1 hne
  exact h (eq_field_of_csrOf hid ▸ by cases id <;> decide)

theorem queueOf_eq_none {q : BitVec 4} (h : ¬ q ≤ 6#4) : queueOf q = none := by
  by_contra hne
  obtain ⟨id, hid⟩ := Option.ne_none_iff_exists'.1 hne
  exact h (le_six_of_queueOf hid)

/-- A command with its field out of range selects nothing, and is illegal (log 9). -/
theorem exec_of_not_wellFormed {i : Instr} (h : i.wellFormed = false) (s : State) :
    exec i s = .next (s.respond { status := .illegalCmd }) := by
  cases i with
  | csrr n | csrw n => simp [exec, execCsrr, execCsrw, csrOf_eq_none (of_decide_eq_false h)]
  | qadd q | qpop q | qempty q => simp [exec, execQadd, execQpop, execQempty, queueOf_eq_none (of_decide_eq_false h)]
  | arpins t | arpupd t =>
    obtain rfl : t = 3#2 := of_not_not (of_decide_eq_false h)
    rfl
  | start | crc32 | crcchk | fenc | fdec | arpfind | arprx | arpreq | ipcsum | ipfrag | ipreasm => cases h

/-- Settles O7: a word the decoder refuses and a command no word decodes to both end in `State.illegal`. -/
theorem illegalWordOnlyReports : Obligations.IllegalWordOnlyReports := by
  refine ⟨fun s w ops draw rest e ha hd => ?_, fun i s h => exec_of_not_wellFormed h s, rfl⟩
  rw [step_command ha, runCommand_of_decode_error hd]
  rfl

/-! ## FENC -/

/-- LOCAL_MAC in the words of R33: the low half of LMAC_HI and LMAC_LO. -/
theorem localMac_eq (s : State) : localMac s = s.csrs.lmacHi.extractLsb' 0 16 ++ s.csrs.lmacLo := by
  rw [localMac, BitVec.setWidth_eq_extractLsb' (by decide)]

/-- Settles O25: the frame of FENC read back field by field. -/
theorem fencLaysOutFrame : Obligations.FencLaysOutFrame := fun s =>
  ⟨encodeFrame s s.ops.mac s.ops.et s.ops.d, rfl, encodeFrame_length .., encodeFrame_dst .., (encodeFrame_src ..).trans (localMac_eq s),
    encodeFrame_ethertype .., encodeFrame_payload .., encodeFrame_trailer ..⟩

/-! ## One result record, and no write with an error status -/

theorem CommandEffect.results_eq {s m : State} {i : Instr} (h : CommandEffect s i m) : m.results = s.results := by cases h <;> rfl

/-- One result record is appended, and with an error status it is the only change but for the operand record leaving the port. -/
def ErrorOnlyReports (s t : State) : Prop := ∃ r : Result, t.results = s.results ++ [r] ∧ (r.status ≠ .ok → t = s.respond r)

theorem ErrorOnlyReports.reports {s : State} (r : Result) : ErrorOnlyReports s (s.respond r) := ⟨r, rfl, fun _ => rfl⟩

/-- A command whose body writes nothing unless its status is OK. -/
theorem CommandEffect.errorOnlyReports {s m : State} {i : Instr} (he : CommandEffect s i m) {r : Result} (h : m = s ∨ r.status = .ok) :
    ErrorOnlyReports s (m.respond r) :=
  ⟨r, congrArg (· ++ [r]) he.results_eq, fun hr => by rw [h.resolve_right hr]⟩

/-! ### The status and the write of each body -/

theorem qaddBody_unchanged_or_ok (q : QueueId) (o : Operands) (s : State) : (qaddBody q o s).2 = s ∨ (qaddBody q o s).1 = .ok := by
  rcases qaddBody_cases q o s with ⟨h, _⟩ | ⟨h, _⟩ | ⟨h, _⟩ <;> simp [h]

theorem arpinsBody_unchanged_or_ok (tag : Tag) (ip : IpAddr) (mac : Mac) (s : State) :
    (arpinsBody tag ip mac s).2 = s ∨ (arpinsBody tag ip mac s).1 = .ok := by
  rcases arpinsBody_cases tag ip mac s with ⟨h, _⟩ | ⟨h, _⟩ | ⟨h, _⟩ <;> simp [h]

theorem arpupdBody_unchanged_or_ok (tag : Tag) (ip : IpAddr) (mac : Mac) (s : State) :
    (arpupdBody tag ip mac s).2 = s ∨ (arpupdBody tag ip mac s).1 = .ok := by
  rcases arpupdBody_cases tag ip mac s with ⟨h, _⟩ | ⟨h, _⟩ <;> simp [h]

theorem arprxBody_unchanged_or_ok (d : Bytes) (s : State) : (arprxBody d s).2 = s ∨ (arprxBody d s).1.status = .ok := by
  rcases arprxBody_cases d s with h | ⟨_, h, _⟩ <;> simp [h]

theorem reasmBody_unchanged_or_ok {d : Bytes} {s t : State} {r : Result} (h : reasmBody d s = .next (r, t)) : t = s ∨ r.status = .ok := by
  rcases reasmBody_cases d s with ⟨c, _, hb⟩ | ⟨_, sl, _, ⟨_, hb⟩ | ⟨_, b, _, hb⟩ | ⟨_, _, hb⟩⟩ <;> rw [hb] at h <;> cases h
  · exact .inl rfl
  · exact .inr rfl
  · exact .inr rfl

theorem Queues.pop_status {qs qs' : Queues} {q : QueueId} {r : Result} (h : qs.pop q = some (r, qs')) : r.status = .ok := by
  cases q <;> simp only [Queues.pop] at h <;> split at h <;> cases h <;> rfl

/-! ### Every command -/

theorem execCsrw_errorOnlyReports {n : BitVec 8} {s t : State} (h : execCsrw n s = .next t) : ErrorOnlyReports s t := by
  unfold execCsrw at h
  split at h
  · cases h; exact .reports _
  · split at h <;> cases h
    · exact .reports _
    · exact ⟨_, rfl, fun hr => absurd rfl hr⟩

theorem execQpop_errorOnlyReports {n : BitVec 4} {s t : State} (h : execQpop n s = .next t) : ErrorOnlyReports s t := by
  unfold execQpop at h
  split at h
  · cases h; exact .reports _
  · rename_i hn
    split at h <;> cases h
    · exact .reports _
    · rename_i hq
      exact (CommandEffect.qpop hn hq).errorOnlyReports (.inr (Queues.pop_status hq))

theorem execQadd_errorOnlyReports {n : BitVec 4} {s t : State} (h : execQadd n s = .next t) : ErrorOnlyReports s t := by
  unfold execQadd at h
  split at h <;> cases h
  · exact .reports _
  · rename_i hn
    exact (qaddBody_effect hn _ _).errorOnlyReports (qaddBody_unchanged_or_ok _ _ _)

theorem execArpins_errorOnlyReports {f : BitVec 2} {s t : State} (h : execArpins f s = .next t) : ErrorOnlyReports s t := by
  unfold execArpins at h
  split at h <;> cases h
  · exact .reports _
  · exact (arpinsBody_effect f _ _ _ _).errorOnlyReports (arpinsBody_unchanged_or_ok _ _ _ _)

theorem execArpupd_errorOnlyReports {f : BitVec 2} {s t : State} (h : execArpupd f s = .next t) : ErrorOnlyReports s t := by
  unfold execArpupd at h
  split at h <;> cases h
  · exact .reports _
  · exact (arpupdBody_effect f _ _ _ _).errorOnlyReports (arpupdBody_unchanged_or_ok _ _ _ _)

theorem execIpreasm_errorOnlyReports {s t : State} (h : execIpreasm s = .next t) : ErrorOnlyReports s t := by
  unfold execIpreasm at h
  split at h <;> cases h
  rename_i hb
  exact (reasmBody_effect hb).errorOnlyReports (reasmBody_unchanged_or_ok hb)

theorem exec_errorOnlyReports {i : Instr} (hi : i ≠ .arpfind) {s t : State} (h : exec i s = .next t) : ErrorOnlyReports s t := by
  cases i with
  | arpfind => exact absurd rfl hi
  | csrr n =>
    rw [exec, execCsrr] at h
    split at h <;> cases h <;> exact .reports _
  | qempty q =>
    rw [exec, execQempty] at h
    split at h <;> cases h <;> exact .reports _
  | csrw n => exact execCsrw_errorOnlyReports h
  | start => cases h; exact CommandEffect.start.errorOnlyReports (.inr rfl)
  | qadd q => exact execQadd_errorOnlyReports h
  | qpop q => exact execQpop_errorOnlyReports h
  | arpins f => exact execArpins_errorOnlyReports h
  | arpupd f => exact execArpupd_errorOnlyReports h
  | arprx => cases h; exact (arprxBody_effect _ _).errorOnlyReports (arprxBody_unchanged_or_ok _ _)
  | ipreasm => exact execIpreasm_errorOnlyReports h
  | crc32 | crcchk | fenc | fdec | arpreq | ipcsum | ipfrag => cases h; exact .reports _

/-- Settles O58: every command but ARPFIND writes nothing with an error status; ARPFIND, as every command, returns one record. -/
theorem errorStatusWritesNoState : Obligations.ErrorStatusWritesNoState := by
  intro i s t h
  by_cases hi : i = .arpfind
  · obtain ⟨m, r, he, rfl⟩ := exec_commandAnswers h
    exact ⟨r, congrArg (· ++ [r]) he.results_eq, fun _ hne => absurd hi hne⟩
  · obtain ⟨r, hr, hs⟩ := exec_errorOnlyReports hi h
    exact ⟨r, hr, fun hne _ => hs hne⟩

end Sys2Proof.Machine
end

section
/-! PROOFS. The CRC engine (40_crc.md): the table loop as the bit-serial shift register, the change of one byte as a change of the CRC, and what
CRCCHK and FDEC read of a trailer. -/

namespace Sys2Proof.Machine

/-! ## The table loop and the shift register (R160, R161) -/

theorem crcBits_eq_iterate (k : Nat) (c : Word) : crcBits k c = crcBit^[k] c := by
  induction k generalizing c with
  | zero => rfl
  | succ k ih => exact ih (crcBit c)

/-- A turn with the bit shifted out written as the loop of R160 tests it. -/
theorem crcBit_eq_masked (c : Word) : crcBit c = if c &&& 1#32 = 1#32 then 0xEDB88320#32 ^^^ (c >>> 1) else c >>> 1 := by
  have hbit : c &&& 1#32 = 1#32 ↔ c.getLsbD 0 = true := by
    rw [BitVec.and_one_eq_setWidth_ofBool_getLsbD]
    cases c.getLsbD 0 <;> decide
  simp only [crcBit, hbit, Config.crcPoly]

/-- The low byte of the register with a byte added, as the index of R161 writes it. -/
theorem xor_and_low_byte (c : Word) (b : Byte) : (c ^^^ b.setWidth 32) &&& 0xFF#32 = (c.setWidth 8 ^^^ b).setWidth 32 := by
  ext i hi
  have hmask : (0xFF#32 : Word).getLsbD i = decide (i < 8) := by
    revert i
    decide
  simp only [← BitVec.getLsbD_eq_getElem, BitVec.getLsbD_and, BitVec.getLsbD_xor, BitVec.getLsbD_setWidth, hmask]
  grind

/-- While the bits that leave are 0, a turn is a shift. -/
theorem crcBits_of_low_zero {k : Nat} {c : Word} (h : ∀ i < k, c.getLsbD i = false) : crcBits k c = c >>> k := by
  induction k generalizing c with
  | zero => simp [crcBits]
  | succ k ih =>
    have hturn : crcBit c = c >>> 1 := if_neg (by simp only [h 0 k.succ_pos, Bool.false_eq_true, not_false_eq_true])
    have hlow : ∀ i < k, (c >>> 1).getLsbD i = false := fun i hi => by
      rw [BitVec.getLsbD_ushiftRight, h _ (by omega)]
    rw [crcBits, hturn, ih hlow, ← BitVec.shiftRight_add, Nat.add_comm]

/-- Eight turns split the register into the low byte, looked up in the table, and the rest, shifted. -/
theorem crcByte_eq_bitSerialByte (c : Word) (b : Byte) : crcByte c b = bitSerialByte c b := by
  have hsplit : c ^^^ b.setWidth 32 = (c.setWidth 8 ^^^ b).setWidth 32 ^^^ ((c >>> 8) <<< 8) := by
    ext i hi
    simp only [← BitVec.getLsbD_eq_getElem, BitVec.getLsbD_xor, BitVec.getLsbD_setWidth, BitVec.getLsbD_shiftLeft,
      BitVec.getLsbD_ushiftRight]
    grind
  have hlow : ∀ i < 8, ((c >>> 8) <<< 8).getLsbD i = false := fun i hi => by
    simp only [BitVec.getLsbD_shiftLeft, hi, decide_true, Bool.not_true, Bool.and_false, Bool.false_and]
  have hrest : ((c >>> 8) <<< 8) >>> 8 = c >>> 8 := by
    ext i hi
    simp only [← BitVec.getLsbD_eq_getElem, BitVec.getLsbD_shiftLeft, BitVec.getLsbD_ushiftRight]
    grind
  rw [bitSerialByte, hsplit, crcBits_xor, crcBits_of_low_zero hlow, hrest, crcByte, crcTable]

/-- Settles O17: the two forms agree byte by byte, and `crc32` is the fold of the table form. -/
theorem crcTableLoopEqualsBitSerial : Obligations.CrcTableLoopEqualsBitSerial := fun d => by
  rw [crc32, crcLoop_eq_foldl, funext₂ crcByte_eq_bitSerialByte, Config.crcInit, Config.crcXorOut]

/-- The register after a byte, in the words of R160 and R161. -/
theorem crcByte_eq_masked (c : Word) (b : Byte) :
    crcByte c b =
      (fun x : Word => if x &&& 1#32 = 1#32 then 0xEDB88320#32 ^^^ (x >>> 1) else x >>> 1)^[8]
        ((c ^^^ b.setWidth 32) &&& 0xFF#32) ^^^ (c >>> 8) := by
  rw [crcByte, crcTable, crcBits_eq_iterate, funext crcBit_eq_masked, xor_and_low_byte]

/-- Settles O16: `crc32` is the fold of the table form, each entry eight turns of the loop. -/
theorem crc32FollowsTableLoop : Obligations.Crc32FollowsTableLoop := fun s => by
  rw [exec, execCrc32, crc32, crcLoop_eq_foldl, funext₂ crcByte_eq_masked, Config.crcInit, Config.crcXorOut]

/-! ## A changed byte (R164) -/

theorem crcByte_injective_register {c e : Word} {b : Byte} (h : crcByte c b = crcByte e b) : c = e := by
  rw [crcByte_eq_bitSerialByte, crcByte_eq_bitSerialByte] at h
  exact BitVec.xor_left_inj _ |>.mp (crcBits_injective 8 h)

theorem crcByte_injective_byte {c : Word} {x y : Byte} (h : crcByte c x = crcByte c y) : x = y := by
  rw [crcByte_eq_bitSerialByte, crcByte_eq_bitSerialByte] at h
  have hx : x.setWidth 32 = y.setWidth 32 := BitVec.xor_right_inj _ |>.mp (crcBits_injective 8 h)
  simpa using congrArg (BitVec.setWidth 8) hx

theorem crcLoop_injective {d : Bytes} {c e : Word} (h : crcLoop d c = crcLoop d e) : c = e := by
  induction d generalizing c e with
  | nil => exact h
  | cons b d ih =>
    simp only [crcLoop, forced_eq] at h
    exact crcByte_injective_register (ih h)

/-- Settles O18: the changed byte leaves the register in another state, and the bytes after it keep the two apart. -/
theorem crcDetectsSingleByteChange : Obligations.CrcDetectsSingleByteChange := by
  intro p q x y hxy h
  have hloop := BitVec.xor_left_inj _ |>.mp h
  simp only [crcLoop_append, crcLoop, forced_eq] at hloop
  exact hxy (crcByte_injective_byte (crcLoop_injective hloop))

/-- R164 for the byte at an index. -/
theorem crc32_set_ne {d : Bytes} {i : Nat} {y : Byte} (hi : i < d.length) (hy : byteAt d i ≠ y) : crc32 (d.set i y) ≠ crc32 d := by
  have hset : ∀ z, d.set i z = d.take i ++ z :: d.drop (i + 1) := fun z => by
    rw [List.set_eq_take_append_cons_drop, if_pos hi]
  have hself : d.set i (byteAt d i) = d := by
    rw [byteAt, List.getD_eq_getElem _ _ hi, List.set_getElem_self]
  have hne := crcDetectsSingleByteChange (d.take i) (d.drop (i + 1)) y (byteAt d i) hy.symm
  rwa [← hset, ← hset, hself] at hne

/-! ## The trailer (R163, R203) -/

theorem slice_to_trailer (h p t : Bytes) (ht : t.length = 4) : slice (h ++ p ++ t) h.length ((h ++ p ++ t).length - 4) = p := by
  have hend : (h ++ p ++ t).length - 4 = h.length + p.length := by
    rw [List.length_append, List.length_append, ht, Nat.add_sub_cancel]
  rw [hend, List.append_assoc, slice_middle]

theorem rd32_trailer (p t : Bytes) (ht : t.length = 4) : rd32 (p ++ t) ((p ++ t).length - 4) = rd32 t 0 := by
  have hend : (p ++ t).length - 4 = p.length + 0 := by rw [List.length_append, ht, Nat.add_sub_cancel, Nat.add_zero]
  rw [hend, rd32_append_right]

theorem rd32_be32_self (v : Word) : rd32 (be32 v) 0 = v := by simpa using rd32_be32_head v []

/-- Four bytes are the `BE32` of the word they spell. -/
theorem be32_rd32 {t : Bytes} (ht : t.length = 4) : be32 (rd32 t 0) = t := by
  obtain ⟨a, b, c, d, rfl⟩ := List.length_eq_four.mp ht
  simp only [be32, rd32, rd16, byteAt, List.getD_cons_zero, List.getD_cons_succ, List.cons.injEq, and_true]
  refine ⟨?_, ?_, ?_, ?_⟩ <;>
  · apply BitVec.eq_of_getLsbD_eq
    intro i hi
    simp only [BitVec.getLsbD_append, BitVec.getLsbD_extractLsb']
    grind

theorem rd32_set_be32_ne {v : Word} {i : Nat} {y : Byte} (hi : i < 4) (hy : byteAt (be32 v) i ≠ y) : rd32 ((be32 v).set i y) 0 ≠ v := by
  intro h
  have hset : (be32 v).set i y = be32 v := by rw [← be32_rd32 (t := (be32 v).set i y) List.length_set, h]
  apply hy
  rw [← hset]
  simp [byteAt, hi]

/-- CRCCHK on a payload and its trailer (R163). -/
theorem crcCheck_append_be32 (p : Bytes) (v : Word) :
    crcCheck (p ++ be32 v) = { status := if crc32 p = v then .ok else .crcMismatch, value := crc32 p } := by
  have hlen : ¬ (p ++ be32 v).length < 4 := by simp
  have hpay : slice (p ++ be32 v) 0 ((p ++ be32 v).length - 4) = p := slice_to_trailer [] p (be32 v) rfl
  rw [crcCheck, if_neg hlen, rd32_trailer p _ rfl, rd32_be32_self, hpay]

/-- Settles O19: the payload and the trailer read back from the operand. -/
theorem crcchkComparesTrailer : Obligations.CrcchkComparesTrailer :=
  ⟨fun s p v hd => by rw [exec, execCrcchk, hd, crcCheck_append_be32], fun s hd => by rw [exec, execCrcchk, crcCheck, if_pos hd]⟩

/-! ## The frame (R165) -/

/-- The frame of R119 as its three parts: a header of 14 bytes, the payload and the trailer. -/
theorem encodeFrame_parts (s : State) (m : Mac) (e : Half) (d : Bytes) :
    ∃ h : Bytes, h.length = 14 ∧ encodeFrame s m e d = h ++ d ++ be32 (crc32 d) :=
  ⟨be48 m ++ be48 (localMac s) ++ be16 e, rfl, rfl⟩

section Parts
variable {h p t : Bytes} (hh : h.length = 14) (ht : t.length = 4)
include hh ht

theorem frameParts_long : ¬ (h ++ p ++ t).length < 18 := by
  simp only [List.length_append, hh, ht]
  omega

theorem frameParts_payload : slice (h ++ p ++ t) 14 ((h ++ p ++ t).length - 4) = p := hh ▸ slice_to_trailer h p t ht

/-- FDEC's CRC gate closes where the payload's CRC is not the trailer (R203). -/
theorem decodeFrame_of_crc_ne (s : State) (wl : BitVec 32) (hc : crc32 p ≠ rd32 t 0) :
    decodeFrame s (h ++ p ++ t) wl = { status := .crcMismatch } := by
  rw [decodeFrame, if_neg (frameParts_long hh ht), frameParts_payload hh ht, rd32_trailer _ t ht, if_pos hc]

/-- Past FDEC's CRC gate no answer is CRC_MISMATCH (R203). -/
theorem decodeFrame_of_crc_eq (s : State) (wl : BitVec 32) (hc : crc32 p = rd32 t 0) :
    (decodeFrame s (h ++ p ++ t) wl).status ≠ .crcMismatch := by
  rw [decodeFrame, if_neg (frameParts_long hh ht), frameParts_payload hh ht, rd32_trailer _ t ht, if_neg (not_not_intro hc)]
  split_ifs <;> nofun

end Parts

/-- The bytes FENC's result record carries are those of its frame. -/
theorem execFenc_bytes {s : State} {f : Bytes} (h : exec .fenc s = .next (s.respond { status := .ok, bytes := f })) :
    f = encodeFrame s s.ops.mac s.ops.et s.ops.d := by
  rw [exec, execFenc, Host.Outcome.next.injEq] at h
  simpa using (congrArg State.results h).symm

/-- Settles O28: a changed payload byte changes the payload's CRC alone, a changed trailer byte the trailer alone, and a changed header byte
neither. -/
theorem frameByteErrorCoverage : Obligations.FrameByteErrorCoverage := by
  intro a b f i y hf hi hy hd
  obtain ⟨h, hh, hparts⟩ := encodeFrame_parts a a.ops.mac a.ops.et a.ops.d
  rw [← execFenc_bytes hf] at hparts
  subst hparts
  generalize a.ops.d = p at hi hy hd
  rw [exec, execFdec, hd]
  refine ⟨fun h14 => ?_, fun h14 => ?_⟩
  · obtain ⟨j, rfl⟩ := Nat.exists_eq_add_of_le (hh.trans_le h14)
    rw [List.append_assoc, byteAt_append_right] at hy
    rw [List.append_assoc, List.set_append_right _ _ (Nat.le_add_right ..), Nat.add_sub_cancel_left]
    by_cases hj : j < p.length
    · rw [byteAt_append_left _ _ _ hj] at hy
      have hc := (crc32_set_ne hj hy).trans_eq (rd32_be32_self (crc32 p)).symm
      rw [List.set_append_left _ _ hj, ← List.append_assoc, decodeFrame_of_crc_ne hh rfl _ _ hc]
    · obtain ⟨k, rfl⟩ := Nat.exists_eq_add_of_le (Nat.le_of_not_lt hj)
      have hk : k < 4 := by
        simp only [List.length_append, be32_length] at hi
        omega
      rw [byteAt_append_right] at hy
      have hc := (rd32_set_be32_ne hk hy).symm
      rw [List.set_append_right _ _ (Nat.le_add_right ..), Nat.add_sub_cancel_left, ← List.append_assoc,
        decodeFrame_of_crc_ne hh List.length_set _ _ hc]
  · have hih : i < h.length := hh.symm ▸ h14
    rw [List.append_assoc, List.set_append_left _ _ hih, ← List.append_assoc]
    exact ⟨_, rfl, decodeFrame_of_crc_eq (List.length_set.trans hh) rfl _ _ (rd32_be32_self _).symm⟩

end Sys2Proof.Machine
end

section
/-! PROOFS. The queues (41_queue.md): the length and capacity tests in the words of R181, what QADD, QPOP, QEMPTY and a unit's hand-off do in
each case. -/

namespace Sys2Proof.Machine

/-! ## The admission test -/

theorem elementLen_eq_ite (q : QueueId) (o : Operands) : elementLen q o = if q = .q5 then 0 else o.d.length := by
  cases q <;> rfl

/-- A queue has room where its length is below every depth set for it (R181.3). -/
theorem queueFull_eq_false_iff {q : QueueId} {s : State} :
    queueFull q s = false ↔ ∀ c, s.params.queueDepth.get q = some c → s.queues.len q < c := by
  rw [← Bool.not_eq_true, queueFull_iff]
  simp only [not_exists, not_and, Nat.not_le]

theorem queueFull_iff_not_lt {q : QueueId} {s : State} :
    queueFull q s = true ↔ ∃ c, s.params.queueDepth.get q = some c ∧ ¬ s.queues.len q < c := by
  simp only [queueFull_iff, Nat.not_lt]

theorem qaddBody_of_lengthRefused {q : QueueId} {o : Operands} {s : State} (hl : lengthRefused q o s = true) :
    qaddBody q o s = (.qRejectLen, s) := if_pos hl

theorem qaddBody_of_full {q : QueueId} {o : Operands} {s : State} (hl : ¬ lengthRefused q o s = true) (hr : queueFull q s = true) :
    qaddBody q o s = (.qFull, s) := (if_neg hl).trans (if_pos hr)

theorem qaddBody_of_admitted {q : QueueId} {o : Operands} {s : State} (hl : ¬ lengthRefused q o s = true)
    (hr : ¬ queueFull q s = true) : qaddBody q o s = (.ok, s.pushElem q o) := (if_neg hl).trans (if_neg hr)

/-! ## QADD -/

theorem exec_qadd {f : BitVec 4} {q : QueueId} (hf : queueOf f = some q) (s : State) :
    exec (.qadd f) s = .next ((qaddBody q s.ops s).2.respond { status := (qaddBody q s.ops s).1 }) := by
  simp only [exec, execQadd, hf]

theorem exec_qadd_lengthRefused {f : BitVec 4} {q : QueueId} (hf : queueOf f = some q) {s : State}
    (hl : lengthRefused q s.ops s = true) : exec (.qadd f) s = .next (s.respond { status := .qRejectLen }) := by
  rw [exec_qadd hf, qaddBody_of_lengthRefused hl]

theorem exec_qadd_full {f : BitVec 4} {q : QueueId} (hf : queueOf f = some q) {s : State} (hl : ¬ lengthRefused q s.ops s = true)
    (hr : queueFull q s = true) : exec (.qadd f) s = .next (s.respond { status := .qFull }) := by
  rw [exec_qadd hf, qaddBody_of_full hl hr]

/-- Settles O20: the two tests are R181's, and each case of QADD-body is one clause. -/
theorem qaddFollowsAdmission : Obligations.QaddFollowsAdmission := by
  refine ⟨fun s f q plen badLen full hf hplen hbad hfull => ?_, fun qs o => ⟨rfl, rfl, rfl, rfl, rfl, rfl, rfl⟩⟩
  obtain rfl : plen = elementLen q s.ops := hplen.trans (elementLen_eq_ite q s.ops).symm
  rw [← lengthRefused_iff] at hbad
  rw [← queueFull_iff_not_lt] at hfull
  rw [hbad, hfull]
  exact ⟨exec_qadd_lengthRefused hf, exec_qadd_full hf, fun hl hr =>
    exec_qadd_admitted hf (Bool.eq_false_iff.2 hl) (Bool.eq_false_iff.2 hr)⟩

/-- Settles O21: where LEN_CHECK is set, Q4 asks for 28 bytes and for at least 46, and the element of Q5 has length 0. -/
theorem qaddLengthBoundary : Obligations.QaddLengthBoundary := by
  intro s f q hf hcheck hroom
  refine ⟨fun h4 h5 => ?_, fun h45 => exec_qadd_lengthRefused hf ?_⟩
  · have hlen : elementLen q s.ops = s.ops.d.length := (elementLen_eq_ite q s.ops).trans (if_neg h5)
    have hiff : lengthRefused q s.ops s = true ↔ s.ops.d.length < 46 ∨ 1500 < s.ops.d.length := by
      simp only [lengthRefused_iff, h4, hcheck, hlen, false_and, false_or, true_and]
    refine ⟨fun hout => exec_qadd_lengthRefused hf (hiff.2 (by omega)), fun hin => ?_⟩
    exact exec_qadd_admitted hf (Bool.eq_false_iff.2 (mt hiff.1 (by omega))) (queueFull_eq_false_iff.2 hroom)
  · rw [lengthRefused_iff]
    rcases h45 with rfl | rfl
    · by_cases h28 : elementLen .q4 s.ops = 28
      · exact .inr ⟨hcheck, .inl (by omega)⟩
      · exact .inl ⟨rfl, h28⟩
    · exact .inr ⟨hcheck, .inl (Nat.zero_lt_succ 45)⟩

/-! ## QPOP and QEMPTY -/

theorem Queues.pop_of_empty {qs : Queues} {q : QueueId} (h : qs.len q = 0) : qs.pop q = none := by
  cases q <;> simp only [pop, List.eq_nil_of_length_eq_zero h]

theorem exec_qpop_of_empty {f : BitVec 4} {q : QueueId} (hf : queueOf f = some q) {s : State} (h : s.queues.len q = 0) :
    exec (.qpop f) s = .next (s.respond { status := .qEmpty }) := by
  simp only [exec, execQpop, hf, Queues.pop_of_empty h, State.raise]

/-- Settles O23: each of the seven heads is popped by `Queues.pop`'s own case for that queue. -/
theorem qpopTakesHead : Obligations.QpopTakesHead := by
  refine fun s => ⟨fun f q hf h => exec_qpop_of_empty hf h, ?_, ?_, ?_, ?_, ?_, ?_, ?_⟩
  all_goals
    intro e r hq
    exact exec_qpop rfl (by simp only [Queues.pop, hq])

/-- Settles O24, by QEMPTY's case for a field that names a queue. -/
theorem qemptyReportsEmptiness : Obligations.QemptyReportsEmptiness := by
  intro s f q hf
  simp only [exec, execQempty, hf]

/-! ## A unit's hand-off -/

/-- A hand-off whose length the queue refuses is dropped with one log event (R343). -/
theorem handOff_of_lengthRefused (u : Agent) {q : QueueId} {o : Operands} {s : State} (hl : lengthRefused q o s = true) :
    s.handOff u q o = s.logEvent u .qRejectLen := by
  rw [State.handOff, qaddBody_of_lengthRefused hl, State.logUnlessOk, if_neg nofun]

/-- A hand-off to a full queue is dropped with one log event (R343). -/
theorem handOff_of_full (u : Agent) {q : QueueId} {o : Operands} {s : State} (hl : ¬ lengthRefused q o s = true)
    (hr : queueFull q s = true) : s.handOff u q o = s.logEvent u .qFull := by
  rw [State.handOff, qaddBody_of_full hl hr, State.logUnlessOk, if_neg nofun]

theorem handOff_of_admitted (u : Agent) {q : QueueId} {o : Operands} {s : State} (hl : ¬ lengthRefused q o s = true)
    (hr : ¬ queueFull q s = true) : s.handOff u q o = s.pushElem q o := by
  rw [State.handOff, qaddBody_of_admitted hl hr, State.logUnlessOk, if_pos rfl]

/-- Settles O54: the two tests are R181's, and each case of QADD-body is one clause. -/
theorem handOffPushesOrDrops : Obligations.HandOffPushesOrDrops := by
  intro s u q o plen hplen
  obtain rfl : plen = elementLen q o := hplen.trans (elementLen_eq_ite q o).symm
  rw [← lengthRefused_iff, ← queueFull_iff_not_lt, ← queueFull_eq_false_iff]
  exact ⟨handOff_of_lengthRefused u, fun hl => ⟨handOff_of_full u hl, fun hr => handOff_of_admitted u hl (Bool.eq_false_iff.1 hr)⟩⟩

end Sys2Proof.Machine
end

section
/-! PROOFS. The frame codec (42_frame.md): FDEC's gates on any captured bytes, and what they leave of a frame FENC built at a node it is
addressed to. -/

namespace Sys2Proof.Machine

/-! ## FDEC's gates (R203, R204) -/

/-- BROADCAST_MAC in the words of R33: the low half of BMAC_HI and BMAC_LO. -/
theorem broadcastMac_eq (s : State) : broadcastMac s = s.csrs.bmacHi.extractLsb' 0 16 ++ s.csrs.bmacLo := by
  rw [broadcastMac, BitVec.setWidth_eq_extractLsb' (by decide)]

/-- Settles O26: the chain of R203 is `decodeFrame`'s own, its two addresses written as the CSRs hold them. -/
theorem fdecGates : Obligations.FdecGates := by
  rintro s d n rfl rfl
  rw [exec, execFdec, decodeFrame, localMac_eq, broadcastMac_eq, Config.ethertypeIpv4, Config.ethertypeArp]

/-! ## A built frame at a node it is addressed to (R207) -/

theorem slice_after_header (h r : Bytes) (k : Nat) : slice (h ++ r) h.length (h.length + k) = r.take k := by
  rw [slice, List.drop_left, Nat.add_sub_cancel_left]

/-- FDEC takes an ARP frame's 28 bytes from the payload and the trailer after it (R203, R207). -/
theorem encodeFrame_arpBytes (s : State) (m : Mac) (e : Half) (d : Bytes) :
    slice (encodeFrame s m e d) 14 42 = (d ++ be32 (crc32 d)).take 28 := by
  obtain ⟨h, hh, hparts⟩ := encodeFrame_parts s m e d
  rw [hparts, List.append_assoc, ← slice_after_header h, hh]

/-- A built frame passes the length, CRC and address gates of a node it is addressed to, so that only its ethertype and the check on its
length are left to decide (R203). -/
theorem decodeFrame_encodeFrame {a b : State} {m : Mac} (hm : m = localMac b ∨ m = broadcastMac b) (e : Half) (d : Bytes)
    (wl : BitVec 32) :
    decodeFrame b (encodeFrame a m e d) wl =
      if e = Config.ethertypeIpv4 then
        if wl.toNat ≠ (encodeFrame a m e d).length then { status := .frameLenMismatch }
        else { status := .ok, et := Config.ethertypeIpv4, bytes := d }
      else if e = Config.ethertypeArp then
        if d.length < 24 then { status := .frameShort }
        else { status := .ok, et := Config.ethertypeArp, bytes := (d ++ be32 (crc32 d)).take 28 }
      else { status := .ethertypeUnknown } := by
  have hlong : ¬ (encodeFrame a m e d).length < 18 := by rw [encodeFrame_length]; omega
  have hend : (encodeFrame a m e d).length - 4 = 14 + d.length := by rw [encodeFrame_length, Nat.add_sub_cancel]
  have harp : (encodeFrame a m e d).length < 42 ↔ d.length < 24 := by rw [encodeFrame_length]; omega
  have hmac : ¬ (m ≠ localMac b ∧ m ≠ broadcastMac b) := fun ⟨hlocal, hbroadcast⟩ => hm.elim hlocal hbroadcast
  simp only [decodeFrame, if_neg hlong, hend, encodeFrame_payload, encodeFrame_trailer, ne_eq, not_true_eq_false, if_false, encodeFrame_dst,
    if_neg hmac, encodeFrame_ethertype, harp, encodeFrame_arpBytes]

/-- Settles O27: past the gates, each of the three results is one case of the ethertype and the length. -/
theorem frameRoundTrip : Obligations.FrameRoundTrip := by
  intro a b f hf hm _ hd hwl
  obtain rfl := execFenc_bytes hf
  rw [exec, execFdec, hd, decodeFrame_encodeFrame hm, Config.ethertypeIpv4, Config.ethertypeArp]
  refine ⟨fun het => ?_, fun het hlen => ?_, fun het hlen => ?_⟩
  · rw [if_pos het, if_neg (not_not_intro hwl)]
    rfl
  · rw [het, if_neg (by decide), if_pos rfl, if_neg hlen.not_gt]
    rfl
  · rw [het, if_neg (by decide), if_pos rfl, if_pos hlen]

end Sys2Proof.Machine
end

section
/-! PROOFS. The address-resolution engine (43_arp.md): the table and the pending set after a write, the ARP frame field by field, and what
ARPFIND, ARPINS, ARPUPD, ARPRX and ARPREQ do in each case. -/

namespace Sys2Proof.Machine

/-! ## The table and the pending set -/

/-- A table or queue has room where it is smaller than every capacity set for it (R7). -/
theorem atCapacity_eq_false_iff {cap : Option Nat} {n : Nat} : atCapacity cap n = false ↔ ∀ c, cap = some c → n < c := by
  rw [← Bool.not_eq_true, atCapacity_iff]
  simp only [not_exists, not_and, Nat.not_le]

theorem atCapacity_of_eq_some {cap : Option Nat} {n : Nat} (h : cap = some n) : atCapacity cap n = true :=
  (atCapacity_iff _ _).2 ⟨n, h, le_rfl⟩

theorem mem_pendingAdd (s : State) (ip x : IpAddr) : x ∈ (s.pendingAdd ip).pending ↔ x = ip ∨ x ∈ s.pending := by
  have eq_of_not_ult : ∀ b : IpAddr, BitVec.ult ip b = false → BitVec.ult b ip = false → b = ip := by
    intro b hlo hhi
    rw [← Bool.not_eq_true, ult_iff] at hlo hhi
    exact BitVec.eq_of_toNat_eq (by omega)
  constructor
  · exact mem_insertSorted _ _ _ _
  · rintro (rfl | hx)
    · exact self_mem_insertSorted _ _ _
    · exact old_mem_insertSorted _ _ _ _ eq_of_not_ult hx

theorem mem_pendingDel (s : State) (ip x : IpAddr) : x ∈ (s.pendingDel ip).pending ↔ x ∈ s.pending ∧ x ≠ ip := by
  rw [State.pendingDel_pending, List.mem_filter, decide_eq_true_iff]

/-! ## ARPFIND (R236) -/

theorem exec_arpfind_hit {s : State} {e : CacheEntry} (h : cacheFind s s.ops.ip = some e) :
    exec .arpfind s = .next (s.respond { status := .ok, mac := e.mac, value := e.tag.code }) := by
  simp only [exec, execArpfind, arpfindBody, h]

theorem exec_arpfind_miss {s : State} (h : cacheFind s s.ops.ip = none) :
    exec .arpfind s = .next ((arpMiss s.ops.ip s).respond { status := .arpMiss }) := by
  simp only [exec, execArpfind, arpfindBody, h]

theorem missEnqueues_iff (ip : IpAddr) (s : State) : missEnqueues ip s = true ↔ ip ∉ s.pending ∨ s.draw.arpRedundant = true := by
  by_cases hp : ip ∈ s.pending <;> simp [missEnqueues, hp]

/-- An element of Q5 has payload length 0, which LEN_CHECK refuses wherever it is set (R180, R181). -/
theorem admitted_request_iff (ip : IpAddr) (s : State) : admitted .q5 { ip := ip } s = true ↔
    s.params.lenCheck.q5 = false ∧ ∀ c, s.params.queueDepth.q5 = some c → s.queues.q5.length < c := by
  have hlen : lengthRefused .q5 { ip := ip } s = s.params.lenCheck.q5 := by
    cases h : s.params.lenCheck.q5 <;> simp [lengthRefused, Config.PerQueue.get, elementLen, h, Config.payloadMin]
  rw [admitted, Bool.and_eq_true, Bool.not_eq_true', Bool.not_eq_true', hlen, queueFull_eq_false_iff]
  rfl

/-- Settles O29, by ARPFIND's hit; the three tag codes are `Tag.code`'s. -/
theorem arpfindHit : Obligations.ArpfindHit := by
  intro s e h
  rw [exec_arpfind_hit h]
  rcases e with ⟨_, _ | _ | _⟩ <;> rfl

/-- Settles O30: the condition of the miss path is R236's, and the pending set it leaves is the old one with the IP. -/
theorem arpfindMiss : Obligations.ArpfindMiss := by
  intro s enq hmiss henq
  rw [← missEnqueues_iff, ← admitted_request_iff, ← Bool.and_eq_true] at henq
  rw [exec_arpfind_miss hmiss, henq, arpMiss]
  refine ⟨fun h => ⟨_, mem_pendingAdd s s.ops.ip, ?_⟩, fun h => ?_⟩
  · rw [if_pos h]
    rfl
  · rw [if_neg h]

/-! ## ARPINS and ARPUPD (R237, R238) -/

theorem exec_arpins {f : BitVec 2} {tag : Tag} (hf : tagOf f = some tag) (s : State) : exec (.arpins f) s =
    .next ((arpinsBody tag s.ops.ip s.ops.mac s).2.respond { status := (arpinsBody tag s.ops.ip s.ops.mac s).1 }) := by
  simp only [exec, execArpins, hf]

theorem exec_arpupd {f : BitVec 2} {tag : Tag} (hf : tagOf f = some tag) (s : State) : exec (.arpupd f) s =
    .next ((arpupdBody tag s.ops.ip s.ops.mac s).2.respond { status := (arpupdBody tag s.ops.ip s.ops.mac s).1 }) := by
  simp only [exec, execArpupd, hf]

/-- Settles O31: each case of ARPINS-body is one clause, and an entry put for an absent IP is one entry more. -/
theorem arpinsInserts : Obligations.ArpinsInserts := by
  intro s f tag hf
  rw [exec_arpins hf, arpinsBody]
  refine ⟨fun hfound => ?_, fun habsent hfull => ?_, fun habsent hroom => ?_⟩
  · rw [if_pos (Option.isSome_iff_ne_none.2 hfound)]
  · rw [habsent, if_neg (by decide), if_pos (atCapacity_of_eq_some hfull)]
  · rw [habsent, if_neg (by decide), if_neg (Bool.eq_false_iff.1 (atCapacity_eq_false_iff.2 hroom))]
    exact ⟨_, rfl, rfl, fun ip => cacheFind_cachePut s s.ops.ip ip _, mem_pendingDel _ _, length_insertSorted_absent _ _ _ habsent⟩

/-- Settles O32: each case of ARPUPD-body is one clause. -/
theorem arpupdUpdates : Obligations.ArpupdUpdates := by
  intro s f tag hf
  rw [exec_arpupd hf, arpupdBody]
  refine ⟨fun habsent => ?_, fun hfound => ?_⟩
  · rw [if_pos (Option.isNone_iff_eq_none.2 habsent)]
  · rw [if_neg (mt Option.isNone_iff_eq_none.1 hfound)]
    exact ⟨_, rfl, rfl, fun ip => cacheFind_cachePut s s.ops.ip ip _⟩

/-! ## The ARP frame (R120, R121) -/

/-- The fields of an ARP frame, which fix all its 28 bytes (R120). -/
theorem arpFrame_fields {r : Bytes} {op : Half} {smac tmac : Mac} {sip tip : IpAddr} (hr : r = arpFrame op smac sip tmac tip) :
    r.length = 28 ∧ rd16 r 0 = 0x0001#16 ∧ rd16 r 2 = 0x0800#16 ∧ byteAt r 4 = 6 ∧ byteAt r 5 = 4 ∧ rd16 r 6 = op ∧
      rd48 r 8 = smac ∧ rd32 r 14 = sip ∧ rd48 r 18 = tmac ∧ rd32 r 24 = tip := by
  subst hr
  have htypes : ∃ rest, arpFrame op smac sip tmac tip = be16 0x0001#16 ++ (be16 0x0800#16 ++ rest) := by
    simp only [arpFrame, List.append_assoc, List.append_cancel_left_eq, exists_eq']
  obtain ⟨_, hparts⟩ := htypes
  have hhw := hparts ▸ rd16_be16_head 0x0001#16 _
  have hproto := hparts ▸ rd16_be16 (be16 0x0001#16) _ 0x0800#16
  exact ⟨arpFrame_length .., hhw, hproto, rfl, rfl, arpOp_arpFrame .., arpSmac_arpFrame .., arpSip_arpFrame .., arpTmac_arpFrame ..,
    arpTip_arpFrame ..⟩

/-! The fields ARPRX reads of the 28 leading bytes are those of the operand (R239, R240). -/

theorem arpOp_leading (d : Bytes) : arpOp (slice d 0 Config.arpLen) = rd16 d 6 := rd16_slice d 28 6 (by decide)

theorem arpSmac_leading (d : Bytes) : arpSmac (slice d 0 Config.arpLen) = rd48 d 8 := rd48_slice d 28 8 (by decide)

theorem arpSip_leading (d : Bytes) : arpSip (slice d 0 Config.arpLen) = rd32 d 14 := rd32_slice d 28 14 (by decide)

theorem arpTip_leading (d : Bytes) : arpTip (slice d 0 Config.arpLen) = rd32 d 24 := rd32_slice d 28 24 (by decide)

/-! ## ARPRX (R239) -/

theorem exec_arprx_short {s : State} (hlen : s.ops.d.length < 28) : exec .arprx s = .next (s.respond { status := .frameShort }) := by
  rw [exec, execArprx, arprxBody, Config.arpLen, if_pos hlen]

/-- The peer side: the gates of R239 in its order, and the reply of R242. -/
theorem exec_arprx_peer {s : State} (hlen : 28 ≤ s.ops.d.length) (hrole : s.csrs.mode.getLsbD 0 = true) :
    exec .arprx s = .next (s.respond
      (if rd16 s.ops.d 6 ≠ 1#16 then { status := .arpWrongOpcode }
      else if rd32 s.ops.d 24 ≠ s.csrs.lip then { status := .arpNotForUs }
      else
        { status := .ok, mac := rd48 s.ops.d 8, et := 0x0806,
          bytes := arpFrame 2#16 (localMac s) s.csrs.lip (rd48 s.ops.d 8) (rd32 s.ops.d 14) })) := by
  have hpeer : isPeer s = true := hrole
  have hlong : ¬ s.ops.d.length < Config.arpLen := hlen.not_gt
  simp only [exec, execArprx, arprxBody, if_neg hlong, if_pos hpeer, arpAnswer, arpOp_leading, arpSmac_leading, arpSip_leading,
    arpTip_leading]
  rfl

theorem exec_arprx_originator {s : State} (hlen : 28 ≤ s.ops.d.length) (hrole : s.csrs.mode.getLsbD 0 = false) :
    exec .arprx s = .next ((arpLearn (slice s.ops.d 0 Config.arpLen) s).2.respond (arpLearn (slice s.ops.d 0 Config.arpLen) s).1) := by
  have hpeer : ¬ isPeer s = true := Bool.eq_false_iff.1 hrole
  have hlong : ¬ s.ops.d.length < Config.arpLen := hlen.not_gt
  simp only [exec, execArprx, arprxBody, if_neg hlong, if_neg hpeer]

/-- Settles O33: of a reply ARPRX reads the sender, and each case of the capacity test is one clause. -/
theorem arprxLearnsReply : Obligations.ArprxLearnsReply := by
  intro s hrole hlen hop
  have hreply : ¬ rd16 s.ops.d 6 ≠ 2 := not_not_intro hop
  rw [exec_arprx_originator hlen hrole, arpLearn, arpOp_leading, arpSip_leading, arpSmac_leading, if_neg hreply]
  refine ⟨fun habsent hfull => ?_, fun hroom => ?_⟩
  · rw [habsent, atCapacity_of_eq_some hfull, if_pos (by decide)]
  · have hput : ¬ ((cacheFind s (rd32 s.ops.d 14)).isNone && atCapacity s.params.arpCap s.cache.length) = true := by
      rw [Bool.and_eq_true, Option.isNone_iff_eq_none, not_and_or, Bool.not_eq_true, atCapacity_eq_false_iff]
      exact hroom
    rw [if_neg hput]
    exact ⟨_, rfl, rfl, fun ip => cacheFind_cachePut s _ ip _, mem_pendingDel _ _⟩

/-- Settles O34: past the gates of the peer side, the reply is an ARP frame from LOCAL_MAC and LOCAL_IP to the sender. -/
theorem arprxAnswersRequest : Obligations.ArprxAnswersRequest := by
  intro s hrole hlen hop htip
  rw [exec_arprx_peer hlen hrole, if_neg (not_not_intro hop), if_neg (not_not_intro htip)]
  exact ⟨_, rfl, arpFrame_fields (by rw [localMac_eq])⟩

/-- Settles O35: the length gate, then on each side the opcode gate, and on the peer side the target gate. -/
theorem arprxRefusals : Obligations.ArprxRefusals := by
  refine fun s => ⟨exec_arprx_short, fun hlen hop => ?_, fun hlen hrole hop htip => ?_⟩
  · cases hrole : s.csrs.mode.getLsbD 0 with
    | true =>
      rw [hrole, if_pos rfl] at hop
      rw [exec_arprx_peer hlen hrole, if_pos hop]
    | false =>
      rw [hrole, if_neg Bool.false_ne_true, ← arpOp_leading] at hop
      have hother : arpOp (slice s.ops.d 0 Config.arpLen) ≠ 2 := hop
      rw [exec_arprx_originator hlen hrole, arpLearn, if_pos hother]
  · rw [exec_arprx_peer hlen hrole, if_neg (not_not_intro hop), if_pos htip]

/-! ## ARPREQ (R231, R241) -/

theorem requestTarget_eq (s : State) (ip : IpAddr) :
    requestTarget s ip = if ip &&& s.csrs.netmask = s.csrs.lip &&& s.csrs.netmask then ip else s.csrs.gwip := by
  simp only [requestTarget, sameNet, netmask, localIp, gatewayIp, beq_iff_eq]

/-- Settles O36: the request is an ARP frame from LOCAL_MAC and LOCAL_IP for the target, sent to BROADCAST_MAC. -/
theorem arpreqBroadcastsRequest : Obligations.ArpreqBroadcastsRequest := by
  intro s tgt htgt
  obtain rfl : tgt = requestTarget s s.ops.ip := htgt.trans (requestTarget_eq s s.ops.ip).symm
  rw [exec, execArpreq, arpRequest, broadcastMac_eq]
  exact ⟨_, rfl, arpFrame_fields (by rw [localMac_eq, localIp]; rfl)⟩

end Sys2Proof.Machine
end

section
/-! PROOFS. The checksum (R270, R272): the sum of the words read off the wire, what the complement of the folded sum says of it, and a header
whose checksum field is the checksum of the rest. -/

namespace Sys2Proof.Machine

/-! ## The sum of the words -/

theorem rd16_toNat (d : Bytes) (i : Nat) : (rd16 d i).toNat = (byteAt d i).toNat * 256 + (byteAt d (i + 1)).toNat := by
  rw [rd16, BitVec.toNat_append, ← Nat.shiftLeft_add_eq_or_of_lt (byteAt d (i + 1)).isLt, Nat.shiftLeft_eq]

/-- The words of R270 read one by one, the padding byte appended. -/
theorem sumWords_eq_sum_rd16 (d : Bytes) :
    sumWords d = ((List.range ((d.length + 1) / 2)).map (fun k => (rd16 (d ++ [0]) (2 * k)).toNat)).sum := by
  fun_induction sumWords d with
  | case1 => rfl
  | case2 a => simp [rd16_toNat, byteAt]
  | case3 a b d ih =>
    have hlen : ((a :: b :: d).length + 1) / 2 = (d.length + 1) / 2 + 1 := by simp only [List.length_cons]; omega
    have htail (k : Nat) : rd16 (a :: b :: d ++ [0]) (2 * (k + 1)) = rd16 (d ++ [0]) (2 * k) := by
      have h := rd16_append_right [a, b] (d ++ [0]) (2 * k)
      rwa [List.length_cons, List.length_singleton, Nat.add_comm] at h
    rw [hlen, List.range_succ_eq_map, List.map_cons, List.sum_cons, List.map_map, ih]
    simp only [Function.comp_def, Nat.succ_eq_add_one, htail]
    simp [rd16_toNat, byteAt]

theorem sumWords_be16 (v : Half) : sumWords (be16 v) = v.toNat := by
  have := v.isLt
  simp only [be16, sumWords, BitVec.extractLsb'_toNat, Nat.shiftRight_eq_div_pow]
  omega

/-! ## The complement of the folded sum -/

theorem csum_toNat (d : Bytes) : (csum d).toNat = 0xFFFF - foldCarry (sumWords d) (sumWords d) := by
  have hle := foldCarry_le (sumWords d) (sumWords d) (Nat.le_refl _)
  rw [csum, BitVec.toNat_not, BitVec.toNat_ofNat, Nat.mod_eq_of_lt (by omega)]

/-- The complement of the checksum is the word sum up to end-around carries. -/
theorem complement_csum_mod (d : Bytes) : (0xFFFF - (csum d).toNat) % 65535 = sumWords d % 65535 := by
  have hle := foldCarry_le (sumWords d) (sumWords d) (Nat.le_refl _)
  rw [csum_toNat, Nat.sub_sub_self hle, foldCarry_mod]

theorem complement_csum_eq_zero_iff (d : Bytes) : 0xFFFF - (csum d).toNat = 0 ↔ sumWords d = 0 := by
  have hle := foldCarry_le (sumWords d) (sumWords d) (Nat.le_refl _)
  have hpos := foldCarry_pos (sumWords d) (sumWords d)
  rw [csum_toNat, Nat.sub_sub_self hle]
  refine ⟨fun h => by omega, fun h => by rw [h]; rfl⟩

/-- A positive word sum that is a multiple of 65535 has checksum 0. -/
theorem csum_eq_zero {d : Bytes} (hmod : sumWords d % 65535 = 0) (hpos : 0 < sumWords d) : csum d = 0 := by
  have hc := complement_csum_mod d
  have hz := complement_csum_eq_zero_iff d
  have h0 : (csum d).toNat = 0 := by omega
  exact BitVec.eq_of_toNat_eq h0

/-- Settles O38: the folded sum is the complement of the checksum. -/
theorem ipcsumFoldedSum : Obligations.IpcsumFoldedSum := by
  rintro s _ rfl
  rw [← sumWords_eq_sum_rd16]
  refine ⟨0xFFFF - (csum s.ops.d).toNat, Nat.sub_le _ _, complement_csum_mod _, complement_csum_eq_zero_iff _, ?_⟩
  have hle : (csum s.ops.d).toNat ≤ 0xFFFF := Nat.le_of_lt_succ (csum s.ops.d).isLt
  rw [Nat.sub_sub_self hle, BitVec.ofNat_toNat]
  rfl

/-! ## The header -/

/-- The checksum field stands behind ten bytes, and the rest of the header does not depend on it (R271). -/
theorem headerWith_split (s : State) (proto : Byte) (tl : Nat) (df mf : Bool) (off : Nat) :
    ∃ p q : Bytes, p.length = 10 ∧ q.length = 48 ∧ 0 < sumWords p ∧
      ∀ sum, headerWith s proto tl df mf off sum = p ++ (be16 sum ++ q) :=
  ⟨[0x4F, txTos s] ++ be16 (BitVec.ofNat 16 tl) ++ be16 (txId s) ++ be16 (fragWord df mf off) ++ [txTtl s, proto],
    be32 (localIp s) ++ be32 (destIp s) ++ zeros 40, rfl, rfl, by simp [sumWords],
    fun _ => by simp only [headerWith, List.append_assoc]⟩

/-- The header sums to a multiple of 65535: the sum without the checksum field, and the complement of its folded form (R272). -/
theorem csum_ipHeader (s : State) (proto : Byte) (tl : Nat) (df mf : Bool) (off : Nat) : csum (ipHeader s proto tl df mf off) = 0 := by
  obtain ⟨p, q, hp, _, hpos, hsplit⟩ := headerWith_split s proto tl df mf off
  have hsum (v : Half) : sumWords (headerWith s proto tl df mf off v) = sumWords p + v.toNat + sumWords q := by
    rw [hsplit, sumWords_append _ _ (by rw [hp]), sumWords_append (be16 v) q (by rw [be16_length]), sumWords_be16, Nat.add_assoc]
  have hzero := complement_csum_mod (headerWith s proto tl df mf off 0)
  have hlt := (csum (headerWith s proto tl df mf off 0)).isLt
  rw [hsum, show (0 : Half).toNat = 0 from rfl] at hzero
  exact csum_eq_zero (by rw [ipHeader, hsum]; omega) (by rw [ipHeader, hsum]; omega)

theorem rd16_ipHeader_checksum (s : State) (proto : Byte) (tl : Nat) (df mf : Bool) (off : Nat) :
    rd16 (ipHeader s proto tl df mf off) 10 =
      csum (slice (ipHeader s proto tl df mf off) 0 10 ++ [0, 0] ++ slice (ipHeader s proto tl df mf off) 12 60) := by
  obtain ⟨p, q, hp, hq, _, hsplit⟩ := headerWith_split s proto tl df mf off
  have hblank : headerWith s proto tl df mf off 0 = p ++ [0, 0] ++ q := by rw [hsplit, List.append_assoc]; rfl
  generalize hc : csum (headerWith s proto tl df mf off 0) = c
  have hh : ipHeader s proto tl df mf off = p ++ (be16 c ++ q) := by rw [ipHeader, hsplit, hc]
  have hhead : slice (p ++ (be16 c ++ q)) 0 10 = p := by
    simpa [hp] using slice_middle [] p (be16 c ++ q)
  have htail : slice (p ++ (be16 c ++ q)) 12 60 = q := by
    simpa [hp, hq] using slice_middle (p ++ be16 c) q []
  rw [hh, hhead, htail, ← hblank, hc, ← hp, rd16_be16]

end Sys2Proof.Machine
end

section
/-! PROOFS. IPFRAG (R271, R280): the datagrams it lists, each a header and its slice of the operand, and the header field by field. -/

namespace Sys2Proof.Machine

/-! ## The flags and fragment offset word (R123) -/

/-- The flags stand above the offset, whose field has 13 bits. -/
theorem fragWord_toNat (df mf : Bool) {off : Nat} (h : off < 8192) :
    (fragWord df mf off).toNat = (if df then 0x4000 else 0) + (if mf then 0x2000 else 0) + off := by
  have hor (k : Nat) : 0x2000 * k ||| off = 0x2000 * k + off := (Nat.two_pow_add_eq_or_of_lt (i := 13) h k).symm
  simp only [fragWord, BitVec.toNat_or, BitVec.toNat_ofNat, Nat.mod_eq_of_lt (show off < 2 ^ 16 by omega)]
  cases df <;> cases mf
  · exact hor 0
  · exact hor 1
  · exact hor 2
  · exact hor 3

theorem fragWord_df (df mf : Bool) {off : Nat} (h : off < 8192) : (fragWord df mf off).getLsbD 14 = df := by
  have hoff : off.testBit 14 = false := Nat.testBit_lt_two_pow (by omega)
  simp only [fragWord, BitVec.getLsbD_or, BitVec.getLsbD_ofNat, hoff, Bool.and_false, Bool.or_false]
  cases df <;> cases mf <;> rfl

theorem fragWord_mf (df mf : Bool) {off : Nat} (h : off < 8192) : (fragWord df mf off).getLsbD 13 = mf := by
  have hoff : off.testBit 13 = false := Nat.testBit_lt_two_pow h
  simp only [fragWord, BitVec.getLsbD_or, BitVec.getLsbD_ofNat, hoff, Bool.and_false, Bool.or_false]
  cases df <;> cases mf <;> rfl

/-! ## The header, field by field (R271) -/

section Header

variable (s : State) (proto : Byte) (tl : Nat) (df mf : Bool) (off : Nat) (r : Bytes)

theorem ipHeader_bytes :
    byteAt (ipHeader s proto tl df mf off ++ r) 0 = 0x4F ∧ byteAt (ipHeader s proto tl df mf off ++ r) 1 = txTos s ∧
      byteAt (ipHeader s proto tl df mf off ++ r) 8 = txTtl s ∧ byteAt (ipHeader s proto tl df mf off ++ r) 9 = proto :=
  ⟨rfl, rfl, rfl, rfl⟩

theorem ipHeader_totalLength : rd16 (ipHeader s proto tl df mf off ++ r) 2 = BitVec.ofNat 16 tl := by
  simp only [ipHeader, headerWith, List.append_assoc]
  exact rd16_be16 [0x4F, txTos s] _ _

theorem ipHeader_id : rd16 (ipHeader s proto tl df mf off ++ r) 4 = txId s := by
  have h := rd16_be16 ([0x4F, txTos s] ++ be16 (BitVec.ofNat 16 tl))
  simp only [List.append_assoc] at h
  simp only [ipHeader, headerWith, List.append_assoc]
  exact h _ _

theorem ipHeader_flags : rd16 (ipHeader s proto tl df mf off ++ r) 6 = fragWord df mf off := by
  have h := rd16_be16 ([0x4F, txTos s] ++ be16 (BitVec.ofNat 16 tl) ++ be16 (txId s))
  simp only [List.append_assoc] at h
  simp only [ipHeader, headerWith, List.append_assoc]
  exact h _ _

theorem ipHeader_addresses : rd32 (ipHeader s proto tl df mf off ++ r) 12 = localIp s ∧
    rd32 (ipHeader s proto tl df mf off ++ r) 16 = destIp s ∧ slice (ipHeader s proto tl df mf off ++ r) 20 60 = zeros 40 := by
  have hsplit : ∃ p : Bytes, p.length = 12 ∧
      ipHeader s proto tl df mf off ++ r = p ++ (be32 (localIp s) ++ (be32 (destIp s) ++ (zeros 40 ++ r))) :=
    ⟨[0x4F, txTos s] ++ be16 (BitVec.ofNat 16 tl) ++ be16 (txId s) ++ be16 (fragWord df mf off) ++ [txTtl s, proto] ++
      be16 (csum (headerWith s proto tl df mf off 0)), rfl, by simp only [ipHeader, headerWith, List.append_assoc]⟩
  obtain ⟨p, hp, hsplit⟩ := hsplit
  have hlip := rd32_be32 p (be32 (destIp s) ++ (zeros 40 ++ r)) (localIp s)
  have hdip := rd32_be32 (p ++ be32 (localIp s)) (zeros 40 ++ r) (destIp s)
  have hzeros := slice_middle (p ++ be32 (localIp s) ++ be32 (destIp s)) (zeros 40) r
  simp only [List.append_assoc, List.length_append, be32_length, zeros_length, hp, ← hsplit] at hlip hdip hzeros
  exact ⟨hlip, hdip, hzeros⟩

end Header

/-! ## Slices of the operand (R280) -/

theorem slicePayload_length (d : Bytes) (i : Nat) : (slicePayload d i).length = min 1400 (d.length - i * 1400) := by
  simp only [slicePayload, slice_length, Config.maxSlice]
  omega

theorem slicePayload_eq_take (d : Bytes) (i : Nat) : slicePayload d i = (d.drop (i * 1400)).take 1400 := by
  simp only [slicePayload, slice, Config.maxSlice, Nat.add_sub_cancel_left]
  rw [← List.length_drop, ← List.take_eq_take_min]

/-- The slices in order are the leading bytes. -/
theorem flatten_slicePayload (d : Bytes) (k : Nat) : ((List.range k).map (slicePayload d)).flatten = d.take (k * 1400) := by
  induction k with
  | zero => simp
  | succ k ih => simp [List.range_succ, ih, slicePayload_eq_take, Nat.succ_mul, List.take_add]

theorem lt_sliceCount_mul (n : Nat) : n < sliceCount n * 1400 := by
  simp only [sliceCount, Config.maxSlice]
  omega

/-! ## The datagrams (R280) -/

/-- Datagram `i` is a header, with DF alone where it is the only one, and its slice. -/
theorem datagram_eq (s : State) (proto : Byte) {d : Bytes} {i : Nat} (hi : i < sliceCount d.length) :
    datagram s proto d i = ipHeader s proto (60 + (slicePayload d i).length) (decide (sliceCount d.length = 1))
      (decide (i + 1 < sliceCount d.length)) (i * 175) ++ slicePayload d i := by
  by_cases h1 : sliceCount d.length = 1
  · obtain rfl : i = 0 := by omega
    simp [datagram, h1, Config.ipHdrLen]
  · have hmf : decide (i < sliceCount d.length - 1) = decide (i + 1 < sliceCount d.length) := by
      rw [decide_eq_decide]; omega
    have hoff : i * Config.maxSlice / 8 = i * 175 := by rw [Config.maxSlice]; omega
    simp only [datagram, h1, hmf, hoff, Config.ipHdrLen, if_false, decide_false]

/-- IPFRAG lists the datagrams of every operand of at most 65536 bytes. -/
theorem exec_ipfrag {s : State} (h : s.ops.d.length ≤ 65536) : exec .ipfrag s = .next (s.respond
    { status := .ok, list := (List.range (sliceCount s.ops.d.length)).map (datagram s s.ops.proto s.ops.d) }) := by
  rw [exec, execIpfrag, fragment, if_neg (by rw [Config.reasmBufLen]; omega)]

theorem exec_ipfrag_tooLong {s : State} (h : 65536 < s.ops.d.length) : exec .ipfrag s = .next (s.respond { status := .ipTooLong }) := by
  rw [exec, execIpfrag, fragment, Config.reasmBufLen, if_pos h]

/-- A result record returned can be told from the state after it. -/
theorem respond_injective {s : State} : Function.Injective s.respond := fun r r' h => by
  simpa using congrArg State.results h

/-- Where IPFRAG lists datagrams, the operand fits and they are its datagrams in order. -/
theorem exec_ipfrag_eq_list {s : State} {l : List Bytes} (h : exec .ipfrag s = .next (s.respond { status := .ok, list := l })) :
    s.ops.d.length ≤ 65536 ∧ l = (List.range (sliceCount s.ops.d.length)).map (datagram s s.ops.proto s.ops.d) := by
  by_cases hlen : s.ops.d.length ≤ 65536
  · rw [exec_ipfrag hlen] at h
    exact ⟨hlen, by simpa using (respond_injective (Host.Outcome.next.inj h)).symm⟩
  · rw [exec_ipfrag_tooLong (by omega)] at h
    simpa using respond_injective (Host.Outcome.next.inj h)

/-- Settles O39: every datagram listed starts with a header built. -/
theorem headersVerify : Obligations.HeadersVerify := by
  refine ⟨fun s proto tl df mf off => ⟨csum_ipHeader .., rd16_ipHeader_checksum ..⟩, fun s l hl dg hdg => ?_⟩
  obtain ⟨_, rfl⟩ := exec_ipfrag_eq_list hl
  obtain ⟨i, hi, rfl⟩ := List.mem_map.1 hdg
  rw [datagram_eq _ _ (List.mem_range.1 hi)]
  generalize 60 + (slicePayload s.ops.d i).length = tl
  have hhead := slice_middle [] (ipHeader s s.ops.proto tl (decide (sliceCount s.ops.d.length = 1))
    (decide (i + 1 < sliceCount s.ops.d.length)) (i * 175)) (slicePayload s.ops.d i)
  rw [ipHeader_length] at hhead
  exact (congrArg csum hhead).trans (csum_ipHeader ..)

theorem drop_datagram (s : State) (proto : Byte) {d : Bytes} {i : Nat} (hi : i < sliceCount d.length) :
    (datagram s proto d i).drop 60 = slicePayload d i := by
  rw [datagram_eq s proto hi]
  exact List.drop_left' (ipHeader_length ..)

/-- Settles O41: the payloads are the slices, and the slices cover the operand. -/
theorem ipfragPayloadsJoin : Obligations.IpfragPayloadsJoin := by
  intro s hlen
  refine ⟨_, exec_ipfrag hlen, ?_⟩
  have hdrop : ∀ i ∈ List.range (sliceCount s.ops.d.length),
      (datagram s s.ops.proto s.ops.d i).drop 60 = slicePayload s.ops.d i := fun i hi => drop_datagram s _ (List.mem_range.1 hi)
  rw [List.map_map, Function.comp_def, List.map_congr_left hdrop, flatten_slicePayload, List.take_of_length_le (lt_sliceCount_mul _).le]

/-! ## The datagrams, field by field -/

theorem sliceCount_le {n : Nat} (h : n ≤ 65536) : sliceCount n ≤ 47 := by
  simp only [sliceCount, Config.maxSlice]
  omega

section Datagram

variable (s : State) (proto : Byte) {d : Bytes} {i : Nat} (hi : i < sliceCount d.length)
include hi

theorem datagram_length : (datagram s proto d i).length = 60 + (slicePayload d i).length := by
  rw [datagram_eq s proto hi, List.length_append, ipHeader_length, Config.ipHdrLen]

theorem datagram_totalLength : (rd16 (datagram s proto d i) 2).toNat = 60 + (slicePayload d i).length := by
  have hle := slicePayload_length_le d i
  rw [Config.maxSlice] at hle
  rw [datagram_eq s proto hi, ipHeader_totalLength, BitVec.toNat_ofNat, Nat.mod_eq_of_lt (by omega)]

theorem datagram_id : rd16 (datagram s proto d i) 4 = txId s := by
  rw [datagram_eq s proto hi, ipHeader_id]

theorem datagram_bytes : byteAt (datagram s proto d i) 0 = 0x4F ∧ byteAt (datagram s proto d i) 1 = txTos s ∧
    byteAt (datagram s proto d i) 8 = txTtl s ∧ byteAt (datagram s proto d i) 9 = proto :=
  datagram_eq s proto hi ▸ ipHeader_bytes ..

theorem datagram_addresses : rd32 (datagram s proto d i) 12 = localIp s ∧ rd32 (datagram s proto d i) 16 = destIp s ∧
    slice (datagram s proto d i) 20 60 = zeros 40 :=
  datagram_eq s proto hi ▸ ipHeader_addresses ..

theorem datagram_payload : slice (datagram s proto d i) 60 (60 + (slicePayload d i).length) = slicePayload d i := by
  rw [slice, drop_datagram s proto hi, Nat.add_sub_cancel_left, List.take_length]

theorem datagram_flags : rd16 (datagram s proto d i) 6 =
    fragWord (decide (sliceCount d.length = 1)) (decide (i + 1 < sliceCount d.length)) (i * 175) := by
  rw [datagram_eq s proto hi, ipHeader_flags]

/-- The offset of the last slice still fits its 13 bits. -/
theorem datagram_flags_toNat (hlen : d.length ≤ 65536) : (rd16 (datagram s proto d i) 6).toNat =
    if sliceCount d.length = 1 then 0x4000 else (if i + 1 < sliceCount d.length then 0x2000 else 0) + i * 175 := by
  have hle := sliceCount_le hlen
  rw [datagram_flags s proto hi, fragWord_toNat _ _ (by omega)]
  by_cases h1 : sliceCount d.length = 1
  · obtain rfl : i = 0 := by omega
    simp [h1]
  · simp [h1]

end Datagram

/-- Settles O40: the fields of a header, whose total length and offset fit 16 and 13 bits. -/
theorem ipfragDatagrams : Obligations.IpfragDatagrams := by
  rintro s _ rfl
  refine ⟨exec_ipfrag_tooLong, fun hlen => ⟨_, exec_ipfrag hlen, ?_, ?_⟩⟩
  · rw [List.length_map, List.length_range]
    rfl
  · rintro i _ dg hdg rfl
    rw [List.length_map, List.length_range]
    obtain ⟨hi, hdg⟩ := List.getElem?_eq_some_iff.1 hdg
    rw [List.length_map, List.length_range] at hi
    rw [List.getElem_map, List.getElem_range] at hdg
    obtain ⟨htag, htos, httl, hproto⟩ := datagram_bytes s s.ops.proto hi
    obtain ⟨hlip, hdip, hopt⟩ := datagram_addresses s s.ops.proto hi
    rw [← slicePayload_length, ← hdg]
    refine ⟨datagram_length s _ hi, htag, htos, datagram_totalLength s _ hi, datagram_id s _ hi, datagram_flags_toNat s _ hi hlen,
      httl, hproto, hlip, hdip, hopt, (datagram_payload s _ hi).trans ?_⟩
    rw [slicePayload_length]
    rfl

/-- Settles O42: 3000 bytes are three slices, and the flags words of their datagrams are numbers. -/
theorem ipfragScenario3000 : Obligations.IpfragScenario3000 := by
  intro s hlen
  have hcount : sliceCount s.ops.d.length = 3 := by rw [hlen]; rfl
  have hlength {i : Nat} (hi : i < 3) : (datagram s s.ops.proto s.ops.d i).length - 60 = min 1400 (3000 - i * 1400) := by
    rw [datagram_length s _ (hcount ▸ hi), slicePayload_length, hlen, Nat.add_sub_cancel_left]
  have hflags {i : Nat} (hi : i < 3) : rd16 (datagram s s.ops.proto s.ops.d i) 6 = fragWord false (decide (i + 1 < 3)) (i * 175) := by
    rw [datagram_flags s _ (hcount ▸ hi), hcount]
    rfl
  have hexec := exec_ipfrag (s := s) (by omega)
  rw [hcount] at hexec
  refine ⟨_, _, _, hexec, hlength (by decide), hlength (by decide), hlength (by decide), ?_⟩
  simp only [ipMf, ipDf, hflags (show 0 < 3 by decide), hflags (show 1 < 3 by decide), hflags (show 2 < 3 by decide)]
  decide

end Sys2Proof.Machine
end

section
/-! PROOFS. IPREASM on one unit (R290 to R293, R342): the drops in their order, what an accepted unit does to its slot, the delivery of a
complete slot, and the scan that moves the cursor. -/

namespace Sys2Proof.Machine

/-! ## Scan (R293) -/

theorem longestAt_eq {recs : List FragRec} {c m : Nat} (hm : 0 < m) (hmem : ⟨c, m⟩ ∈ recs)
    (hmax : ∀ r ∈ recs, r.off = c → r.len ≤ m) : longestAt recs c = m := by
  have hge : m ≤ longestAt recs c := longestAt_ge recs c _ hmem rfl
  exact Nat.le_antisymm (hmax _ (longestAt_mem recs c (by omega)) rfl) hge

/-- A scan follows the longest record that starts at the cursor. -/
theorem scan_of_longestAt_ne_zero {recs : List FragRec} {c : Nat} (h : longestAt recs c ≠ 0) :
    scan recs c = scan recs (c + longestAt recs c) := by
  have hlen := recsFrom_length_le recs c
  have hshrink := recsFrom_shrinks recs c h
  have hfuel : scan recs c = scanFuel recs (recs.length + 1) c := scanFuel_enough recs _ _ c hlen (by omega)
  rw [hfuel, scanFuel, if_neg h, scan]

/-- Settles O48: a scan stays at a stopped cursor, and its fuel is enough to follow one record more. -/
theorem scanFollowsLongestRecord : Obligations.ScanFollowsLongestRecord := by
  refine fun recs c => ⟨scan_eq_self, fun m hm hmem hmax => ?_, scan_ge recs c⟩
  have hlongest := longestAt_eq hm hmem hmax
  rw [scan_of_longestAt_ne_zero (by omega), hlongest]

/-! ## The drops (R290, R342) -/

theorem exec_ipreasm_drop {s : State} {c : Status} (h : reasmDrop s.ops.d s = some c) :
    exec .ipreasm s = .next (s.respond { status := c }) := by
  simp only [exec, execIpreasm, reasmBody, h]

/-- The gates of the drop test with the constants of R6 as numbers. -/
theorem reasmDrop_eq (d : Bytes) (s : State) : reasmDrop d s =
    if d.length < 60 then some .ipShort
    else if ipTotalLen d < 60 ∨ d.length < ipTotalLen d then some .ipBadTotlen
    else if 65536 < ipOffset d + (ipTotalLen d - 60) then some .reasmOverflow
    else if (slotFind s (ipId d)).isNone ∧ atCapacity s.params.reasmSlots s.reasm.length then some .reasmNoSlot
    else none := rfl

/-- Settles O43: each gate of the drop test is one clause, the gates before it passed. -/
theorem ipreasmDropsUnchanged : Obligations.IpreasmDropsUnchanged := by
  rintro s _ _ _ rfl rfl rfl
  rw [← ipOffset_eq, ← ipTotalLen, ← ipId]
  refine ⟨fun hshort => ?_, fun hlong htl => ?_, fun hlo hhi hover => ?_, fun hlo hhi hin hslot hfull => ?_⟩
  · exact exec_ipreasm_drop (by rw [reasmDrop_eq, if_pos hshort])
  · exact exec_ipreasm_drop (by rw [reasmDrop_eq, if_neg (by omega), if_pos htl])
  · exact exec_ipreasm_drop (by rw [reasmDrop_eq, if_neg (by omega), if_neg (by omega), if_pos hover])
  · have hnone : (slotFind s (ipId s.ops.d)).isNone = true ∧ atCapacity s.params.reasmSlots s.reasm.length = true :=
      ⟨Option.isNone_iff_eq_none.2 hslot, atCapacity_of_eq_some hfull⟩
    exact exec_ipreasm_drop (by rw [reasmDrop_eq, if_neg (by omega), if_neg (by omega), if_neg (by omega), if_pos hnone])

/-! ## An accepted unit (R290 steps 1 to 6) -/

/-- The slot a unit is inserted into, the one in place or a new one where there is room, and that there is one. -/
theorem slot_of_found_or_room {s : State} {id : Half} {old : Slot} (h : slotFind s id = some old ∨
    (slotFind s id = none ∧ old = Slot.fresh ∧ ∀ c, s.params.reasmSlots = some c → s.reasm.length < c)) :
    (slotFind s id).getD Slot.fresh = old ∧ (slotFind s id ≠ none ∨ atCapacity s.params.reasmSlots s.reasm.length = false) := by
  rcases h with hslot | ⟨hslot, rfl, hroom⟩
  · simp [hslot]
  · simp [hslot, atCapacity_eq_false_iff.2 hroom]

/-- A unit inside the buffer, with a slot or room for one, is not dropped. -/
theorem reasmDrop_eq_none_of_room {d : Bytes} {s : State} (hlo : 60 ≤ ipTotalLen d) (hhi : ipTotalLen d ≤ d.length)
    (hin : ipOffset d + (ipTotalLen d - 60) ≤ 65536)
    (hslot : slotFind s (ipId d) ≠ none ∨ atCapacity s.params.reasmSlots s.reasm.length = false) : reasmDrop d s = none := by
  rw [reasmDrop_eq, if_neg (by omega), if_neg (by omega), if_neg (by omega), if_neg (by simpa [imp_iff_not_or] using hslot)]

/-- The slot of a unit's ID with the unit inserted (R290 steps 1 to 5). -/
def unitSlot (d : Bytes) (s : State) : Slot :=
  slotInsert ((slotFind s (ipId d)).getD Slot.fresh) (ipOffset d) (slice d Config.ipHdrLen (ipTotalLen d)) (ipDf d || !ipMf d)

/-- The slot of an accepted unit, its fields as read off the unit. -/
theorem unitSlot_eq {d : Bytes} {s : State} {old : Slot} (hold : (slotFind s (rd16 d 4)).getD Slot.fresh = old) :
    unitSlot d s = slotInsert old (ipOffset d) (slice d 60 (rd16 d 2).toNat) ((rd16 d 6).getLsbD 14 || !(rd16 d 6).getLsbD 13) := by
  rw [← hold]
  rfl

theorem exec_ipreasm_kept {s : State} {sl : Slot} (hd : reasmDrop s.ops.d s = none) (hsl : unitSlot s.ops.d s = sl)
    (hi : sl.expected ≠ some sl.cursor) :
    exec .ipreasm s = .next ((s.slotPut (ipId s.ops.d) sl).respond { status := .ok, value := 0 }) := by
  rw [exec, execIpreasm, reasmBody_of_kept hd hsl hi]

theorem exec_ipreasm_delivered {s : State} {sl : Slot} {b : Bytes} (hd : reasmDrop s.ops.d s = none) (hsl : unitSlot s.ops.d s = sl)
    (hc : sl.expected = some sl.cursor) (hb : sl.buf.readRange 0 sl.cursor = some b) :
    exec .ipreasm s = .next ((s.slotDel (ipId s.ops.d)).respond { status := .ok, value := 1, bytes := b }) := by
  rw [unitSlot] at hsl
  simp only [exec, execIpreasm, reasmBody, hd, hsl, slotFinish, hc, if_true, hb]

theorem mem_slotInsert_recs_iff {sl : Slot} {o : Nat} {p : Bytes} {last : Bool} {r : FragRec} :
    r ∈ (slotInsert sl o p last).recs ↔ r = ⟨o, p.length⟩ ∨ r ∈ sl.recs := by
  refine ⟨mem_slotInsert_recs, ?_⟩
  rintro (rfl | hr)
  · exact self_mem_insertSorted _ _ _
  · exact recs_subset_slotInsert sl o p last r hr

/-- The cells after an insertion: those of the payload hold its bytes, every other what it held (R82, R290 step 2). -/
theorem read_slotInsert (sl : Slot) (o : Nat) (p : Bytes) (last : Bool) (a : Nat) :
    (slotInsert sl o p last).buf.read a = if o ≤ a ∧ a < o + p.length then p[a - o]? else sl.buf.read a := by
  split
  · rename_i h
    have hread := Memory.read_write_inside sl.buf o (a - o) p (by omega)
    rwa [Nat.add_sub_cancel' h.1] at hread
  · exact Memory.read_write_outside sl.buf o a p (by omega)

/-- Settles O44: the rules of the insertion, and the slot put back under its ID. -/
theorem ipreasmStoresFragment : Obligations.IpreasmStoresFragment := by
  rintro s _ _ _ old _ _ rfl rfl rfl hlo hhi hin rfl hslot rfl
  obtain ⟨hold, hroom⟩ := slot_of_found_or_room hslot
  have hplen : (slice s.ops.d 60 (rd16 s.ops.d 2).toNat).length = (rd16 s.ops.d 2).toNat - 60 := ipPayload_length hhi
  refine ⟨fun a => ?_, fun x => ?_, rfl, ?_, fun hi => ?_⟩
  · rw [read_slotInsert, hplen]
    split
    · exact getElem?_ipPayload hhi (by rw [ipTotalLen, Config.ipHdrLen]; omega)
    · rfl
  · rw [mem_slotInsert_recs_iff, hplen]
  · rw [slotInsert, hplen]
  · rw [← ipOffset_eq] at hin hi ⊢
    have hd := reasmDrop_eq_none_of_room hlo hhi hin hroom
    exact ⟨_, exec_ipreasm_kept hd (unitSlot_eq hold) hi, rfl, fun id => slotFind_slotPut s _ id _⟩

/-- Settles O45: the cells below the cursor are written, so they can be read, and the slot is destroyed. -/
theorem ipreasmDeliversComplete : Obligations.IpreasmDeliversComplete := by
  rintro s _ _ old _ _ hinv rfl rfl hlo hhi hin rfl hslot rfl hc
  obtain ⟨hold, hroom⟩ := slot_of_found_or_room hslot
  have hsl : old.Inv := hold ▸ hinv.slot _
  rw [← ipOffset_eq] at hin hc ⊢
  have hp : ipOffset s.ops.d + (slice s.ops.d Config.ipHdrLen (ipTotalLen s.ops.d)).length ≤ Config.reasmBufLen := by
    rw [ipPayload_length hhi]
    exact hin
  obtain ⟨b, hb⟩ := Option.ne_none_iff_exists'.1 (readRange_slotInsert_ne_none hsl hp)
  obtain ⟨hlen, hbytes⟩ := (Memory.readRange_eq_some _ _ _ _ (slotInsert_buf_wf hsl hp).1).1 hb
  have hd := reasmDrop_eq_none_of_room hlo hhi hin hroom
  refine ⟨_, b, exec_ipreasm_delivered hd (unitSlot_eq hold) hc hb, hlen, fun i hi => ?_, rfl, fun id => slotFind_slotDel s _ id⟩
  rw [← hbytes i hi, Nat.zero_add]
  rfl

end Sys2Proof.Machine
end

section
/-! PROOFS. Reassembly in any order (R295): a slot that holds some of the datagrams of an operand, complete exactly when it holds all, and the
run of IPREASM commands that delivers them one by one. -/

namespace Sys2Proof.Machine

/-! ## A datagram as an IP unit (R290) -/

section Unit

variable (s : State) (proto : Byte) {d : Bytes} {i : Nat} (hi : i < sliceCount d.length)
include hi

theorem ipTotalLen_datagram : ipTotalLen (datagram s proto d i) = 60 + (slicePayload d i).length := datagram_totalLength s proto hi

theorem ipOffset_datagram (hlen : d.length ≤ 65536) : ipOffset (datagram s proto d i) = i * 1400 := by
  have hle := sliceCount_le hlen
  rw [ipOffset_eq, datagram_flags_toNat s proto hi hlen]
  split_ifs <;> omega

/-- A unit counts as the last of its operand where it is datagram `count - 1`, by DF where it is the only one, else by MF (R292). -/
theorem isLast_datagram (hlen : d.length ≤ 65536) :
    (ipDf (datagram s proto d i) || !ipMf (datagram s proto d i)) = decide (i + 1 = sliceCount d.length) := by
  have hoff : i * 175 < 8192 := by have := sliceCount_le hlen; omega
  rw [ipDf, ipMf, datagram_flags s proto hi, fragWord_df _ _ hoff, fragWord_mf _ _ hoff, Bool.eq_iff_iff]
  simp only [Bool.or_eq_true, Bool.not_eq_true', decide_eq_true_eq, decide_eq_false_iff_not]
  omega

end Unit

/-! ## A slot that holds some of the datagrams -/

/-- The record of datagram `i` of the operand `d`. -/
def sliceRec (d : Bytes) (i : Nat) : FragRec := ⟨i * 1400, (slicePayload d i).length⟩

/-- A slot after the insertion of datagram `i` of the operand `d`. -/
def Slot.insertSlice (sl : Slot) (d : Bytes) (i : Nat) : Slot :=
  slotInsert sl (i * 1400) (slicePayload d i) (decide (i + 1 = sliceCount d.length))

/-- The insertion IPREASM makes of a datagram (R290 steps 1 to 5). -/
theorem unitSlot_datagram (a s : State) (proto : Byte) {d : Bytes} {i : Nat} (hlen : d.length ≤ 65536) (hi : i < sliceCount d.length) :
    unitSlot (datagram a proto d i) s = ((slotFind s (txId a)).getD Slot.fresh).insertSlice d i := by
  have hid : ipId (datagram a proto d i) = txId a := datagram_id a proto hi
  rw [unitSlot, hid, ipOffset_datagram a proto hi hlen, ipTotalLen_datagram a proto hi, isLast_datagram a proto hi hlen, Config.ipHdrLen,
    datagram_payload a proto hi, Slot.insertSlice]

theorem slice_inside (d : Bytes) {i : Nat} (hi : i < sliceCount d.length) : i * 1400 + (slicePayload d i).length ≤ d.length := by
  rw [slicePayload_length]
  simp only [sliceCount, Config.maxSlice] at hi
  omega

/-- The last slice ends where the operand does. -/
theorem last_slice_end (d : Bytes) {i : Nat} (hi : i + 1 = sliceCount d.length) :
    i * 1400 + (slicePayload d i).length = d.length := by
  rw [slicePayload_length]
  simp only [sliceCount, Config.maxSlice] at hi
  omega

/-- The slot has the datagrams `done` of the operand `d`, in whatever order they came, and nothing else. -/
structure Slot.Collects (d : Bytes) (done : List Nat) (sl : Slot) : Prop where
  recs : ∀ r, r ∈ sl.recs ↔ ∃ i ∈ done, r = sliceRec d i
  bytes : ∀ a v, sl.buf.read a = some v → d[a]? = some v
  expected : sl.expected = if sliceCount d.length - 1 ∈ done then some d.length else none

theorem Slot.collects_fresh (d : Bytes) : Slot.fresh.Collects d [] where
  recs := by simp [Slot.fresh]
  bytes := by simp [Slot.fresh, Memory.read]
  expected := by simp [Slot.fresh]

namespace Slot.Collects

variable {d : Bytes} {done : List Nat} {sl : Slot}

theorem insertSlice (h : sl.Collects d done) {i : Nat} (hi : i < sliceCount d.length) : (sl.insertSlice d i).Collects d (i :: done) where
  recs r := by
    rw [Slot.insertSlice, mem_slotInsert_recs_iff, h.recs, List.exists_mem_cons_iff]
    rfl
  bytes a v hv := by
    rw [Slot.insertSlice, read_slotInsert] at hv
    split at hv
    · rename_i ha
      rw [slicePayload_eq_take, List.getElem?_take, List.getElem?_drop, Nat.add_sub_cancel' ha.1] at hv
      split at hv
      · exact hv
      · cases hv
    · exact h.bytes a v hv
  expected := by
    simp only [Slot.insertSlice, slotInsert, h.expected, decide_eq_true_eq, List.mem_cons]
    by_cases hlast : i + 1 = sliceCount d.length
    · have hmem : sliceCount d.length - 1 = i := by omega
      simp only [hlast, hmem, true_or, if_true, last_slice_end d hlast]
    · have hmem : sliceCount d.length - 1 ≠ i := by omega
      simp only [hlast, hmem, false_or, if_false]

/-- A chain of the records of the datagrams ends at a slice boundary, and the slices below it are all there. -/
theorem chain_end (h : sl.Collects d done) {c : Nat} (hc : Chain sl.recs c) :
    ∃ k, c = min (k * 1400) d.length ∧ ∀ i < k, i ∈ done := by
  induction hc with
  | start => exact ⟨0, by simp, by simp⟩
  | @next c L _ hr hL ih =>
    obtain ⟨k, hk, hall⟩ := ih
    obtain ⟨i, hi, hrec⟩ := (h.recs _).1 hr
    rw [sliceRec, slicePayload_length, FragRec.mk.injEq] at hrec
    obtain ⟨hoff, hlen⟩ := hrec
    obtain rfl : i = k := by omega
    refine ⟨i + 1, by omega, fun j hj => ?_⟩
    rcases Nat.lt_succ_iff_lt_or_eq.1 hj with hj | rfl
    · exact hall j hj
    · exact hi

/-- Once its cursor has stopped, a slot is complete exactly when it has every datagram (R50, R293, R295). -/
theorem complete_iff (h : sl.Collects d done) (hc : Chain sl.recs sl.cursor) (hstop : ∀ r ∈ sl.recs, r.off = sl.cursor → r.len = 0) :
    sl.expected = some sl.cursor ↔ ∀ i < sliceCount d.length, i ∈ done := by
  obtain ⟨k, hk, hall⟩ := h.chain_end hc
  have hcount : sliceCount d.length = d.length / 1400 + 1 := rfl
  rw [h.expected]
  constructor
  · intro hexp i hi
    split at hexp
    · rename_i hlast
      have hend : d.length = sl.cursor := Option.some.inj hexp
      by_cases hik : i < k
      · exact hall i hik
      · obtain rfl : i = sliceCount d.length - 1 := by omega
        exact hlast
    · cases hexp
  · intro hdone
    have hend : sl.cursor = d.length := by
      by_contra hne
      have hrec : sliceRec d k ∈ sl.recs := (h.recs _).2 ⟨k, hdone k (by omega), rfl⟩
      have hoff : k * 1400 = sl.cursor := by omega
      have hzero : (slicePayload d k).length = 0 := hstop _ hrec hoff
      rw [slicePayload_length] at hzero
      omega
    rw [if_pos (hdone _ (by omega)), hend]

/-- What a complete slot delivers is the operand. -/
theorem readRange_eq (h : sl.Collects d done) (hwf : sl.buf.wf) (hexp : sl.expected = some sl.cursor) {b : Bytes}
    (hb : sl.buf.readRange 0 sl.cursor = some b) : b = d := by
  have hend : d.length = sl.cursor := by
    rw [h.expected] at hexp
    split at hexp
    · exact Option.some.inj hexp
    · cases hexp
  obtain ⟨hlen, hread⟩ := (Memory.readRange_eq_some _ _ _ _ hwf.1).1 hb
  refine List.ext_getElem (hlen.trans hend.symm) fun i hi hid => ?_
  have hcell := hread i (hlen ▸ hi)
  rw [Nat.zero_add, List.getElem?_eq_getElem hi] at hcell
  exact (List.getElem_eq_iff hid).2 (h.bytes i _ hcell) |>.symm

end Slot.Collects

/-! ## The deliveries -/

/-- A unit submitted, accepted and not the last of its datagram: the answer is 0, and its slot is put. -/
theorem step_ipreasm_kept {s : State} {d : Bytes} {rest : List Event} {sl : Slot} (hd : reasmDrop d s = none) (hsl : unitSlot d s = sl)
    (hi : sl.expected ≠ some sl.cursor) (ha : s.agenda = submitOf .ipreasm { d := d } :: rest) :
    ∃ t, step s = .next t ∧ t.results = s.results ++ [{ status := .ok, value := 0 }] ∧ t.agenda = rest ∧
      t.reasm = (s.slotPut (ipId d) sl).reasm :=
  ⟨_, (step_submitOf rfl ha).trans (exec_ipreasm_kept hd hsl hi), rfl, rfl, rfl⟩

/-- A unit submitted that completes its datagram: the answer is 1 with the bytes below the cursor, and its slot is destroyed. -/
theorem step_ipreasm_delivered {s : State} {d b : Bytes} {rest : List Event} {sl : Slot} (hd : reasmDrop d s = none)
    (hsl : unitSlot d s = sl) (hc : sl.expected = some sl.cursor) (hb : sl.buf.readRange 0 sl.cursor = some b)
    (ha : s.agenda = submitOf .ipreasm { d := d } :: rest) :
    ∃ t, step s = .next t ∧ t.results = s.results ++ [{ status := .ok, value := 1, bytes := b }] ∧ t.agenda = rest ∧
      t.reasm = (s.slotDel (ipId d)).reasm :=
  ⟨_, (step_submitOf rfl ha).trans (exec_ipreasm_delivered hd hsl hc hb), rfl, rfl, rfl⟩

/-- Putting a slot and destroying it leaves the other slots as they stand. -/
theorem filter_insertSorted_key {w : Nat} {β : Type} (k : BitVec w) (v : β) (l : List (BitVec w × β)) :
    (insertSorted keyLt (k, v) l).filter (fun x => x.1 ≠ k) = l.filter (fun x => x.1 ≠ k) := by
  induction l with
  | nil => simp [insertSorted]
  | cons b l ih =>
    rw [insertSorted]
    split_ifs with hlt hgt
    · simp
    · rw [List.filter_cons, List.filter_cons, ih]
    · have hkey : b.1 = k := by
        simp only [keyLt_iff] at hlt hgt
        exact BitVec.eq_of_toNat_eq (by omega)
      simp [hkey]

/-- The state between two deliveries of the datagrams of `d` with ID `id`: those of `done` are in its slot, or there is room for a new one,
and the other slots are `others`. -/
structure Gathers (d : Bytes) (id : Half) (others : List (Half × Slot)) (done : List Nat) (s : State) : Prop where
  slotInv : ((slotFind s id).getD Slot.fresh).Inv
  collects : ((slotFind s id).getD Slot.fresh).Collects d done
  room : slotFind s id ≠ none ∨ atCapacity s.params.reasmSlots s.reasm.length = false
  reasm : (s.slotDel id).reasm = others

theorem Gathers.start {d : Bytes} {id : Half} {s : State} (hslot : slotFind s id = none)
    (hroom : ∀ c, s.params.reasmSlots = some c → s.reasm.length < c) : Gathers d id s.reasm [] s where
  slotInv := by rw [hslot]; exact Slot.inv_fresh
  collects := by rw [hslot]; exact Slot.collects_fresh d
  room := .inr (atCapacity_eq_false_iff.2 hroom)
  reasm := by
    refine List.filter_eq_self.2 fun x hx => ?_
    have hne := List.lookup_eq_none_iff.1 hslot x hx
    exact decide_eq_true fun hid => by simp [hid] at hne

theorem Gathers.slotPut {d : Bytes} {id : Half} {others : List (Half × Slot)} {done done' : List Nat} {s t : State} {sl : Slot}
    (h : Gathers d id others done s) (ht : t.reasm = (s.slotPut id sl).reasm) (hinv : sl.Inv) (hsl : sl.Collects d done') :
    Gathers d id others done' t := by
  have hfind : slotFind t id = some sl := by
    rw [slotFind, ht]
    exact (slotFind_slotPut s id id sl).trans (if_pos rfl)
  refine ⟨by rwa [hfind], by rwa [hfind], .inl (by simp [hfind]), ?_⟩
  rw [State.slotDel, ht]
  exact (filter_insertSorted_key id sl s.reasm).trans h.reasm

section Delivery

variable {d : Bytes} {others : List (Half × Slot)} {done : List Nat} {a s : State} {proto : Byte} {i : Nat} {rest : List Event}

/-- The slot a delivery leaves is complete exactly when it is the last. -/
theorem Gathers.complete_iff (h : Gathers d (txId a) others done s) (hi : i < sliceCount d.length) :
    (((slotFind s (txId a)).getD Slot.fresh).insertSlice d i).expected =
        some (((slotFind s (txId a)).getD Slot.fresh).insertSlice d i).cursor ↔
      ∀ k < sliceCount d.length, k ∈ i :: done :=
  (h.collects.insertSlice hi).complete_iff (slotInsert_cursorChain h.slotInv) fun r hr hc =>
    Nat.eq_zero_of_le_zero (scan_stopped _ _ ▸ longestAt_ge _ _ r hr hc)

theorem Gathers.not_dropped (h : Gathers d (txId a) others done s) (hlen : d.length ≤ 65536) (hi : i < sliceCount d.length) :
    reasmDrop (datagram a proto d i) s = none := by
  have hin := slice_inside d hi
  have htl := ipTotalLen_datagram a proto hi
  have hid : ipId (datagram a proto d i) = txId a := datagram_id a proto hi
  refine reasmDrop_eq_none_of_room (by omega) (by rw [htl, datagram_length a proto hi]) ?_ (hid ▸ h.room)
  rw [htl, ipOffset_datagram a proto hi hlen]
  omega

/-- A delivery that is not the last answers 0, and its datagram joins those in the slot (R290, R295). -/
theorem Gathers.deliver (h : Gathers d (txId a) others done s) (hlen : d.length ≤ 65536) (hi : i < sliceCount d.length)
    (hmore : ¬ ∀ k < sliceCount d.length, k ∈ i :: done)
    (ha : s.agenda = submitOf .ipreasm { d := datagram a proto d i } :: rest) :
    ∃ t, step s = .next t ∧ t.results = s.results ++ [{ status := .ok, value := 0 }] ∧ t.agenda = rest ∧
      Gathers d (txId a) others (i :: done) t := by
  have hid : ipId (datagram a proto d i) = txId a := datagram_id a proto hi
  have hopen := mt (h.complete_iff hi).1 hmore
  have hin : i * 1400 + (slicePayload d i).length ≤ Config.reasmBufLen := (slice_inside d hi).trans hlen
  obtain ⟨t, hstep, hres, hag, hreasm⟩ := step_ipreasm_kept (h.not_dropped hlen hi) (unitSlot_datagram a s proto hlen hi) hopen ha
  exact ⟨t, hstep, hres, hag, h.slotPut (hid ▸ hreasm) (slotInsert_inv h.slotInv hin hopen) (h.collects.insertSlice hi)⟩

/-- The last delivery answers 1 with the operand, and the other slots are left (R290 step 6, R295). -/
theorem Gathers.deliver_last (h : Gathers d (txId a) others done s) (hlen : d.length ≤ 65536) (hi : i < sliceCount d.length)
    (hall : ∀ k < sliceCount d.length, k ∈ i :: done)
    (ha : s.agenda = submitOf .ipreasm { d := datagram a proto d i } :: rest) :
    ∃ t, step s = .next t ∧ t.results = s.results ++ [{ status := .ok, value := 1, bytes := d }] ∧ t.agenda = rest ∧
      t.reasm = others := by
  have hid : ipId (datagram a proto d i) = txId a := datagram_id a proto hi
  have hcomplete := (h.complete_iff hi).2 hall
  have hin : i * 1400 + (slicePayload d i).length ≤ Config.reasmBufLen := (slice_inside d hi).trans hlen
  obtain ⟨b, hb⟩ := Option.ne_none_iff_exists'.1
    (readRange_slotInsert_ne_none (last := decide (i + 1 = sliceCount d.length)) h.slotInv hin)
  obtain rfl : b = d := (h.collects.insertSlice hi).readRange_eq (slotInsert_buf_wf h.slotInv hin) hcomplete hb
  obtain ⟨t, hstep, hres, hag, hreasm⟩ :=
    step_ipreasm_delivered (h.not_dropped hlen hi) (unitSlot_datagram a s proto hlen hi) hcomplete hb ha
  exact ⟨t, hstep, hres, hag, hreasm.trans (hid ▸ h.reasm)⟩

end Delivery

/-- The run of the deliveries still to come, one of them at least. -/
theorem run_deliveries {d : Bytes} (hlen : d.length ≤ 65536) {a : State} {proto : Byte} {others : List (Half × Slot)} {rest : List Event}
    {js : List Nat} {i : Nat} {done : List Nat} {s : State} (hg : Gathers d (txId a) others done s)
    (hperm : (done ++ i :: js).Perm (List.range (sliceCount d.length)))
    (ha : s.agenda = (i :: js).map (fun j => submitOf .ipreasm { d := datagram a proto d j }) ++ rest) :
    ∃ t, Host.Core.run core (js.length + 1) s = .next t ∧
      t.results = s.results ++ List.replicate js.length { status := .ok, value := 0 } ++ [{ status := .ok, value := 1, bytes := d }] ∧
      t.reasm = others ∧ t.agenda = rest := by
  have hmem (k : Nat) : k < sliceCount d.length ↔ k ∈ done ++ i :: js := by rw [hperm.mem_iff, List.mem_range]
  have hi : i < sliceCount d.length := (hmem i).2 (by simp)
  induction js generalizing i done s with
  | nil =>
    obtain ⟨t, hstep, hres, hag, hreasm⟩ := hg.deliver_last hlen hi (fun k hk => by simpa [or_comm] using (hmem k).1 hk) ha
    exact ⟨t, run_succ_of_step (M := core) hstep 0, by simp [hres], hreasm, hag⟩
  | cons j js ih =>
    have hperm' : (i :: done ++ j :: js).Perm (List.range (sliceCount d.length)) := List.perm_middle.symm.trans hperm
    have hj : j < sliceCount d.length := (hmem j).2 (by simp)
    have hnew : j ∉ i :: done := by
      have hnodup := hperm'.nodup_iff.2 List.nodup_range
      exact fun hjd => List.disjoint_of_nodup_append hnodup hjd List.mem_cons_self
    obtain ⟨m, hstep, hres, hag, hm⟩ := hg.deliver hlen hi (fun hall => hnew (hall j hj)) ha
    obtain ⟨t, hrun, htres, hreasm, htag⟩ := ih hm hperm' hag (fun k => by rw [hperm'.mem_iff, List.mem_range]) hj
    exact ⟨t, (run_succ_of_step (M := core) hstep _).trans hrun, by simp [htres, hres, List.replicate_succ], hreasm, htag⟩

/-- Settles O47: the datagrams in any order are those of a permutation of their numbers, none of which is in a slot at first. -/
theorem reassemblyAnyOrder : Obligations.ReassemblyAnyOrder := by
  intro a b l ds hl hperm hslot hroom
  obtain ⟨hlen, rfl⟩ := exec_ipfrag_eq_list hl
  obtain ⟨is, rfl, his⟩ := (congrFun₂ (List.eq_map_comp_perm _) _ _).mpr hperm
  cases is with
  | nil => exact absurd his.length_eq (by simp [sliceCount])
  | cons i js =>
    obtain ⟨t, hrun, hres, hreasm, hag⟩ := run_deliveries hlen
      (s := { b with agenda := ((i :: js).map (datagram a a.ops.proto a.ops.d)).map (fun d => submitOf .ipreasm { d := d }) ++ b.agenda })
      (done := []) (Gathers.start hslot hroom) his (by rw [List.map_map]; rfl)
    exact ⟨t, by simpa using hrun, by simpa using hres, hreasm, hag⟩

end Sys2Proof.Machine
end

section
/-! PROOFS. The units (45_units.md): when a turn is a step of its unit (R310, R319), and the step of each of the six units on the input it
consumes (R311 to R317). -/

namespace Sys2Proof.Machine

open Sys2Proof.Config (Draws)

/-! ## Turns (R310) -/

/-- A turn of a unit with an enabled step is that step, with the draws of the turn. -/
theorem step_turn {s : State} {u : Agent} {draw : Draws} {rest : List Event} (ha : s.agenda = .turn u draw :: rest) (hp : s.phase = .run)
    (hh : s.halted.get u = false) (hi : ¬ NoInput u s) : step s = unitStep u { s with agenda := rest, draw := draw } := by
  have hu : unitEnabled u { s with agenda := rest } = true := (unitEnabled_iff u s).2 ⟨hp, hh, hi⟩
  rw [step_of_agenda s _ rest ha, perform, runTurn, if_pos hu]

/-- A turn of a unit without an enabled step only leaves the agenda (log 1). -/
theorem step_turn_of_not_enabled {s : State} {u : Agent} {draw : Draws} {rest : List Event} (ha : s.agenda = .turn u draw :: rest)
    (hu : ¬ unitEnabled u s = true) : step s = .next { s with agenda := rest } := by
  have hu' : ¬ unitEnabled u { s with agenda := rest } = true := hu
  rw [step_of_agenda s _ rest ha, perform, runTurn, if_neg hu']

/-- A block with an empty agenda and no enabled unit waits (R319, R361). -/
theorem step_waits {s : State} (ha : s.agenda = []) (hw : enabledUnits s = []) : step s = .next s := by
  rw [step_of_nil s ha, autonomousStep, hw]

/-- Settles O55: an enabled unit is one in RUN phase, not halted, with input, and an autonomous step is that of an enabled unit. -/
theorem onlyEnabledUnitsStep : Obligations.OnlyEnabledUnitsStep := by
  refine ⟨fun s u draw rest ha hoff => ?_, fun s ha hoff => step_waits ha ((enabledUnits_eq_nil_iff s).2 hoff), fun s ha hp hwork => ?_⟩
  · refine step_turn_of_not_enabled ha fun hu => ?_
    obtain ⟨hrun, hup, hinput⟩ := (unitEnabled_iff u s).1 hu
    rcases hoff with hc | hh | hi
    · simp [hc] at hrun
    · simp [hh] at hup
    · exact hinput hi
  · rcases autonomousStep_cases s with ⟨hnone, _⟩ | ⟨u, hu, hown⟩
    · rcases (enabledUnits_eq_nil_iff s).1 hnone with hc | hidle
      · simp [hc] at hp
      · exact absurd hidle hwork
    · obtain ⟨_, hup, _⟩ := (unitEnabled_iff u s).1 hu
      exact ⟨u, hu, hup, (step_of_nil s ha).trans hown⟩

/-! ## LS (R311) -/

/-- LS serves Q0 where Q1 is empty or the draw leaves it. -/
theorem linkSendPop_of_q0 {s : State} {e : LinkElem} {r : List LinkElem} (hq : s.queues.q0 = e :: r)
    (hserve : s.queues.q1 = [] ∨ s.draw.serveArp = false) : linkSendPop s = some (e, { s with queues := { s.queues with q0 := r } }) := by
  cases h1 : s.queues.q1 with
  | nil => simp only [linkSendPop, hq, h1]
  | cons f r' =>
    have hdraw : s.draw.serveArp = false := hserve.resolve_left (by simp [h1])
    simp only [linkSendPop, hq, h1, hdraw, Bool.false_eq_true, if_false]

/-- LS serves Q1 where Q0 is empty or the draw takes it. -/
theorem linkSendPop_of_q1 {s : State} {e : LinkElem} {r : List LinkElem} (hq : s.queues.q1 = e :: r)
    (hserve : s.queues.q0 = [] ∨ s.draw.serveArp = true) : linkSendPop s = some (e, { s with queues := { s.queues with q1 := r } }) := by
  cases h0 : s.queues.q0 with
  | nil => simp only [linkSendPop, hq, h0]
  | cons f r' =>
    have hdraw : s.draw.serveArp = true := hserve.resolve_left (by simp [h0])
    simp only [linkSendPop, hq, h0, hdraw, if_true]

theorem stepLinkSend_of_pop {s t : State} {e : LinkElem} (h : linkSendPop s = some (e, t)) :
    stepLinkSend s = if s.draw.txError then t.haltUnit .linkSend
      else { t with wire := t.wire ++ [encodeFrame t e.dst e.ethertype e.payload] } := by
  simp only [stepLinkSend, h]

/-- Settles O49: whichever queue LS serves, it sends the element popped, or halts by the draw. -/
theorem linkSendStep : Obligations.LinkSendStep := by
  intro s draw rest e r qs ha hp hh hq
  have hinput : ¬ NoInput .linkSend s := by
    rintro ⟨h0, h1⟩
    rcases hq with ⟨hq, _⟩ | ⟨hq, _⟩
    · simp [h0] at hq
    · simp [h1] at hq
  have hpop : linkSendPop { s with agenda := rest, draw := draw } = some (e, { s with agenda := rest, draw := draw, queues := qs }) := by
    rcases hq with ⟨hq, rfl, hserve⟩ | ⟨hq, rfl, hserve⟩
    · exact linkSendPop_of_q0 (s := { s with agenda := rest, draw := draw }) hq hserve
    · exact linkSendPop_of_q1 (s := { s with agenda := rest, draw := draw }) hq hserve
  rw [step_turn ha hp hh hinput, unitStep, stepLinkSend_of_pop hpop]
  rfl

/-! ## LR (R312, R351) -/

theorem step_linkRecv {s : State} {draw : Draws} {rest : List Event} {c : Capture} {more : List Capture}
    (ha : s.agenda = .turn .linkRecv draw :: rest) (hp : s.phase = .run) (hh : s.halted.linkRecv = false) (ho : s.offered = c :: more) :
    step s = .next (linkReceive c { s with agenda := rest, draw := draw, offered := more }) := by
  rw [step_turn ha hp hh (by simp [NoInput, ho]), unitStep, stepLinkRecv, ho]

theorem linkReceive_frame {d : Bytes} {wl : BitVec 32} {s : State} {r : Result} (hr : decodeFrame s d wl = r) :
    linkReceive (.frame d wl) s =
      if r.status ≠ .ok then s.logEvent .linkRecv r.status
      else s.handOff .linkRecv (if r.et = Config.ethertypeIpv4 then .q3 else .q4) { d := r.bytes } := by
  rw [linkReceive, hr]

/-- Settles O50: LR decodes as FDEC does, and EtherType alone chooses between Q3 and Q4. -/
theorem linkRecvStep : Obligations.LinkRecvStep := by
  refine ⟨fun s c rest ha => step_of_agenda s _ rest ha, fun s t draw rest c more ha hp hh ho ht => ?_⟩
  have hstep : step s = .next (linkReceive c t) := ht ▸ step_linkRecv ha hp hh ho
  refine ⟨?_, ?_⟩
  · rintro rfl
    rw [hstep, ht]
    rfl
  · rintro d wl r rfl hfdec
    have hr : decodeFrame t d wl = r := ht ▸ respond_injective (s := s) (Host.Outcome.next.inj hfdec)
    rw [hstep, linkReceive_frame hr]
    refine ⟨fun hdrop => ?_, fun hok het => ?_, fun hok het => ?_⟩
    · rw [if_pos hdrop, ht]
      rfl
    · have hip : r.et = Config.ethertypeIpv4 := het
      rw [if_neg (not_not_intro hok), if_pos hip]
    · have harp : r.et ≠ Config.ethertypeIpv4 := by rw [het]; decide
      rw [if_neg (not_not_intro hok), if_neg harp]

/-! ## IS (R313, R314) -/

theorem ipSendTake_cons {s : State} {e : IpSendElem} {r : List IpSendElem} (hq : s.queues.q2 = e :: r) :
    ipSendTake s =
      if 65536 < e.payload.length then State.logEvent { s with queues := { s.queues with q2 := r } } .ipSend .ipTooLong
      else { s with queues := { s.queues with q2 := r }, isWork := (fragment s e.proto e.payload).list } := by
  simp only [ipSendTake, hq]
  by_cases hlong : 65536 < e.payload.length
  · simp [fragment, Config.reasmBufLen, hlong]
  · simp only [fragment, Config.reasmBufLen, hlong, if_false, ne_eq, not_true_eq_false]
    rfl

theorem ipSendResolve_hit {s : State} {e : CacheEntry} (h : cacheFind s (destIp s) = some e) (dg : Bytes) (rest : List Bytes) :
    ipSendResolve dg rest s =
      { s.handOff .ipSend .q0 { mac := e.mac, et := Config.ethertypeIpv4, d := dg } with isWork := rest } := by
  simp only [ipSendResolve, arpfindBody, h, if_true]

theorem ipSendResolve_miss {s : State} (h : cacheFind s (destIp s) = none) (dg : Bytes) (rest : List Bytes) :
    ipSendResolve dg rest s = arpMiss (destIp s) s := by
  simp only [ipSendResolve, arpfindBody, h, reduceCtorEq, if_false]

theorem arpMiss_isWork (ip : IpAddr) (s : State) : (arpMiss ip s).isWork = s.isWork := by
  rw [arpMiss]
  split <;> rfl

/-- A miss does not read the operand record on the port, and the answer clears it. -/
theorem respond_arpMiss_ops (ip : IpAddr) (s : State) (o : Operands) (r : Result) :
    (arpMiss ip { s with ops := o }).respond r = (arpMiss ip s).respond r := by
  have hcond : (missEnqueues ip { s with ops := o } && admitted .q5 { ip := ip } { s with ops := o }) =
      (missEnqueues ip s && admitted .q5 { ip := ip } s) := rfl
  rw [arpMiss, arpMiss, hcond]
  split <;> rfl

theorem stepIpSend_of_nil {s : State} (hw : s.isWork = []) : stepIpSend s = ipSendTake s := by rw [stepIpSend, hw]

theorem stepIpSend_of_cons {s : State} {dg : Bytes} {rest : List Bytes} (hw : s.isWork = dg :: rest) :
    stepIpSend s = ipSendResolve dg rest s := by rw [stepIpSend, hw]

/-- Settles O51: IS takes a payload, or what ARPFIND finds for DEST_IP decides what becomes of the datagram in hand. -/
theorem ipSendStep : Obligations.IpSendStep := by
  rintro s t draw rest ha hp hh ht
  have hstep (hi : ¬ NoInput .ipSend s) : step s = .next (stepIpSend t) := ht ▸ step_turn ha hp hh hi
  refine ⟨fun e r hw hq => ?_, fun dg more e hw hhit => ?_, fun dg more hw hmiss => ?_⟩
  · have hwt : t.isWork = [] := ht ▸ hw
    have hqt : t.queues.q2 = e :: r := ht ▸ hq
    rw [hstep (by simp [NoInput, hq]), stepIpSend_of_nil hwt, ipSendTake_cons hqt, ht]
    rfl
  · have hwt : t.isWork = dg :: more := ht ▸ hw
    have hhit' : cacheFind t (destIp t) = some e := ht ▸ hhit
    rw [hstep (by simp [NoInput, hw]), stepIpSend_of_cons hwt, ipSendResolve_hit hhit']
    rfl
  · have hwt : t.isWork = dg :: more := ht ▸ hw
    have hmiss' : cacheFind t s.csrs.dip = none := ht ▸ hmiss
    have hdip : destIp t = s.csrs.dip := ht ▸ rfl
    refine ⟨arpMiss s.csrs.dip t, ?_, by rw [arpMiss_isWork, hwt, hw], ?_⟩
    · rw [hstep (by simp [NoInput, hw]), stepIpSend_of_cons hwt, ipSendResolve_miss (hdip ▸ hmiss'), hdip]
    · exact (exec_arpfind_miss hmiss').trans (congrArg _ (respond_arpMiss_ops _ _ _ _))

/-! ## IR (R315) -/

/-- IPREASM on a state that holds the operand on the port does what IPREASM-body does without it. -/
theorem exec_ipreasm_of_reasmBody {d : Bytes} {s t : State} {r : Result} (h : reasmBody d s = .next (r, t)) :
    exec .ipreasm { s with ops := { d := d } } = .next (t.respond r) := by
  rcases reasmBody_cases d s with ⟨c, hd, hb⟩ | ⟨hd, sl, hsl, ⟨hopen, hb⟩ | ⟨hdone, b, hread, hb⟩ | ⟨_, _, hb⟩⟩ <;>
    rw [hb] at h <;> cases h
  · exact exec_ipreasm_drop hd
  · exact exec_ipreasm_kept hd hsl.symm hopen
  · exact exec_ipreasm_delivered hd hsl.symm hdone hread

theorem stepIpRecv_cons {s u : State} {d : Bytes} {r : List Bytes} {res : Result} (hq : s.queues.q3 = d :: r)
    (hbody : reasmBody d { s with queues := { s.queues with q3 := r } } = .next (res, u)) :
    stepIpRecv s = .next (ipReceiveDeliver res u) := by
  simp only [stepIpRecv, hq, hbody]

/-- Settles O52: IR runs IPREASM-body on the element popped and passes its result on. -/
theorem ipRecvStep : Obligations.IpRecvStep := by
  rintro s _ draw rest d r u res ha hp hh hq rfl hbody
  refine ⟨exec_ipreasm_of_reasmBody hbody, ?_⟩
  rw [step_turn ha hp hh (by simp [NoInput, hq]), unitStep, stepIpRecv_cons (s := { s with agenda := rest, draw := draw }) hq hbody]
  rfl

/-! ## AS and AR (R316, R317) -/

theorem stepArpSend_cons {s : State} {ip : IpAddr} {r : List IpAddr} (hq : s.queues.q5 = ip :: r) :
    stepArpSend s = State.handOff { s with queues := { s.queues with q5 := r } } .arpSend .q1
      { mac := (arpRequest s ip).mac, et := Config.ethertypeArp, d := (arpRequest s ip).bytes } := by
  rw [stepArpSend, hq]
  rfl

theorem arpLearn_ops (a : Bytes) (s : State) (o : Operands) :
    arpLearn a { s with ops := o } = ((arpLearn a s).1, { (arpLearn a s).2 with ops := o }) := by
  have hfull : ((cacheFind { s with ops := o } (arpSip a)).isNone && atCapacity s.params.arpCap s.cache.length) =
      ((cacheFind s (arpSip a)).isNone && atCapacity s.params.arpCap s.cache.length) := rfl
  rw [arpLearn, arpLearn, hfull]
  split_ifs <;> rfl

/-- ARPRX-body does not read the operand record on the port. -/
theorem arprxBody_ops (d : Bytes) (s : State) (o : Operands) :
    arprxBody d { s with ops := o } = ((arprxBody d s).1, { (arprxBody d s).2 with ops := o }) := by
  have hrole : isPeer { s with ops := o } = isPeer s := rfl
  simp only [arprxBody, hrole, arpLearn_ops]
  split_ifs <;> rfl

theorem stepArpRecv_cons {s u : State} {a : Bytes} {r : List Bytes} {res : Result} (hq : s.queues.q4 = a :: r)
    (hbody : arprxBody a { s with queues := { s.queues with q4 := r } } = (res, u)) :
    stepArpRecv s = if res.status ≠ .ok then u.logEvent .arpRecv res.status
      else if res.bytes ≠ [] then u.handOff .arpRecv .q1 { mac := res.mac, et := Config.ethertypeArp, d := res.bytes }
      else u := by
  simp only [stepArpRecv, hq, hbody]

/-- Settles O53: AS hands off the request of ARPREQ, AR passes on the result of ARPRX-body. -/
theorem arpUnitSteps : Obligations.ArpUnitSteps := by
  constructor
  · intro s t draw rest ip r req ha hp hh hq ht hreq
    obtain rfl : arpRequest t ip = req := respond_injective (s := t) (Host.Outcome.next.inj hreq)
    rw [step_turn ha hp hh (by simp [NoInput, hq]), unitStep, stepArpSend_cons (s := { s with agenda := rest, draw := draw }) hq, ht]
    rfl
  · rintro s _ u draw rest a r res ha hp hh hq rfl hbody
    refine ⟨?_, ?_⟩
    · rw [exec, execArprx, arprxBody_ops, hbody]
    · rw [step_turn ha hp hh (by simp [NoInput, hq]), unitStep, stepArpRecv_cons (s := { s with agenda := rest, draw := draw }) hq hbody]
      rfl

end Sys2Proof.Machine
end

section
/-! PROOFS. The system commands (R355 to R357): CSRR and CSRW by the CSR the field numbers, and START. -/

namespace Sys2Proof.Machine

/-! ## CSRs without reserved bits (R33) -/

theorem csrRead_of_wmask_allOnes {id : CsrId} (h : id.wmask = BitVec.allOnes 32) (s : State) : csrRead id s = csrRaw id s := by
  rw [csrRead, h, BitVec.and_allOnes]

theorem csrWrite_of_wmask_allOnes {id : CsrId} (h : id.wmask = BitVec.allOnes 32) (s : State) (v : Word) :
    s.csrWrite id v = { s with csrs := s.csrs.set id v } := by
  rw [State.csrWrite, h, BitVec.and_allOnes]

/-- Settles O8: the field numbers a CSR, and the read masks LMAC_HI, BMAC_HI and MODE alone. -/
theorem csrrReturnsMaskedRegister : Obligations.CsrrReturnsMaskedRegister := by
  intro s n hn
  obtain ⟨id, rfl⟩ := exists_field_eq hn
  rw [exec_csrr_field]
  cases id with
  | lmacHi | bmacHi | mode => rfl
  | lmacLo | lip | gwip | netmask | bmacLo | dip | txcfg | status => rw [csrRead_of_wmask_allOnes rfl]; rfl

/-- Settles O10: in CONFIG phase each write is that of the CSR its field numbers, and masks LMAC_HI, BMAC_HI and MODE alone. -/
theorem csrwWritesUnderMask : Obligations.CsrwWritesUnderMask := by
  intro s hp
  have masked (id : CsrId) (hid : id ≠ .status) :
      exec (.csrw id.field) s = .next ((s.csrWrite id s.ops.val).respond { status := .ok }) := exec_csrw_field_config hid hp
  have whole (id : CsrId) (hid : id ≠ .status) (hmask : id.wmask = BitVec.allOnes 32) :
      exec (.csrw id.field) s = .next (({ s with csrs := s.csrs.set id s.ops.val } : State).respond { status := .ok }) := by
    rw [masked id hid, csrWrite_of_wmask_allOnes hmask]
  exact ⟨masked .lmacHi nofun, whole .lmacLo nofun rfl, whole .lip nofun rfl, whole .gwip nofun rfl, whole .netmask nofun rfl,
    masked .bmacHi nofun, whole .bmacLo nofun rfl, whole .dip nofun rfl, whole .txcfg nofun rfl, masked .mode nofun⟩

/-! ## START (R357) -/

/-- Settles O13: START has one branch, and it is the equation stated. -/
theorem startEntersRun : Obligations.StartEntersRun := fun _ => rfl

end Sys2Proof.Machine
end

section
/-! PROOFS. The halt bits (R54, R347) through every transition, from what a command and a unit step can do. -/

namespace Sys2Proof.Machine

open Sys2Proof.Config (Draws)

/-- Setting a halt bit leaves the others as they are. -/
@[simp] theorem Halts.get_set (h : Halts) (u v : Agent) : (h.set u).get v = (decide (v = u) || h.get v) := by
  cases u <;> cases v <;> rfl

/-- No command body writes a halt bit, START's included (R347). -/
theorem CommandEffect.halted_eq {s m : State} {i : Instr} (h : CommandEffect s i m) : m.halted = s.halted := by cases h <;> rfl

/-- A run of any unit keeps the halts that stand: the one write of a halt bit sets it. -/
theorem UnitRun.halted_get {u v : Agent} {s t : State} {l : List LogEvent} (h : UnitRun u s l t) (hv : s.halted.get v = true) :
    t.halted.get v = true := by
  induction h with
  | done => exact hv
  | body _ _ he ih => rw [he.halted_eq, ih]
  | halt _ _ ih => simp [ih]
  | drop _ _ ih | ports _ _ _ ih | work _ _ ih => exact ih

theorem Transition.halted_get {s t : State} (h : Transition s t) (hreset : ∀ rest, s.agenda ≠ .reset :: rest) {v : Agent}
    (hv : s.halted.get v = true) : t.halted.get v = true := by
  cases h with
  | command _ _ hc =>
    obtain ⟨m, r, he, rfl⟩ := hc
    rw [State.respond_halted, he.halted_eq, hv]
  | turn _ _ hr => exact hr.halted_get hv
  | own _ _ _ hr => exact hr.halted_get hv
  | reset ha => exact absurd ha (hreset _)
  | illegal | offer | idleTurn | wait => exact hv

/-- A turn of a halted unit only leaves the agenda (R310, R347). -/
theorem step_turn_of_halted {s : State} {u : Agent} {draw : Draws} {rest : List Event} (ha : s.agenda = .turn u draw :: rest)
    (hv : s.halted.get u = true) : step s = .next { s with agenda := rest } := by
  obtain ⟨turn, _, _⟩ := onlyEnabledUnitsStep
  exact turn s u draw rest ha (.inr (.inl hv))

/-- Settles O56: every transition but reset keeps the halts that stand, and a halted unit has no enabled step. -/
theorem haltsAreSticky : Obligations.HaltsAreSticky := by
  intro s t u h hu hreset
  refine ⟨(step_transition h).halted_get hreset hu, fun draw rest ha => ?_⟩
  rw [step_turn_of_halted ha hu] at h
  exact (Host.Outcome.next.inj h).symm

end Sys2Proof.Machine
end

section
/-! PROOFS. Reset (R370): the table of reset values, and the invariant at reset of every instance. -/

namespace Sys2Proof.Machine

/-- The reference reset state is one that the reset move leaves, so what holds of every such state holds of it too. -/
theorem State.resetBlock_reset : State.reset.resetBlock = State.reset := rfl

@[simp] theorem Halts.get_none (u : Agent) : Halts.none.get u = false := by cases u <;> rfl

/-- STATUS shows PHASE, the halt bits and IS_BUSY, and the reset move leaves these three as in a fresh instance. -/
@[simp] theorem statusWord_resetBlock (s : State) : statusWord s.resetBlock = 0 := statusWord_resetWith s.params

/-- The reset move is performed at once, whatever state it finds. -/
theorem step_of_reset {s : State} {rest : List Event} (ha : s.agenda = .reset :: rest) :
    step s = .next (State.resetBlock { s with agenda := rest }) := step_of_agenda s .reset rest ha

/-- Settles O15: both states are left by a reset move, and the fields of such a state do not depend on the state it found. -/
theorem resetRestoresTable : Obligations.ResetRestoresTable := by
  intro s rest ha
  refine ⟨_, step_of_reset ha, fun u hu => ?_⟩
  obtain ⟨r, rfl⟩ : ∃ r : State, u = r.resetBlock := by
    rcases List.mem_pair.1 hu with rfl | rfl
    · exact ⟨_, rfl⟩
    · exact ⟨_, State.resetBlock_reset.symm⟩
  simp [Csrs.reset, Queues.empty]

/-- Settles O59: State.reset is the reset state of the reference instance, so the rule for every instance covers it. -/
theorem invariantAtReset : Obligations.InvariantAtReset := ⟨.resetWith, .resetWith Config.Params.reference⟩

end Sys2Proof.Machine
end
